-- ==== Sys2Proof/Word.lean ====
section
/-! DEFINITION. The word and byte types of the block and the integer notation of spec/00_scope.md rules R8 and R9. -/

namespace Sys2Proof

/-- A register value: every register of the block is 32 bits wide (R7, R32). -/
abbrev Word := BitVec 32

/-- A byte of system memory (R59). -/
abbrev Byte := BitVec 8

/-- A raw 2-bit code, 0..3 (R104). -/
abbrev Code := BitVec 2

end Sys2Proof
end

