-- ==== Sys2Proof/Config.lean ====
section
/-! DEFINITION. What a built instance fixes (spec/00_scope.md rule R7: the parameters left OPEN) and the free values,
constants with no body (spec/93_implementation_defined.md class "any value"). -/

namespace Sys2Proof

/-- The parameters R7 leaves OPEN. They are a field of the machine's state that no step changes, so a statement over all
states is a statement over all parameter values (log 2). -/
structure Params where
  /-- MEM_BYTES: how many bytes of system memory the engine's master port reaches (R7, D2). -/
  memBytes : Nat
  /-- REG_BASE: the system address of the 256-byte register window (R7, D3). -/
  regBase  : Nat
  /-- IMPL_ID: the value the `ID` register reads (R7, R33, D5). -/
  implId   : Word
  deriving DecidableEq, Repr

/-- The parameter values of `State.reset`. DESIGN CHOICE (log 2): the spec leaves them open. MEM_BYTES and IMPL_ID are the
values its test vectors use (spec/95_test_vectors.md section 0), REG_BASE lies above that memory. -/
def Config.params : Params := { memBytes := 0x10000, regBase := 0x40000000, implId := 0#32 }

/-- Free value of class "any value" (log 4): the byte at an address, for the draw-th time the spec leaves bytes open
(R86, R87, R263). No body: nothing can be proved of it. -/
opaque Config.freeByte : (draw : Nat) → (addr : Nat) → Byte

/-- Free value (log 4): the value of `SCALE` after a breach of R86 for a running LDSCALE. -/
opaque Config.freeWord : (draw : Nat) → Word

/-- Free value (log 4): bits 1:0 of `RESULT` after a breach of R86 for a running LOCATE; bits 31:2 stay 0 (R46, log 15). -/
opaque Config.freeCode : (draw : Nat) → Code

/-- Free value (log 4): `STATUS.RCODE` after a breach of R86. -/
opaque Config.freeFlag : (draw : Nat) → Bool

end Sys2Proof
end

