-- ==== Sys2Proof/Syntax.lean ====
section
/-! DEFINITION. The command set (spec/30_encoding.md rule R101), the one command format (R100), the registers of the window
(spec/10_state.md rule R32) and the steps the outside world can take (spec/00_scope.md rule R16). -/

namespace Sys2Proof

/-- The eight commands, one constructor per row of the opcode map (R101). No command has an operand field (R100, R112):
its operands are the latched registers. -/
inductive Instr where
  /-- `NOP` (R132). -/
  | nop
  /-- `LOCATE` (R135). -/
  | locate
  /-- `UNPACK` (R140). -/
  | unpack
  /-- `LDSCALE` (R150). -/
  | ldscale
  /-- `MATVEC` (R162). -/
  | matvec
  /-- `MATVEC_T` (R170). -/
  | matvecT
  /-- `MATVEC_I8` (R198). -/
  | matvecI8
  /-- `MATVEC_T_I8` (R205). -/
  | matvecTI8
  deriving DecidableEq, Repr

/-- A command word taken apart by the one format `CMD` (R100): `OP` is bits 7:0, `RSV` bits 31:8. -/
structure CmdWord where
  op  : BitVec 8
  rsv : BitVec 24
  deriving DecidableEq, Repr

/-- The named registers of the window (R32). Every other offset is reserved (R47). -/
inductive Reg where
  | id | ctrl | status | cmd
  | rows | cols | packedAddr | packedLen | srcAddr | srcLen | dstAddr | dstLen
  | scale | actScale | actSum | index
  | result
  deriving DecidableEq, Repr

/-- The width of a host bus access. -/
inductive Width where
  | byte | half | word
  deriving DecidableEq, Repr

/-- One step of the host (R16): a bus read, a bus write (the low bytes of `value`), or a new level of the reset input (R260). -/
inductive HostStep where
  | read  (addr : Nat) (width : Width)
  | write (addr : Nat) (width : Width) (value : Word)
  | reset (asserted : Bool)
  deriving DecidableEq, Repr

/-- One turn of the interleaving of the two agents (R16, R85). -/
inductive Event where
  | host (h : HostStep)
  | engine
  deriving DecidableEq, Repr

end Sys2Proof
end

