-- ==== Sys2Proof/WellFormed.lean ====
section
/-! DEFINITION. Well-formedness: of a command word (spec/30_encoding.md rules R100 to R103) and of the parameters
(spec/00_scope.md rule R7). A term of `Instr` has no fields, so its well-formedness is that of the word it stands for. -/

namespace Sys2Proof

/-- The `OP` values of the opcode map (R101). -/
def assignedOps : List (BitVec 8) := [0x00#8, 0x01#8, 0x02#8, 0x03#8, 0x10#8, 0x11#8, 0x12#8, 0x13#8]

/-- `RSV` must be zero (R102). -/
def CmdWord.rsvZero (f : CmdWord) : Bool := f.rsv == 0#24

/-- `OP` must be assigned (R103). -/
def CmdWord.opAssigned (f : CmdWord) : Bool := assignedOps.contains f.op

/-- A legal command word (R101 to R103). -/
def CmdWord.wf (f : CmdWord) : Bool := f.rsvZero && f.opAssigned

/-- `1 <= MEM_BYTES` (R7). -/
def Params.memNonempty (p : Params) : Bool := decide (1 ≤ p.memBytes)

/-- `MEM_BYTES <= 2^32` (R7). -/
def Params.memFits (p : Params) : Bool := decide (p.memBytes ≤ 2 ^ 32)

/-- Parameter values R7 allows. -/
def Params.wf (p : Params) : Bool := p.memNonempty && p.memFits

end Sys2Proof
end

