-- ==== Sys2Proof/Decode.lean ====
section
/-! DEFINITION. The decoder, total on every word and every byte string, rejecting by name, and the encoder
(spec/30_encoding.md rules R100 to R103, R114). -/

namespace Sys2Proof

/-- Why a command word names no command. The machine completes every such word with `ILLEGAL_CMD` (R103, R223). -/
inductive DecodeReject where
  /-- `RSV != 0` (R102). -/
  | reservedBits
  /-- `RSV = 0` and `OP` is not in the opcode map (R103). -/
  | unassignedOp
  /-- Not the four bytes of one 32-bit word: there is one command length (R114). -/
  | notOneWord
  deriving DecidableEq, Repr

/-- The fields of a command word (R100). -/
def fieldsOf (w : Word) : CmdWord := { op := w.extractLsb' 0 8, rsv := w.extractLsb' 8 24 }

/-- The opcode map read from `OP` to the command (R101). -/
def decodeOp (op : BitVec 8) : Except DecodeReject Instr :=
  match op.toNat with
  | 0x00 => .ok .nop
  | 0x01 => .ok .locate
  | 0x02 => .ok .unpack
  | 0x03 => .ok .ldscale
  | 0x10 => .ok .matvec
  | 0x11 => .ok .matvecT
  | 0x12 => .ok .matvecI8
  | 0x13 => .ok .matvecTI8
  | _    => .error .unassignedOp

/-- The command a 32-bit word selects (R101), or why it selects none (R102 before R103). -/
def decodeWord (w : Word) : Except DecodeReject Instr :=
  let f := fieldsOf w
  if f.rsv = 0#24 then decodeOp f.op else .error .reservedBits

/-- Four bytes as one little-endian 32-bit word. -/
def wordOfBytes (b0 b1 b2 b3 : Byte) : Word := b3 ++ b2 ++ b1 ++ b0

/-- The decoder on a byte string: exactly one 32-bit word, its least significant byte first (R114). -/
def decode (bytes : List Byte) : Except DecodeReject Instr :=
  match bytes with
  | [b0, b1, b2, b3] => decodeWord (wordOfBytes b0 b1 b2 b3)
  | _ => .error .notOneWord

/-- The opcode map read from the command to `OP` (R101). -/
def opcodeOf (i : Instr) : BitVec 8 :=
  match i with
  | .nop       => 0x00#8
  | .locate    => 0x01#8
  | .unpack    => 0x02#8
  | .ldscale   => 0x03#8
  | .matvec    => 0x10#8
  | .matvecT   => 0x11#8
  | .matvecI8  => 0x12#8
  | .matvecTI8 => 0x13#8

/-- The command word of a command: `RSV = 0` above `OP` (R100). -/
def encode (i : Instr) : Word := 0#24 ++ opcodeOf i

/-- A term of `Instr` is well-formed when the word it stands for is legal. -/
def Instr.wf (i : Instr) : Bool := (fieldsOf (encode i)).wf

/-- The word whose low `nbits` bits are those of `w` and whose other bits are 0. -/
def tableWord (nbits w : Nat) : Word := BitVec.ofNat 32 (w % 2 ^ nbits)

/-- What the decoder reads from an instruction whose bits are `w`, numbered as the opcode table numbers them. -/
def decodeTableWord (nbits w : Nat) : Option Instr :=
  let c := tableWord nbits w
  match decode [c.extractLsb' 0 8, c.extractLsb' 8 8, c.extractLsb' 16 8, c.extractLsb' 24 8] with
  | .ok i => some i
  | .error _ => none

end Sys2Proof
end

