-- ==== Sys2Proof/Machine/State.lean ====
section
/-! DEFINITION. The state of the machine as plain data (spec/10_state.md), the reasons a step can stop, and the state
right after reset (spec/10_state.md rule R60). -/

namespace Sys2Proof.Machine

/-- The error codes a completion can report (spec/60_exceptions.md rule R221); codes 6..255 are never produced. -/
inductive ECode where
  | ok | illegalCmd | invalidDimension | misaligned | accessFault | overlap
  deriving DecidableEq, Repr

/-- The stored fields of `STATUS` (R35). `ERR` is always `ECODE != 0` and the reserved bits read 0, so neither is stored. -/
structure Status where
  busy  : Bool
  done  : Bool
  rcode : Bool
  ovr   : Bool
  ecode : ECode
  deriving DecidableEq, Repr

/-- The twelve operand registers (R38 to R45), which the latch copies (R50). -/
structure Operands where
  rows       : Word
  cols       : Word
  packedAddr : Word
  packedLen  : Word
  srcAddr    : Word
  srcLen     : Word
  dstAddr    : Word
  dstLen     : Word
  scale      : Word
  actScale   : Word
  actSum     : Word
  index      : Word
  deriving DecidableEq, Repr

/-- The operand latch `L` (R50): the command word and the operands taken at acceptance. -/
structure Latch where
  cmd : Word
  ops : Operands
  deriving DecidableEq, Repr

/-- The bytes `start .. start+len-1` (R81). -/
structure Region where
  start : Nat
  len   : Nat
  deriving DecidableEq, Repr

/-- A successful command kept while the host has not observed its completion (R86, log 6): the operands it ran on, and which
of the values it wrote still stand. -/
structure Launch where
  instr         : Instr
  ops           : Operands
  /-- The write regions of the commands that succeeded since: what they wrote is theirs. -/
  rewritten     : List Region
  /-- The `RESULT` or `SCALE` value it wrote has not been replaced by a later command or by the host. -/
  registerKept  : Bool
  /-- No command has succeeded since. -/
  lastSucceeded : Bool
  deriving DecidableEq, Repr

/-- System memory (R59, R70): addresses strictly rising, no entry equal to what an unlisted address reads as. -/
abbrev Memory := List Host.Cell

/-- The whole machine. -/
structure State where
  /-- MEM_BYTES, REG_BASE, IMPL_ID (R7); no step changes them. -/
  params     : Params
  /-- `CTRL.IE` (R34). -/
  ie         : Bool
  /-- `STATUS` (R35); `status.busy` is the engine state too (R51). -/
  status     : Status
  /-- The operand registers of the window (R38 to R45). -/
  ops        : Operands
  /-- `RESULT` (R46). -/
  result     : Word
  /-- The operand latch `L` (R50). -/
  latch      : Latch
  /-- System memory (R59). -/
  mem        : Memory
  /-- The reset input is asserted (R260). -/
  resetHeld  : Bool
  /-- The events still to come (R16, R85); the model's own field (log 1). -/
  agenda     : List Event
  /-- The value the last host read returned; the model's own field (log 9). -/
  busData    : Word
  /-- Whether the duty of R86 has been broken for the running command; the model's own field (log 5). -/
  breached   : Bool
  /-- Successful commands whose completion the host has not observed (R86), newest first; the model's own field (log 6). -/
  unobserved : List Launch
  /-- How many times a free value has been drawn; the model's own field (log 4). -/
  draw       : Nat
  deriving DecidableEq, Repr

/-- Why the machine stops with a fault. -/
inductive Fault where
  /-- Raised by a host access whose bytes lie neither in the register window nor all in system memory: the spec gives the
  machine no such address (R59, R70). SAFE: the model stops where a platform may have something else on its bus. -/
  | noSuchAddress
  deriving DecidableEq, Repr

/-- Why the model gives no meaning. -/
inductive Refusal where
  /-- Raised by an arm of `exec` whose instruction has no meaning yet. SAFE. -/
  | notModelled (mnemonic : String)
  /-- Raised by a host access to the window that is not 32 bits wide at a multiple of 4: "the model refuses it" (R48, U9).
  SAFE. -/
  | windowAccessShape
  /-- Raised by the completion of a command whose checks all pass and one of whose regions covers the block's own register
  window: "the model refuses such a platform" (R82, U10). SAFE. -/
  | regionCoversWindow
  deriving DecidableEq, Repr

/-- The outcome of a step of this machine. -/
abbrev Result := Host.Outcome State Fault Refusal

/-- `STATUS = 0x00000000` (R60). -/
def Status.reset : Status := { busy := false, done := false, rcode := false, ovr := false, ecode := .ok }

/-- Every operand register 0 (R32, R60). -/
def Operands.reset : Operands :=
  { rows := 0#32, cols := 0#32, packedAddr := 0#32, packedLen := 0#32, srcAddr := 0#32, srcLen := 0#32,
    dstAddr := 0#32, dstLen := 0#32, scale := 0#32, actScale := 0#32, actSum := 0#32, index := 0#32 }

/-- The latch all zeros (R60). -/
def Latch.reset : Latch := { cmd := 0#32, ops := Operands.reset }

/-- The machine right after reset with parameters `p`: every register at the value of R32's reset column, the latch all
zeros, the engine idle (R60), the reset input released (log 8). Memory lists nothing (log 3); the model's own fields are empty
(logs 1, 4, 5, 6, 9). -/
def State.resetWith (p : Params) : State :=
  { params := p, ie := false, status := Status.reset, ops := Operands.reset, result := 0#32, latch := Latch.reset,
    mem := [], resetHeld := false, agenda := [], busData := 0#32, breached := false, unobserved := [], draw := 0 }

/-- The machine right after reset, at the parameter values of log 2. -/
def State.reset : State := State.resetWith Config.params

end Sys2Proof.Machine
end

