-- ==== Sys2Proof/Machine/Flags.lean ====
section
/-! DEFINITION. `STATUS`, `CTRL` and `IRQ` (spec/10_state.md rules R34 to R36, R49; spec/60_exceptions.md rule R232): their
words, and what acceptance, completion, overrun and a host write do to the flags. -/

namespace Sys2Proof.Machine

/-- The number of an error code (R221). -/
def ECode.number (c : ECode) : BitVec 8 :=
  match c with
  | .ok               => 0#8
  | .illegalCmd       => 1#8
  | .invalidDimension => 2#8
  | .misaligned       => 3#8
  | .accessFault      => 4#8
  | .overlap          => 5#8

/-- `STATUS.ERR` (R35): always `ECODE != 0`. -/
def Status.err (f : Status) : Bool := f.ecode.number != 0#8

/-- The word a read of `STATUS` returns: bit 0 `BUSY`, 1 `DONE`, 2 `ERR`, 3 `RCODE`, 4 `OVR`, 15:8 `ECODE`, the rest 0 (R35). -/
def Status.toWord (f : Status) : Word :=
  0#16 ++ f.ecode.number ++ 0#3 ++ BitVec.ofBool f.ovr ++ BitVec.ofBool f.rcode ++ BitVec.ofBool f.err
    ++ BitVec.ofBool f.done ++ BitVec.ofBool f.busy

/-- The word a read of `CTRL` returns: bit 0 `IE`, the rest 0 (R34). -/
def ctrlWord (ie : Bool) : Word := 0#31 ++ BitVec.ofBool ie

/-- A host write of `STATUS`: bit 1 clears `DONE`, bit 4 clears `OVR`, nothing else (R36). -/
def Status.hostWrite (f : Status) (v : Word) : Status :=
  { f with done := f.done && !v.getLsbD 1, ovr := f.ovr && !v.getLsbD 4 }

/-- Acceptance: `BUSY` set, `DONE`, `RCODE`, `ECODE` cleared, `OVR` kept (R55). -/
def Status.accepted (f : Status) : Status := { f with busy := true, done := false, rcode := false, ecode := .ok }

/-- Completion: `BUSY` cleared, `DONE` set, `ECODE` the code, `RCODE` only on success, `OVR` kept (R56). -/
def Status.completed (f : Status) (code : ECode) (rc : Bool) : Status :=
  { f with busy := false, done := true, ecode := code, rcode := (code == .ok) && rc }

/-- A dropped `CMD` write sets `OVR` (R57). -/
def Status.overrun (f : Status) : Status := { f with ovr := true }

/-- The interrupt output: `IRQ = CTRL.IE and STATUS.DONE` (R232). -/
def State.irq (s : State) : Bool := s.ie && s.status.done

end Sys2Proof.Machine
end

