-- ==== Sys2Proof/Machine/Operands.lean ====
section
/-! DEFINITION. How a command reads its operands (spec/30_encoding.md rules R104 to R113), the regions of each command
(spec/20_memory.md rule R81) and the checks every command makes before its first access (spec/60_exceptions.md rules R222
to R227). -/

namespace Sys2Proof.Machine

/-! ### The packed format -/

/-- `byte_off(idx)` (R106). -/
def byteOff (idx : Nat) : Nat := idx / 128 * 32 + idx % 128 % 32

/-- `group(idx)` (R106). -/
def group (idx : Nat) : Nat := idx % 128 / 32

/-- The code of group `g` in byte `b`: `(b >> (6 - 2*g)) & 0b11` (R107). -/
def codeIn (b : Byte) (g : Nat) : Code := (b >>> (6 - 2 * g)).extractLsb' 0 2

/-- The constant decode table (R52): the codes of groups 0, 1, 2, 3 of a byte. -/
def lut (b : Byte) : List Code :=
  [b.extractLsb' 6 2, b.extractLsb' 4 2, b.extractLsb' 2 2, b.extractLsb' 0 2]

/-- The float value map (R105). -/
def codeMap (k : Code) : Word :=
  if k = 0#2 then 0xBF800000#32 else if k = 2#2 then 0x3F800000#32 else 0x00000000#32

/-- `PACKED_BYTES(N)` (R108). -/
def packedBytes (n : Nat) : Nat := 32 * ((n + 127) / 128)

/-! ### Latched operands -/

/-- `rows = s32(L.ROWS)` (R38, R112). -/
def Operands.rowsInt (o : Operands) : Int := o.rows.toInt

/-- `cols = s32(L.COLS)` (R38, R112). -/
def Operands.colsInt (o : Operands) : Int := o.cols.toInt

/-- `rows` as a count, once it is known to be positive. -/
def Operands.rowsN (o : Operands) : Nat := o.rowsInt.toNat

/-- `cols` as a count, once it is known to be positive. -/
def Operands.colsN (o : Operands) : Nat := o.colsInt.toNat

/-- `N = rows * cols` (R108). -/
def Operands.elems (o : Operands) : Nat := o.rowsN * o.colsN

/-- `PA` (R81). -/
def Operands.pa (o : Operands) : Nat := o.packedAddr.toNat

/-- `SA` (R81). -/
def Operands.sa (o : Operands) : Nat := o.srcAddr.toNat

/-- `DA` (R81). -/
def Operands.da (o : Operands) : Nat := o.dstAddr.toNat

/-- `I` (R81). -/
def Operands.idx (o : Operands) : Nat := o.index.toNat

/-! ### Regions -/

/-- The address lies in the region. -/
def Region.covers (r : Region) (a : Nat) : Bool := decide (r.start ≤ a ∧ a < r.start + r.len)

/-- `overlaps` (R227), for regions of positive length. -/
def Region.overlaps (r q : Region) : Bool := decide (r.start < q.start + q.len ∧ q.start < r.start + r.len)

/-- The region does not reach beyond `MEM_BYTES`, computed without wrap-around (R226). -/
def Region.fits (r : Region) (memBytes : Nat) : Bool := decide (r.start + r.len ≤ memBytes)

/-- The read regions and the write region of a command (R81). -/
structure Footprint where
  reads : List Region
  write : Option Region
  deriving DecidableEq, Repr

/-- Every region of the command. -/
def Footprint.all (f : Footprint) : List Region := f.write.toList ++ f.reads

/-- The regions of each command, defined once its dimension checks pass (R81). -/
def footprint (i : Instr) (o : Operands) : Footprint :=
  let packed : Region := ⟨o.pa, packedBytes o.elems⟩
  match i with
  | .nop       => { reads := [], write := none }
  | .locate    => { reads := [⟨o.pa + byteOff o.idx, 1⟩], write := none }
  | .unpack    => { reads := [⟨o.pa + 32 * o.idx, 32⟩], write := some ⟨o.da, 128⟩ }
  | .ldscale   => { reads := [⟨o.pa + packedBytes o.elems, 4⟩], write := none }
  | .matvec    => { reads := [packed, ⟨o.sa, 4 * o.colsN⟩], write := some ⟨o.da, 4 * o.rowsN⟩ }
  | .matvecT   => { reads := [packed, ⟨o.sa, 4 * o.rowsN⟩], write := some ⟨o.da, 4 * o.colsN⟩ }
  | .matvecI8  => { reads := [packed, ⟨o.sa, o.rowsN⟩], write := some ⟨o.da, 4 * o.colsN⟩ }
  | .matvecTI8 => { reads := [packed, ⟨o.sa, o.colsN⟩], write := some ⟨o.da, 4 * o.rowsN⟩ }

/-! ### The checks -/

/-- Both dimensions are positive (R224). -/
def Operands.dimsPositive (o : Operands) : Bool := decide (0 < o.rowsInt ∧ 0 < o.colsInt)

/-- `DST_LEN` and `SRC_LEN` equal the counts the command needs and `PACKED_LEN` holds the codes (R224). -/
def Operands.lengthsMatch (o : Operands) (dst src : Nat) : Bool :=
  decide (o.dstLen.toNat = dst ∧ o.srcLen.toNat = src ∧ packedBytes o.elems ≤ o.packedLen.toNat)

/-- The negation of R224's "fails when" column. -/
def dimensionOk (i : Instr) (o : Operands) : Bool :=
  match i with
  | .nop       => true
  | .locate    => decide (byteOff o.idx < o.packedLen.toNat)
  | .unpack    => decide (32 * o.idx + 32 ≤ o.packedLen.toNat ∧ o.dstLen.toNat = 128)
  | .ldscale   => o.dimsPositive && decide (packedBytes o.elems + 4 ≤ o.packedLen.toNat)
  | .matvec    => o.dimsPositive && o.lengthsMatch o.rowsN o.colsN
  | .matvecT   => o.dimsPositive && o.lengthsMatch o.colsN o.rowsN
  | .matvecI8  => o.dimsPositive && o.lengthsMatch o.colsN o.rowsN
  | .matvecTI8 => o.dimsPositive && o.lengthsMatch o.rowsN o.colsN

/-- The negation of R225: the float32 arrays of the command are 4-byte aligned (R76). -/
def alignmentOk (i : Instr) (o : Operands) : Bool :=
  match i with
  | .nop | .locate | .unpack | .ldscale => true
  | .matvec | .matvecT => decide (o.da % 4 = 0 ∧ o.sa % 4 = 0)
  | .matvecI8 | .matvecTI8 => decide (o.da % 4 = 0)

/-- The negation of R226: every region lies inside memory. -/
def Footprint.fits (f : Footprint) (memBytes : Nat) : Bool := f.all.all (·.fits memBytes)

/-- R227: the write region overlaps a read region. -/
def Footprint.selfOverlaps (f : Footprint) : Bool := f.write.toList.any fun w => f.reads.any w.overlaps

/-- The code a command completes with: that of the first check it fails, in the order of R222. `ILLEGAL_CMD` comes before
all of these and is the decoder's. -/
def checkCode (i : Instr) (memBytes : Nat) (o : Operands) : ECode :=
  if !dimensionOk i o then .invalidDimension
  else if !alignmentOk i o then .misaligned
  else if !(footprint i o).fits memBytes then .accessFault
  else if (footprint i o).selfOverlaps then .overlap
  else .ok

/-- Some region covers a byte of the block's own register window (R82, U10). -/
def Footprint.coversWindow (f : Footprint) (p : Params) : Bool :=
  f.all.any fun r => r.overlaps ⟨p.regBase, 256⟩

end Sys2Proof.Machine
end

