-- ==== Sys2Proof/Machine/Ops.lean ====
section
/-! DEFINITION. The named operations over memory, registers and the life of a command: byte and word access
(spec/00_scope.md rule R11), register reads and writes (spec/10_state.md rules R33 to R47), acceptance, overrun and
completion (R55 to R57), the host's memory duty (spec/20_memory.md rules R86, R87) and reset (spec/70_reset_and_hazards.md
rules R260 to R263). The block raises no trap (R220, R235): the one shared completion operation `complete` is how every
error code is taken. -/

namespace Sys2Proof.Machine

/-! ### Memory -/

/-- What an address that memory does not list reads as. DESIGN CHOICE (log 3): the spec gives system memory no contents at
power-on. -/
def unlistedByte : Byte := 0#8

/-- `MemRead(addr, 1)` (R11). -/
def readByte (m : Memory) (a : Nat) : Byte :=
  match m with
  | [] => unlistedByte
  | (k, v) :: rest => if k = a then v else readByte rest a

/-- `MemWrite(addr, 1, v)` (R11), keeping the canonical form. -/
def writeByte (m : Memory) (a : Nat) (v : Byte) : Memory :=
  match m with
  | [] => if v = unlistedByte then [] else [(a, v)]
  | (k, w) :: rest =>
    if a < k then (if v = unlistedByte then (k, w) :: rest else (a, v) :: (k, w) :: rest)
    else if a = k then (if v = unlistedByte then rest else (a, v) :: rest)
    else (k, w) :: writeByte rest a v

/-- Byte writes in order. -/
def writeCells (m : Memory) (cells : List Host.Cell) : Memory :=
  cells.foldl (fun m c => writeByte m c.1 c.2) m

/-- Every listed address lies above `lo`, addresses strictly rise, no entry equals what an unlisted address reads as. -/
def memWfFrom (lo : Option Nat) (m : Memory) : Bool :=
  match m with
  | [] => true
  | (k, v) :: rest => (lo.all fun l => decide (l < k)) && (v != unlistedByte) && memWfFrom (some k) rest

/-- The canonical form of memory: equal memories are equal data. -/
def Memory.wf (m : Memory) : Bool := memWfFrom none m

/-- `MemRead(addr, 4)`, little-endian (R11, R72). -/
def readWord (m : Memory) (a : Nat) : Word :=
  wordOfBytes (readByte m a) (readByte m (a + 1)) (readByte m (a + 2)) (readByte m (a + 3))

/-- The byte of `v` at offset `k`, the least significant at offset 0 (R11). -/
def byteOfWord (v : Word) (k : Nat) : Byte := v.extractLsb' (8 * k) 8

/-- The bytes of `MemWrite(addr, n, v)`, little-endian (R11, R72). -/
def cellsOfWord (a n : Nat) (v : Word) : List Host.Cell :=
  (List.range n).map fun k => (a + k, byteOfWord v k)

/-- `code_at(P, idx)` (R106, R107, R130). -/
def codeAt (m : Memory) (pa idx : Nat) : Code := codeIn (readByte m (pa + byteOff idx)) (group idx)

/-- Element `k` of `vec` (R113). -/
def vecElem (m : Memory) (sa k : Nat) : Word := readWord m (sa + 4 * k)

/-- Element `k` of `qvec`, an int8 (R113). -/
def qvecElem (m : Memory) (sa k : Nat) : Int := (readByte m (sa + k)).toInt

/-- The bytes of `dst` when element `k` is `f k`, for `k` from 0 to `n-1` (R113). -/
def dstCells (da n : Nat) (f : Nat → Word) : List Host.Cell :=
  (List.range n).flatMap fun k => cellsOfWord (da + 4 * k) 4 (f k)

/-- `rc` of a matvec command: some used index, `0 <= idx < rows*cols`, holds the reserved code (R146). -/
def usesReserved (m : Memory) (o : Operands) : Bool :=
  (List.range o.elems).any fun idx => codeAt m o.pa idx == 3#2

/-! ### Registers of the window -/

/-- The offset of a register (R32). -/
def regOffset (r : Reg) : Nat :=
  match r with
  | .id => 0x00 | .ctrl => 0x04 | .status => 0x08 | .cmd => 0x0C
  | .rows => 0x10 | .cols => 0x14 | .packedAddr => 0x18 | .packedLen => 0x1C
  | .srcAddr => 0x20 | .srcLen => 0x24 | .dstAddr => 0x28 | .dstLen => 0x2C
  | .scale => 0x30 | .actScale => 0x34 | .actSum => 0x38 | .index => 0x3C
  | .result => 0x40

/-- The register at an offset (R32); none at a reserved offset (R47). -/
def regAt (off : Nat) : Option Reg :=
  match off with
  | 0x00 => some .id | 0x04 => some .ctrl | 0x08 => some .status | 0x0C => some .cmd
  | 0x10 => some .rows | 0x14 => some .cols | 0x18 => some .packedAddr | 0x1C => some .packedLen
  | 0x20 => some .srcAddr | 0x24 => some .srcLen | 0x28 => some .dstAddr | 0x2C => some .dstLen
  | 0x30 => some .scale | 0x34 => some .actScale | 0x38 => some .actSum | 0x3C => some .index
  | 0x40 => some .result
  | _ => none

/-- `x[NAME]` (R10): what a host read of a register returns (R33 to R46). -/
def readReg (s : State) (r : Reg) : Word :=
  match r with
  | .id         => s.params.implId
  | .ctrl       => ctrlWord s.ie
  | .status     => s.status.toWord
  | .cmd        => 0#32
  | .rows       => s.ops.rows
  | .cols       => s.ops.cols
  | .packedAddr => s.ops.packedAddr
  | .packedLen  => s.ops.packedLen
  | .srcAddr    => s.ops.srcAddr
  | .srcLen     => s.ops.srcLen
  | .dstAddr    => s.ops.dstAddr
  | .dstLen     => s.ops.dstLen
  | .scale      => s.ops.scale
  | .actScale   => s.ops.actScale
  | .actSum     => s.ops.actSum
  | .index      => s.ops.index
  | .result     => s.result

/-- Acceptance of the command word `v` (R55): the latch takes `v` and every operand register, the flags are those of an
accepted command; no check, no memory access. The duty of R86 starts unbroken. -/
def accept (s : State) (v : Word) : State :=
  { s with latch := { cmd := v, ops := s.ops }, status := s.status.accepted, breached := false }

/-- A host write of `CMD`: accepted when the engine is idle (R55), dropped when it is busy (R57). -/
def writeCmd (s : State) (v : Word) : State :=
  if s.status.busy then { s with status := s.status.overrun } else accept s v

/-- The host has written `SCALE` since: an LDSCALE's value no longer stands in it (R42, R86). -/
def Launch.scaleReplaced (l : Launch) : Launch := { l with registerKept := l.registerKept && l.instr != .ldscale }

/-- `x[NAME] <- v` (R10): what a host write of a register does (R33 to R46, R58). -/
def writeReg (s : State) (r : Reg) (v : Word) : State :=
  match r with
  | .id         => s
  | .ctrl       => { s with ie := v.getLsbD 0 }
  | .status     => { s with status := s.status.hostWrite v }
  | .cmd        => writeCmd s v
  | .rows       => { s with ops := { s.ops with rows := v } }
  | .cols       => { s with ops := { s.ops with cols := v } }
  | .packedAddr => { s with ops := { s.ops with packedAddr := v } }
  | .packedLen  => { s with ops := { s.ops with packedLen := v } }
  | .srcAddr    => { s with ops := { s.ops with srcAddr := v } }
  | .srcLen     => { s with ops := { s.ops with srcLen := v } }
  | .dstAddr    => { s with ops := { s.ops with dstAddr := v } }
  | .dstLen     => { s with ops := { s.ops with dstLen := v } }
  | .scale      => { s with ops := { s.ops with scale := v }, unobserved := s.unobserved.map Launch.scaleReplaced }
  | .actScale   => { s with ops := { s.ops with actScale := v } }
  | .actSum     => { s with ops := { s.ops with actSum := v } }
  | .index      => { s with ops := { s.ops with index := v } }
  | .result     => s

/-- A host read of the word at an offset of the window that is a multiple of 4: the value goes to the bus (R32, R47). A read
of `STATUS` with `BUSY = 0` is how the host observes completion, which ends the window of R86 (log 6). -/
def hostReadReg (s : State) (off : Nat) : State :=
  match regAt off with
  | none => { s with busData := 0#32 }
  | some .status =>
    { s with busData := s.status.toWord, unobserved := if s.status.busy then s.unobserved else [] }
  | some r => { s with busData := readReg s r }

/-- A host write of the word at an offset of the window that is a multiple of 4; at a reserved offset it is ignored (R47),
and while reset is asserted every register keeps its reset value (R260). -/
def hostWriteReg (s : State) (off : Nat) (v : Word) : State :=
  if s.resetHeld then s
  else
    match regAt off with
    | none => s
    | some r => writeReg s r v

/-! ### Completion -/

/-- What `Execute` hands to the completion step on success (R56): `rc`, the memory writes in order, the register update. -/
structure Effect where
  rc     : Bool
  writes : List Host.Cell
  result : Option Word
  scale  : Option Word
  deriving DecidableEq, Repr

/-- Free bytes for a region, as far as it lies in memory (class "any value"; log 4). -/
def freeCells (draw memBytes : Nat) (r : Option Region) : List Host.Cell :=
  match r with
  | none => []
  | some q => ((List.range q.len).map fun k => (q.start + k, Config.freeByte draw (q.start + k))).filter fun c => decide (c.1 < memBytes)

/-- A free raw code as `RESULT` holds it (R46; log 15). -/
def freeResult (draw : Nat) : Word := 0#30 ++ Config.freeCode draw

/-- The effect of a command whose memory duty was broken (R86): every byte of the write region, the `RESULT` or `SCALE` value
it writes and `RCODE` take any value. -/
def Effect.freed (e : Effect) (draw memBytes : Nat) (write : Option Region) : Effect :=
  { rc := Config.freeFlag draw
    writes := freeCells draw memBytes write
    result := e.result.map fun _ => freeResult draw
    scale := e.scale.map fun _ => Config.freeWord draw }

/-- The completion step with an error code (R56, R228): nothing changes but the flags. -/
def completeError (s : State) (code : ECode) : State :=
  { s with status := s.status.completed code false, breached := false }

/-- The duty of R86 has been broken for the command: a command with no region has none (R81). -/
def dutyBroken (i : Instr) (s : State) : Bool := s.breached && !(footprint i s.latch.ops).all.isEmpty

/-- The effect the completion step performs: the command's own, or the free one after a breach of R86. -/
def effectDue (i : Instr) (s : State) (e : Effect) : Effect :=
  if dutyBroken i s then e.freed s.draw s.params.memBytes (footprint i s.latch.ops).write else e

/-- A command that has just succeeded: all it wrote stands. -/
def Launch.fresh (i : Instr) (o : Operands) : Launch :=
  { instr := i, ops := o, rewritten := [], registerKept := true, lastSucceeded := true }

/-- The command `i` has succeeded since: its write region and its register are its own (log 6). -/
def Launch.succeededBy (i : Instr) (o : Operands) (l : Launch) : Launch :=
  { l with rewritten := (footprint i o).write.toList ++ l.rewritten
           registerKept := l.registerKept && l.instr != i
           lastSucceeded := false }

/-- The completion step with code 0 (R56): the memory writes, then the register update, then the flags. -/
def completeOk (i : Instr) (s : State) (e : Effect) : State :=
  { s with
    mem := writeCells s.mem e.writes
    result := e.result.getD s.result
    ops := { s.ops with scale := e.scale.getD s.ops.scale }
    status := s.status.completed .ok e.rc
    breached := false
    unobserved := .fresh i s.latch.ops :: s.unobserved.map (.succeededBy i s.latch.ops)
    draw := if dutyBroken i s then s.draw + 1 else s.draw }

/-! ### The memory duty after a completion -/

/-- The access touches one of the regions. -/
def Footprint.touchedBy (f : Footprint) (access : Region) : Bool := f.all.any access.overlaps

/-- The access touches one of the regions of a completed, unobserved command. -/
def Launch.touchedBy (l : Launch) (access : Region) : Bool := (footprint l.instr l.ops).touchedBy access

/-- The free bytes of the write region of a completed, unobserved command, but for what later commands wrote there. -/
def Launch.freeCells (l : Launch) (draw memBytes : Nat) : List Host.Cell :=
  (Machine.freeCells draw memBytes (footprint l.instr l.ops).write).filter fun c => !l.rewritten.any (·.covers c.1)

/-- `RCODE` is still the one this command completed with: it was the last completed command, and none is running (R35, R55). -/
def State.rcodeIsOf (s : State) (l : Launch) : Bool := l.lastSucceeded && !s.status.busy && s.status.ecode == .ok

/-- The duty of R86 broken for a command that has completed and is not yet observed: what it wrote and no later write has
replaced takes any value, in its write region, in `RESULT` or `SCALE` and in `RCODE` (log 6). -/
def breakDuty (s : State) (l : Launch) : State :=
  { s with
    mem := writeCells s.mem (l.freeCells s.draw s.params.memBytes)
    result := if l.instr = .locate ∧ l.registerKept then freeResult s.draw else s.result
    ops := { s.ops with scale := if l.instr = .ldscale ∧ l.registerKept then Config.freeWord s.draw else s.ops.scale }
    status := { s.status with rcode := if s.rcodeIsOf l then Config.freeFlag s.draw else s.status.rcode }
    draw := s.draw + 1 }

/-- The completed, unobserved commands one of whose regions an access touches. -/
def touchedLaunches (s : State) (access : Region) : List Launch := s.unobserved.filter (·.touchedBy access)

/-- A write by any agent breaks the duty of every completed, unobserved command whose regions it touches (R86). -/
def breakTouched (s : State) (access : Region) : State := (touchedLaunches s access).foldl breakDuty s

/-- The engine is an agent too (R16, R86): the write region of the command that is about to succeed breaks the duty of the
earlier, unobserved commands it touches (log 6). -/
def breakEarlier (i : Instr) (s : State) : State :=
  match (footprint i s.latch.ops).write with
  | none => s
  | some q => breakTouched s q

/-- The state a successful command completes in (R56): first the duties its writes break, then its own effect, which the
command computes from memory as that leaves it. -/
def succeededState (i : Instr) (s : State) (e : Operands → Memory → Effect) : State :=
  let b := breakEarlier i s
  completeOk i b (effectDue i b (e s.latch.ops b.mem))

/-- The engine's one step for a command (R56): the checks in the order of R222, then `Execute`'s effect `e`. A command whose
checks pass and one of whose regions covers the block's own window is refused (R82, log 12). -/
def complete (i : Instr) (s : State) (e : Operands → Memory → Effect) : Result :=
  match checkCode i s.params.memBytes s.latch.ops with
  | .ok =>
    if (footprint i s.latch.ops).coversWindow s.params then .refused .regionCoversWindow
    else .next (succeededState i s e)
  | code => .next (completeError s code)

/-! ### The host's memory accesses -/

/-- The regions of the running command (R81, R86), if it is a command whose dimension checks pass. -/
def runningFootprint (s : State) : Footprint :=
  if s.status.busy then
    match decodeWord s.latch.cmd with
    | .ok i => if dimensionOk i s.latch.ops then footprint i s.latch.ops else { reads := [], write := none }
    | .error _ => { reads := [], write := none }
  else { reads := [], write := none }

/-- The number of bytes of an access. -/
def widthBytes (w : Width) : Nat :=
  match w with
  | .byte => 1
  | .half => 2
  | .word => 4

/-- A host write of memory (R16, R115), and what it does to the duty of R86: it breaks that of the running command and those
of the completed, unobserved commands whose regions it touches. -/
def hostWriteMem (s : State) (a : Nat) (w : Width) (v : Word) : State :=
  let access : Region := ⟨a, widthBytes w⟩
  breakTouched
    { s with mem := writeCells s.mem (cellsOfWord a (widthBytes w) v)
             breached := s.breached || (runningFootprint s).touchedBy access } access

/-- The byte a host read of memory returns: any value inside a running command's write region (R87). -/
def hostByte (s : State) (a : Nat) : Byte :=
  if (runningFootprint s).write.any (·.covers a) then Config.freeByte s.draw a else readByte s.mem a

/-- The little-endian value of `n` bytes, zero-extended to a word. -/
def loadBytes (n : Nat) (f : Nat → Byte) : Word :=
  wordOfBytes (f 0) (if 1 < n then f 1 else 0#8) (if 2 < n then f 2 else 0#8) (if 3 < n then f 3 else 0#8)

/-- A host read of memory (R16, R87, R115): the value goes to the bus, zero-extended (log 9). -/
def hostReadMem (s : State) (a : Nat) (w : Width) : State :=
  let n := widthBytes w
  { s with
    busData := loadBytes n fun k => hostByte s (a + k)
    draw := if (runningFootprint s).write.any (·.overlaps ⟨a, n⟩) then s.draw + 1 else s.draw }

/-! ### The host's bus -/

/-- Where a bus access goes (R59; log 10). -/
inductive Target where
  /-- a 32-bit access at a multiple of 4 of the window (R48) -/
  | register (off : Nat)
  /-- an access that touches the window in any other way (R48, U9) -/
  | badShape
  /-- system memory -/
  | memory
  /-- neither -/
  | nowhere
  deriving DecidableEq, Repr

/-- The target of an access of `w` at bus address `a`. -/
def route (p : Params) (a : Nat) (w : Width) : Target :=
  if Region.overlaps ⟨a, widthBytes w⟩ ⟨p.regBase, 256⟩ then
    if w = .word ∧ p.regBase ≤ a ∧ (a - p.regBase) % 4 = 0 then .register (a - p.regBase) else .badShape
  else if a + widthBytes w ≤ p.memBytes then .memory
  else .nowhere

/-- The reset of the block, as the reset input is asserted and as it is released (R260 to R263): the state of R60 with the same
parameters; memory is unchanged but for the write region of an abandoned command, whose bytes take any value (R263, log 8).
The model's own `agenda`, `busData` and `draw` are the outside world's and stay. -/
def resetStep (s : State) (asserted : Bool) : State :=
  { State.resetWith s.params with
    mem := writeCells s.mem (freeCells s.draw s.params.memBytes (runningFootprint s).write)
    resetHeld := asserted
    agenda := s.agenda
    busData := s.busData
    draw := if s.status.busy then s.draw + 1 else s.draw }

/-- The reset input takes a level (R260): the level it already has when released is no event. -/
def resetInput (s : State) (asserted : Bool) : State := if asserted || s.resetHeld then resetStep s asserted else s

/-- One step of the host (R16). -/
def hostStep (h : HostStep) (s : State) : Result :=
  match h with
  | .read a w =>
    match route s.params a w with
    | .register off => .next (hostReadReg s off)
    | .badShape => .refused .windowAccessShape
    | .memory => .next (hostReadMem s a w)
    | .nowhere => .fault .noSuchAddress
  | .write a w v =>
    match route s.params a w with
    | .register off => .next (hostWriteReg s off v)
    | .badShape => .refused .windowAccessShape
    | .memory => .next (hostWriteMem s a w v)
    | .nowhere => .fault .noSuchAddress
  | .reset asserted => .next (resetInput s asserted)

end Sys2Proof.Machine
end

