-- ==== Sys2Proof/Machine/Codec.lean ====
section
/-! DEFINITION. The codec commands (spec/40_codec.md): NOP, LOCATE, UNPACK, LDSCALE. Each meaning is the completion step of
spec/10_state.md rule R56 applied to the effect the command's own rule gives. -/

namespace Sys2Proof.Machine

/-- `NOP` has no effect (R132). -/
def effectNop (_ : Operands) (_ : Memory) : Effect := { rc := false, writes := [], result := none, scale := none }

/-- NOP (R132). -/
def execNop (s : State) : Result := complete .nop s effectNop

/-- The code LOCATE reads (R135). -/
def locateCode (o : Operands) (m : Memory) : Code := codeAt m o.pa o.idx

/-- `RESULT <- zext_32(k)`, `rc <- (k = 3)` (R135). -/
def effectLocate (o : Operands) (m : Memory) : Effect :=
  let k := locateCode o m
  { rc := k == 3#2, writes := [], result := some (0#30 ++ k), scale := none }

/-- LOCATE (R135). -/
def execLocate (s : State) : Result := complete .locate s effectLocate

/-- The raw code of block offset `j` of block `INDEX` (R140). -/
def unpackCode (o : Operands) (m : Memory) (j : Nat) : Code :=
  codeIn (readByte m (o.pa + 32 * o.idx + j % 32)) (j / 32)

/-- Byte `j` of the output is the raw code of block offset `j`; `rc` when any of the 128 codes is `11` (R140). -/
def effectUnpack (o : Operands) (m : Memory) : Effect :=
  { rc := (List.range 128).any fun j => unpackCode o m j == 3#2
    writes := (List.range 128).map fun j => (o.da + j, 0#6 ++ unpackCode o m j)
    result := none
    scale := none }

/-- UNPACK (R140). -/
def execUnpack (s : State) : Result := complete .unpack s effectUnpack

/-- The trailing scale, little-endian, at whatever byte address it falls on (R71, R75, R109, R150). -/
def trailingScale (o : Operands) (m : Memory) : Word := readWord m (o.pa + packedBytes o.elems)

/-- `SCALE <- MemRead(PA + o, 4)` (R150). -/
def effectLdscale (o : Operands) (m : Memory) : Effect :=
  { rc := false, writes := [], result := none, scale := some (trailingScale o m) }

/-- LDSCALE (R150). -/
def execLdscale (s : State) : Result := complete .ldscale s effectLdscale

end Sys2Proof.Machine
end

