-- ==== Sys2Proof/Machine/Float32.lean ====
section
/-! DEFINITION. The binary32 primitives of spec/00_scope.md rule R12: IEEE 754 sum, product, quotient and integer
conversion, each computed exactly and rounded once to nearest, ties to even, subnormals honoured, every NaN result the
canonical one (log 17). A finite pattern is read as a whole number of units of 2^-149, the smallest subnormal. -/

namespace Sys2Proof.Machine

/-- The canonical NaN (R12). -/
def canonicalNaN : Word := 0x7FC00000#32

/-- The sign bit of a pattern. -/
def fSign (x : Word) : Bool := x.msb

/-- The biased exponent field of a pattern. -/
def fExp (x : Word) : Nat := (x.extractLsb' 23 8).toNat

/-- The fraction field of a pattern. -/
def fFrac (x : Word) : Nat := (x.extractLsb' 0 23).toNat

/-- The pattern is a NaN. -/
def isNaN (x : Word) : Bool := fExp x == 255 && fFrac x != 0

/-- The pattern is an infinity. -/
def isInf (x : Word) : Bool := fExp x == 255 && fFrac x == 0

/-- The pattern is finite. -/
def isFinite (x : Word) : Bool := fExp x != 255

/-- `feq0` (R12): the pattern is +0.0 or -0.0. -/
def feq0 (x : Word) : Bool := fExp x == 0 && fFrac x == 0

/-- The magnitude of a finite pattern in units of 2^-149. -/
def fMag (x : Word) : Nat :=
  if fExp x = 0 then fFrac x else (2 ^ 23 + fFrac x) * 2 ^ (fExp x - 1)

/-- `f32` (R12) of a finite pattern: its value in units of 2^-149. -/
def fVal (x : Word) : Int := if fSign x then -(fMag x : Int) else (fMag x : Int)

/-- A pattern from a sign and the 31 bits below it. -/
def fPack (sign : Bool) (low : Nat) : Word := BitVec.ofNat 32 ((if sign then 2 ^ 31 else 0) + low)

/-- An infinity. -/
def fInf (sign : Bool) : Word := fPack sign 0x7F800000

/-- The quotient of two natural numbers rounded to nearest, ties to even. -/
def roundDiv (num den : Nat) : Nat :=
  let q := num / den
  let r := num % den
  if 2 * r < den then q else if den < 2 * r then q + 1 else q + q % 2

/-- The low 31 bits of the binary32 nearest to `num / den` units of 2^-149, ties to even; infinity on overflow. The unit in
the last place is `2 ^ sh` units: 24 significant bits, and never less than one unit (a subnormal). -/
def roundMag (num den : Nat) : Nat :=
  let sh := Nat.log2 (num / den) - 23
  min (sh * 2 ^ 23 + roundDiv num (den * 2 ^ sh)) 0x7F800000

/-- A sign and an exact magnitude `num / den` (in units of 2^-149), rounded once. -/
def roundFloat (sign : Bool) (num den : Nat) : Word := fPack sign (roundMag num den)

/-- `fadd` (R12). An exact zero sum is +0.0 but for (-0.0) + (-0.0). -/
def fadd (a b : Word) : Word :=
  if isNaN a || isNaN b then canonicalNaN
  else if isInf a then (if isInf b && fSign a != fSign b then canonicalNaN else a)
  else if isInf b then b
  else
    let v := fVal a + fVal b
    if v = 0 then fPack (fSign a && fSign b) 0
    else roundFloat (decide (v < 0)) v.natAbs 1

/-- `fmul` (R12). -/
def fmul (a b : Word) : Word :=
  let sign := fSign a != fSign b
  if isNaN a || isNaN b then canonicalNaN
  else if isInf a || isInf b then (if feq0 a || feq0 b then canonicalNaN else fInf sign)
  else roundFloat sign (fMag a * fMag b) (2 ^ 149)

/-- `fdiv` (R12). A finite number by zero is an infinity; 0/0 and Inf/Inf are NaN. -/
def fdiv (a b : Word) : Word :=
  let sign := fSign a != fSign b
  if isNaN a || isNaN b then canonicalNaN
  else if isInf a then (if isInf b then canonicalNaN else fInf sign)
  else if isInf b then fPack sign 0
  else if feq0 b then (if feq0 a then canonicalNaN else fInf sign)
  else roundFloat sign (fMag a * 2 ^ 149) (fMag b)

/-- `i2f` (R12): an integer to binary32. -/
def i2f (i : Int) : Word := roundFloat (decide (i < 0)) (i.natAbs * 2 ^ 149) 1

end Sys2Proof.Machine
end

