-- ==== Sys2Proof/Machine/FloatMatvec.lean ====
section
/-! DEFINITION. The float matrix-vector commands (spec/41_float_matvec.md): MATVEC and MATVEC_T, in their canonical
summation orders. -/

namespace Sys2Proof.Machine

/-- `contrib(k, x) = fmul(map(k), x)` (R161). -/
def contrib (k : Code) (x : Word) : Word := fmul (codeMap k) x

/-- `acc <- fadd(acc, contrib(code j, x j))` for `j` from 0 to `n-1`, starting at +0.0 (R162, R170). -/
def floatSum (n : Nat) (code : Nat → Code) (x : Nat → Word) : Word :=
  (List.range n).foldl (fun acc j => fadd acc (contrib (code j) (x j))) 0#32

/-- `xs[c] = fmul(s, vec[c])`, the scaled input (R162). -/
def scaledElem (o : Operands) (m : Memory) (c : Nat) : Word := fmul o.scale (vecElem m o.sa c)

/-- `dst[r]` of MATVEC: ascending `c` (R162). -/
def matvecElem (o : Operands) (m : Memory) (r : Nat) : Word :=
  floatSum o.colsN (fun c => codeAt m o.pa (r + o.rowsN * c)) (scaledElem o m)

/-- The effect of MATVEC (R162). -/
def effectMatvec (o : Operands) (m : Memory) : Effect :=
  { rc := usesReserved m o, writes := dstCells o.da o.rowsN (matvecElem o m), result := none, scale := none }

/-- MATVEC (R162). -/
def execMatvec (s : State) : Result := complete .matvec s effectMatvec

/-- `dst[c]` of MATVEC_T: ascending `r`, the scale applied once to the finished sum (R170). -/
def matvecTElem (o : Operands) (m : Memory) (c : Nat) : Word :=
  fmul o.scale (floatSum o.rowsN (fun r => codeAt m o.pa (r + o.rowsN * c)) (vecElem m o.sa))

/-- The effect of MATVEC_T (R170). -/
def effectMatvecT (o : Operands) (m : Memory) : Effect :=
  { rc := usesReserved m o, writes := dstCells o.da o.colsN (matvecTElem o m), result := none, scale := none }

/-- MATVEC_T (R170). -/
def execMatvecT (s : State) : Result := complete .matvecT s effectMatvecT

end Sys2Proof.Machine
end

