-- ==== Sys2Proof/Machine/FusedI8.lean ====
section
/-! DEFINITION. The fused int8-activation commands (spec/42_fused_i8.md): MATVEC_I8 (one output per column) and MATVEC_T_I8
(one output per row). -/

namespace Sys2Proof.Machine

/-- `wrap32` (R9): the integer in `-2^31 .. 2^31-1` congruent to `i` modulo `2^32`. -/
def wrap32 (i : Int) : Int := i.bmod (2 ^ 32)

/-- The output scale factor `f` (R191, R192). -/
def scaleFactor (ws as : Word) : Word := if feq0 as then 0#32 else fdiv ws as

/-- `S <- wrap32(S + k*q)` for `j` from 0 to `n-1`, starting at 0, over the raw codes (R193). -/
def intSum (n : Nat) (code : Nat → Code) (q : Nat → Int) : Int :=
  (List.range n).foldl (fun acc j => wrap32 (acc + (code j).toNat * q j)) 0

/-- `D <- wrap32(S - s32(L.ACT_SUM))`, then `fmul(i2f(D), f)` (R194). -/
def rescale (o : Operands) (sum : Int) : Word :=
  fmul (i2f (wrap32 (sum - o.actSum.toInt))) (scaleFactor o.scale o.actScale)

/-- `dst[c]` of MATVEC_I8 (R198). -/
def matvecI8Elem (o : Operands) (m : Memory) (c : Nat) : Word :=
  rescale o (intSum o.rowsN (fun r => codeAt m o.pa (r + o.rowsN * c)) (qvecElem m o.sa))

/-- The effect of MATVEC_I8 (R198). -/
def effectMatvecI8 (o : Operands) (m : Memory) : Effect :=
  { rc := usesReserved m o, writes := dstCells o.da o.colsN (matvecI8Elem o m), result := none, scale := none }

/-- MATVEC_I8 (R198). -/
def execMatvecI8 (s : State) : Result := complete .matvecI8 s effectMatvecI8

/-- `dst[r]` of MATVEC_T_I8 (R205). -/
def matvecTI8Elem (o : Operands) (m : Memory) (r : Nat) : Word :=
  rescale o (intSum o.colsN (fun c => codeAt m o.pa (r + o.rowsN * c)) (qvecElem m o.sa))

/-- The effect of MATVEC_T_I8 (R205). -/
def effectMatvecTI8 (o : Operands) (m : Memory) : Effect :=
  { rc := usesReserved m o, writes := dstCells o.da o.rowsN (matvecTI8Elem o m), result := none, scale := none }

/-- MATVEC_T_I8 (R205). -/
def execMatvecTI8 (s : State) : Result := complete .matvecTI8 s effectMatvecTI8

end Sys2Proof.Machine
end

