-- ==== Sys2Proof/Machine/Dispatch.lean ====
section
/-! DEFINITION. One arm per command (spec/30_encoding.md rule R101). -/

namespace Sys2Proof.Machine

/-- The completion step of the command `i` (spec/10_state.md rule R56). -/
def exec (i : Instr) (s : State) : Host.Outcome State Fault Refusal :=
  match i with
  | .nop => Sys2Proof.Machine.execNop s
  | .locate => Sys2Proof.Machine.execLocate s
  | .unpack => Sys2Proof.Machine.execUnpack s
  | .ldscale => Sys2Proof.Machine.execLdscale s
  | .matvec => Sys2Proof.Machine.execMatvec s
  | .matvecT => Sys2Proof.Machine.execMatvecT s
  | .matvecI8 => Sys2Proof.Machine.execMatvecI8 s
  | .matvecTI8 => Sys2Proof.Machine.execMatvecTI8 s

end Sys2Proof.Machine
end

