-- ==== Sys2Proof/Machine/Step.lean ====
section
/-! DEFINITION. One step of the machine: the interleaving of the host and the engine (spec/00_scope.md rule R16,
spec/20_memory.md rule R85), and how the host lays an instruction where the engine takes it from. -/

namespace Sys2Proof.Machine

/-- The engine's step on the command it latched (R56): the command, or `ILLEGAL_CMD` when the latched word is none (R103,
R223). -/
def engineStep (s : State) : Host.Outcome State Fault Refusal :=
  match decodeWord s.latch.cmd with
  | .ok i => exec i s
  | .error _ => .next (completeError s .illegalCmd)

/-- The engine's turn: it has a step only while `BUSY = 1` (R16, R51); an idle engine does nothing (R245), and neither does
one held in reset (R260). -/
def engineTurn (s : State) : Host.Outcome State Fault Refusal :=
  if s.status.busy && !s.resetHeld then engineStep s else .next s

/-- One step: the next event of the agenda; with none left, the engine's turn (R272, log 1). -/
def step (s : State) : Host.Outcome State Fault Refusal :=
  match s.agenda with
  | [] => engineTurn s
  | .engine :: rest => engineTurn { s with agenda := rest }
  | .host h :: rest => hostStep h { s with agenda := rest }

/-- `s` with reset released, the command word of `nbits` bits `w` accepted (R55) and the engine's turn next, so that the
next step runs exactly it (log 13). -/
def State.withFetchWord (s : State) (nbits w : Nat) : State :=
  { accept s (tableWord nbits w) with resetHeld := false, agenda := .engine :: s.agenda }

end Sys2Proof.Machine
end

