-- ==== Sys2Proof/Machine/HostProgram.lean ====
section
/-! DEFINITION. The host-program notation of spec/30_encoding.md rules R115 and R116 as events. -/

namespace Sys2Proof.Machine

/-- `WR <REG>, <value>` (R115). -/
def wr (p : Params) (r : Reg) (v : Word) : List Event := [.host (.write (p.regBase + regOffset r) .word v)]

/-- `RD <REG>` (R115). -/
def rd (p : Params) (r : Reg) : List Event := [.host (.read (p.regBase + regOffset r) .word)]

/-- `MW8 <addr>, <b0>, <b1>, ...` (R115). -/
def mw8 (a : Nat) (bytes : List Byte) : List Event :=
  (List.range bytes.length).map fun k => .host (.write (a + k) .byte ((bytes.getD k 0#8).setWidth 32))

/-- `MW32 <addr>, <w0>, <w1>, ...` (R115). -/
def mw32 (a : Nat) (words : List Word) : List Event :=
  (List.range words.length).map fun k => .host (.write (a + 4 * k) .word (words.getD k 0#32))

/-- `MR32 <addr>` (R115). -/
def mr32 (a : Nat) : List Event := [.host (.read a .word)]

/-- `CMD <mnemonic>` (R116). -/
def cmdEvent (p : Params) (i : Instr) : List Event := wr p .cmd (encode i)

/-- `WAIT` (R116) as one run of it: some reads of `STATUS` before the engine's completion step, then the read that sees
`BUSY = 0`. -/
def waitEvents (p : Params) (polls : Nat) : List Event :=
  (List.replicate polls (rd p .status)).flatten ++ [.engine] ++ rd p .status

/-- `ACK` (R116). -/
def ack (p : Params) : List Event := wr p .status 0x00000012#32

/-- `RUN <mnemonic>` (R116), the engine completing after `polls` reads. -/
def runEvents (p : Params) (i : Instr) (polls : Nat) : List Event := cmdEvent p i ++ waitEvents p polls

end Sys2Proof.Machine
end

