-- ==== Sys2Proof/Safety.lean ====
section
/-! DEFINITION. What counts as a safe run: the invariant of the machine's states, and the outcomes that do not stop. -/

namespace Sys2Proof.Machine

/-- The invariant every step keeps. -/
structure State.Inv (s : State) : Prop where
  /-- Memory is in its canonical form. -/
  memCanonical : s.mem.wf = true
  /-- Memory lists only addresses below `MEM_BYTES` (R59, R70). -/
  memInside : ∀ c ∈ s.mem, c.1 < s.params.memBytes
  /-- Bits 31:2 of `RESULT` are 0 (R46). -/
  resultIsCode : s.result.toNat < 4
  /-- While `BUSY = 1`: `DONE = 0`, `RCODE = 0`, `ECODE = 0` (R35). -/
  busyClean : s.status.busy = true → s.status.done = false ∧ s.status.rcode = false ∧ s.status.ecode = .ok
  /-- `RCODE` is set only by a success (R56). -/
  rcodeOnSuccess : s.status.rcode = true → s.status.ecode = .ok
  /-- While reset is asserted the block holds its reset values (R260). -/
  heldAtReset : s.resetHeld = true → s.ie = false ∧ s.status = Status.reset ∧ s.ops = Operands.reset ∧ s.result = 0#32 ∧
    s.latch = Latch.reset ∧ s.unobserved = []
  /-- The duty of R86 is recorded as broken only for a running command. -/
  breachWhileBusy : s.breached = true → s.status.busy = true

/-- The step does not stop the machine. -/
def goesOn (r : Result) : Prop := ∃ t, r = .next t

/-- `n` steps without a stop. -/
def safeRun (s : State) (n : Nat) : Prop := ∃ t, Sys2Proof.core.run n s = .next t

end Sys2Proof.Machine
end

