-- ==== Sys2Proof/Certificates/Slice0/Obligations.lean ====
section
/-! DEFINITION. The statements for the provers, each from numbered rules of spec/. `Sys2Proof.Expect` writes the rules'
own formulas out again, without the model's operand functions. -/

namespace Sys2Proof.Expect

open Sys2Proof Sys2Proof.Machine

/-- The completion step with an error code: `BUSY <- 0`, `DONE <- 1`, `ECODE <- code`, `RCODE <- 0`, nothing else of the
block (R56, R228); the model's own record of a broken duty ends with the command (log 5). -/
def failed (s : State) (code : ECode) : State :=
  { s with status := { busy := false, done := true, rcode := false, ovr := s.status.ovr, ecode := code }, breached := false }

/-- The completion step with code 0, before the command's own writes (R56). The model's own record of unobserved commands
grows by it, and what it writes no longer counts as written by an earlier one (log 6). -/
def succeeded (i : Instr) (s : State) (rc : Bool) : State :=
  { s with
    status := { busy := false, done := true, rcode := rc, ovr := s.status.ovr, ecode := .ok }
    breached := false
    unobserved :=
      { instr := i, ops := s.latch.ops, rewritten := [], registerKept := true, lastSucceeded := true } ::
        s.unobserved.map fun l =>
          { l with rewritten := (footprint i s.latch.ops).write.toList ++ l.rewritten
                   registerKept := l.registerKept && l.instr != i
                   lastSucceeded := false } }

/-- `(b >> (6 - 2*g)) & 3` (R107). -/
def codeBits (b : Byte) (g : Nat) : Nat := b.toNat / 2 ^ (6 - 2 * g) % 4

/-- `code_at(P, idx)` as a number 0..3, with the byte at `PA + 32*(idx div 128) + (idx mod 32)` (R106, R107). -/
def code (s : State) (idx : Nat) : Nat :=
  codeBits (readByte s.mem (s.latch.ops.packedAddr.toNat + (32 * (idx / 128) + idx % 32))) (idx % 128 / 32)

/-- `map(k)` (R105). -/
def mapBits (k : Nat) : Word := if k = 0 then 0xBF800000#32 else if k = 2 then 0x3F800000#32 else 0x00000000#32

/-- `PACKED_BYTES(N)` (R108). -/
def packedLen (n : Nat) : Nat := 32 * ((n + 127) / 128)

/-- `rows = s32(L.ROWS)` (R112). -/
def rows (s : State) : Int := s.latch.ops.rows.toInt

/-- `cols = s32(L.COLS)` (R112). -/
def cols (s : State) : Int := s.latch.ops.cols.toInt

/-- `N = rows * cols` (R108). -/
def count (s : State) : Nat := (rows s * cols s).toNat

/-- `PA`, `SA`, `DA` (R81). -/
def pa (s : State) : Nat := s.latch.ops.packedAddr.toNat
def sa (s : State) : Nat := s.latch.ops.srcAddr.toNat
def da (s : State) : Nat := s.latch.ops.dstAddr.toNat

/-- `vec` element `k` (R113). -/
def vec (s : State) (k : Nat) : Word := readWord s.mem (sa s + 4 * k)

/-- `qvec` element `k`, an int8 (R113). -/
def qvec (s : State) (k : Nat) : Int := (readByte s.mem (sa s + k)).toInt

/-- The region `[a, n)` covers no byte of the block's register window (R82). -/
abbrev clear (s : State) (a n : Nat) : Prop := a + n ≤ s.params.regBase ∨ s.params.regBase + 256 ≤ a

/-- `overlaps([a, n), [b, m))` (R227). -/
abbrev overlap (a n b m : Nat) : Prop := a < b + m ∧ b < a + n

/-- The bytes `[a, n)` meet a read or write region of a command that has completed unobserved (R86, log 6). -/
abbrev touches (l : Launch) (a n : Nat) : Prop :=
  ∃ q ∈ (footprint l.instr l.ops).write.toList ++ (footprint l.instr l.ops).reads, overlap a n q.start q.len

/-- No completed, unobserved command has a region that meets the bytes `[a, n)` (R86, log 6). -/
abbrev unobservedClear (s : State) (a n : Nat) : Prop := ∀ l ∈ s.unobserved, ¬ touches l a n

/-- The byte lies in the command's write region, and no later command has written it (R86, log 6). -/
abbrev standing (l : Launch) (a : Nat) : Prop :=
  (∃ q ∈ (footprint l.instr l.ops).write.toList, q.covers a = true) ∧ ∀ r ∈ l.rewritten, r.covers a = false

/-- The write region of the command `i` meets a region of this completed, unobserved command: a breach of R86 by the engine,
an agent too (R16, log 6). -/
abbrev broken (i : Instr) (s : State) (l : Launch) : Prop :=
  l ∈ s.unobserved ∧ ∃ q ∈ (footprint i s.latch.ops).write.toList, touches l q.start q.len

/-- What the command `i` reads is not what an earlier command wrote whose duty it breaks. -/
abbrev readsStand (i : Instr) (s : State) : Prop :=
  ∀ l, broken i s l → ∀ r ∈ (footprint i s.latch.ops).reads, ∀ a, r.covers a = true → ¬ standing l a

/-- The next event is the engine's turn. -/
def engineNext (s : State) : Prop := s.agenda = [] ∨ ∃ rest, s.agenda = .engine :: rest

/-- The step is the completion of the running command (R56). -/
def completion (s t : State) : Prop :=
  engineNext s ∧ s.status.busy = true ∧ t.status.busy = false ∧ t.status.done = true

/-- The step is the acceptance of a command (R55). -/
def acceptance (s t : State) : Prop :=
  s.status.busy = false ∧ t.status.busy = true ∧
    ∃ v rest, s.agenda = .host (.write (s.params.regBase + 0x0C) .word v) :: rest ∧ t.latch.cmd = v ∧ t.latch.ops = s.ops

/-- The next event asserts the reset input or releases it from reset (R260). -/
def resetEvent (s : State) : Prop :=
  ∃ level rest, s.agenda = .host (.reset level) :: rest ∧ (level = true ∨ s.resetHeld = true)

/-- The infinity that is negative or not. -/
def infinity (negative : Bool) : Word := if negative then 0xFF800000#32 else 0x7F800000#32

/-- The zero that is negative or not. -/
def zero (negative : Bool) : Word := if negative then 0x80000000#32 else 0x00000000#32

/-- Some used index of the matrix holds the reserved code (R146). -/
def reservedUsed (s : State) : Prop := ∃ idx, idx < count s ∧ code s idx = 3

/-- The dimension and length checks of a matvec command with `dst` elements out and `src` in (R224). -/
abbrev dimsHold (s : State) (dst src : Int) : Prop :=
  0 < rows s ∧ 0 < cols s ∧ (s.latch.ops.dstLen.toNat : Int) = dst ∧ (s.latch.ops.srcLen.toNat : Int) = src ∧
    packedLen (count s) ≤ s.latch.ops.packedLen.toNat

/-- The regions of a matvec command, `srcBytes` read at `SA` and `4*dst` written at `DA`, lie inside memory (R226). -/
abbrev inMemory (s : State) (srcBytes dst : Nat) : Prop :=
  pa s + packedLen (count s) ≤ s.params.memBytes ∧ sa s + srcBytes ≤ s.params.memBytes ∧ da s + 4 * dst ≤ s.params.memBytes

/-- The write region of a matvec command overlaps a read region (R227). -/
abbrev selfOverlap (s : State) (srcBytes dst : Nat) : Prop :=
  overlap (da s) (4 * dst) (pa s) (packedLen (count s)) ∨ overlap (da s) (4 * dst) (sa s) srcBytes

/-- No region of a matvec command covers the window (R82). -/
abbrev allClear (s : State) (srcBytes dst : Nat) : Prop :=
  clear s (pa s) (packedLen (count s)) ∧ clear s (sa s) srcBytes ∧ clear s (da s) (4 * dst)

/-- What the rule of a matvec command says of every state: the checks in the order of R222, and on success `dst` elements
given by `elem`, `RCODE` by R146, every byte outside `dst` and everything else unchanged. The duty of R86 is kept for it and
for the earlier commands (log 6), memory is in its canonical form (an invariant of the model), and no region covers the
window. -/
def matvecRule (i : Instr) (dst src : State → Int) (srcBytes : State → Nat) (aligned : State → Prop)
    (elem : State → Nat → Word) : Prop :=
  ∀ s : State,
    (¬ dimsHold s (dst s) (src s) → exec i s = .next (failed s .invalidDimension)) ∧
    (dimsHold s (dst s) (src s) → ¬ aligned s → exec i s = .next (failed s .misaligned)) ∧
    (dimsHold s (dst s) (src s) → aligned s → ¬ inMemory s (srcBytes s) (dst s).toNat →
      exec i s = .next (failed s .accessFault)) ∧
    (dimsHold s (dst s) (src s) → aligned s → inMemory s (srcBytes s) (dst s).toNat →
      selfOverlap s (srcBytes s) (dst s).toNat → exec i s = .next (failed s .overlap)) ∧
    (dimsHold s (dst s) (src s) → aligned s → inMemory s (srcBytes s) (dst s).toNat →
      ¬ selfOverlap s (srcBytes s) (dst s).toNat → allClear s (srcBytes s) (dst s).toNat →
      s.breached = false → unobservedClear s (da s) (4 * (dst s).toNat) → s.mem.wf = true →
      ∃ t, exec i s = .next t ∧ t = { succeeded i s t.status.rcode with mem := t.mem } ∧
        (t.status.rcode = true ↔ reservedUsed s) ∧
        (∀ k, k < (dst s).toNat → readWord t.mem (da s + 4 * k) = elem s k) ∧
        (∀ a, a < da s ∨ da s + 4 * (dst s).toNat ≤ a → readByte t.mem a = readByte s.mem a))

/-- The scale factor `f` (R191). -/
def factor (s : State) : Word :=
  if feq0 s.latch.ops.actScale then 0x00000000#32 else fdiv s.latch.ops.scale s.latch.ops.actScale

/-- The unique `j` in `-2^31 .. 2^31-1` congruent to `i` modulo `2^32` (R9). -/
def wrapped (i : Int) : Int := (i + 2 ^ 31) % 2 ^ 32 - 2 ^ 31

/-- `D`, then `fmul(i2f(D), f)` (R194), for a sum over `n` terms `k*q` kept as a wrapping integer (R193). -/
def fused (s : State) (n : Nat) (k : Nat → Nat) : Word :=
  let sum := (List.range n).foldl (fun (acc : Int) j => wrapped (acc + k j * qvec s j)) 0
  fmul (i2f (wrapped (sum - s.latch.ops.actSum.toInt))) (factor s)

/-- The twelve operand registers (R38 to R45). -/
def operandRegs : List Reg :=
  [.rows, .cols, .packedAddr, .packedLen, .srcAddr, .srcLen, .dstAddr, .dstLen, .scale, .actScale, .actSum, .index]

/-- The opcode map (R101). -/
def opcodeMap : List (Word × Instr) :=
  [(0x00000000#32, .nop), (0x00000001#32, .locate), (0x00000002#32, .unpack), (0x00000003#32, .ldscale),
   (0x00000010#32, .matvec), (0x00000011#32, .matvecT), (0x00000012#32, .matvecI8), (0x00000013#32, .matvecTI8)]

/-- The register map (R32). -/
def registerMap : List (Nat × Reg) :=
  [(0x00, .id), (0x04, .ctrl), (0x08, .status), (0x0C, .cmd), (0x10, .rows), (0x14, .cols), (0x18, .packedAddr),
   (0x1C, .packedLen), (0x20, .srcAddr), (0x24, .srcLen), (0x28, .dstAddr), (0x2C, .dstLen), (0x30, .scale),
   (0x34, .actScale), (0x38, .actSum), (0x3C, .index), (0x40, .result)]

/-- The memory bytes of every region agree in two states. -/
def agreeOn (rs : List Region) (s s' : State) : Prop :=
  ∀ r ∈ rs, ∀ a, r.covers a = true → readByte s.mem a = readByte s'.mem a

end Sys2Proof.Expect

open Sys2Proof Sys2Proof.Machine

/-! ### The command word -/

/-- R101: a command word selects a command exactly when it equals the "word" column. -/
def Obligations.CommandWordSelectsItsCommand : Prop :=
  ∀ (w : Word) (i : Instr), decodeWord w = .ok i ↔ (w, i) ∈ Expect.opcodeMap

/-- R102, R103: a word with `RSV != 0` is illegal whatever its `OP`, and with `RSV = 0` an `OP` outside 0x00..0x03 and
0x10..0x13 is illegal. That the decoder gives the two kinds names, and the first one to a word that is both, is the model's
choice (log 16). -/
def Obligations.IllegalWordIsRejectedByName : Prop :=
  ∀ w : Word,
    (w.toNat / 256 ≠ 0 → decodeWord w = .error .reservedBits) ∧
    (w.toNat / 256 = 0 → (4 ≤ w.toNat ∧ w.toNat ≤ 0x0F ∨ 0x14 ≤ w.toNat ∧ w.toNat ≤ 0xFF) →
      decodeWord w = .error .unassignedOp)

/-- R223: a running command completes with `ILLEGAL_CMD` exactly when its latched word is not one of the eight words of R101;
and then nothing but the flags changes. -/
def Obligations.IllegalWordCompletesWithIllegalCmd : Prop :=
  ∀ s : State, s.status.busy = true → s.resetHeld = false →
    ((∀ i, (s.latch.cmd, i) ∉ Expect.opcodeMap) → engineTurn s = .next (Expect.failed s .illegalCmd)) ∧
    (∀ i t, (s.latch.cmd, i) ∈ Expect.opcodeMap → engineTurn s = .next t → t.status.ecode ≠ .illegalCmd)

/-- Every command's word is legal and decodes to it (R100, R101). -/
def Obligations.EncodedCommandDecodesBack : Prop :=
  ∀ i : Instr, i.wf = true ∧ decodeWord (encode i) = .ok i ∧ decodeTableWord 32 (encode i).toNat = some i

/-! ### The step -/

/-- One step runs the next event of the agenda: a host event is one host step, an engine event the engine's turn; with none
left the engine has its turn; an engine idle or held in reset does nothing (R16, R85, R245, R260; the agenda is the model's
form of the interleaving, log 1). -/
def Obligations.StepFollowsTheAgenda : Prop :=
  ∀ (s : State) (rest : List Event),
    (∀ h, s.agenda = .host h :: rest → step s = hostStep h { s with agenda := rest }) ∧
    (s.agenda = .engine :: rest → step s = engineTurn { s with agenda := rest }) ∧
    (s.agenda = [] → step s = engineTurn s) ∧
    (s.status.busy = false ∨ s.resetHeld = true → engineTurn s = .next s)

/-- When the latched word of a running command decodes to `i`, the engine's step is `exec i` at that state. -/
def Obligations.EngineStepRunsTheLatchedCommand : Prop :=
  ∀ (s : State) (i : Instr) (rest : List Event), s.status.busy = true → s.resetHeld = false →
    decodeWord s.latch.cmd = .ok i →
    (s.agenda = [] → step s = exec i s) ∧
    (s.agenda = .engine :: rest → step s = exec i { s with agenda := rest })

/-- A word laid where the machine takes its next command from is what the very next step runs, on the operands the registers
hold, with reset released (log 13). -/
def Obligations.FetchedWordRunsNext : Prop :=
  ∀ (s : State) (i : Instr),
    step (s.withFetchWord 32 (encode i).toNat) =
      exec i { s with latch := { cmd := encode i, ops := s.ops }, status := s.status.accepted, breached := false,
                      resetHeld := false }

/-- R272: with reset released and no host step left, one step completes the running command whatever its word, unless it is
refused for a region over the window (R82). -/
def Obligations.RunningCommandCompletes : Prop :=
  ∀ s : State, s.status.busy = true → s.resetHeld = false → Expect.engineNext s →
    step s = .refused .regionCoversWindow ∨ ∃ t, step s = .next t ∧ t.status.busy = false ∧ t.status.done = true

/-! ### The registers -/

/-- R32: a 32-bit host read at `REG_BASE` + offset of every register returns the register's value and changes nothing else; a
read of `STATUS` that shows `BUSY = 0` also ends the window of the memory duty (R86, log 6). -/
def Obligations.RegisterReadReturnsTheRegister : Prop :=
  ∀ (s : State) (off : Nat) (r : Reg), (off, r) ∈ Expect.registerMap →
    hostStep (.read (s.params.regBase + off) .word) s =
      .next { s with
        busData := (match r with
          | .id => s.params.implId
          | .ctrl => if s.ie then 1#32 else 0#32
          | .status => s.status.toWord
          | .cmd => 0#32
          | .rows => s.ops.rows
          | .cols => s.ops.cols
          | .packedAddr => s.ops.packedAddr
          | .packedLen => s.ops.packedLen
          | .srcAddr => s.ops.srcAddr
          | .srcLen => s.ops.srcLen
          | .dstAddr => s.ops.dstAddr
          | .dstLen => s.ops.dstLen
          | .scale => s.ops.scale
          | .actScale => s.ops.actScale
          | .actSum => s.ops.actSum
          | .index => s.ops.index
          | .result => s.result)
        unobserved := if r = .status ∧ s.status.busy = false then [] else s.unobserved }

/-- R33: reads of `ID` return `IMPL_ID`, host writes are ignored, and no command changes it. -/
def Obligations.IdReadsImplIdAndNeverChanges : Prop :=
  ∀ s : State,
    (∃ t, hostStep (.read s.params.regBase .word) s = .next t ∧ t.busData = s.params.implId) ∧
    (∀ v, hostStep (.write s.params.regBase .word v) s = .next s) ∧
    (∀ i t, exec i s = .next t → t.params.implId = s.params.implId)

/-- R34: with reset released, `CTRL` keeps bit 0 of what is written, at once and whether or not a command runs, and reads 0
in bits 31:1; the write changes nothing else. -/
def Obligations.CtrlKeepsOnlyBitZero : Prop :=
  ∀ (s : State) (v : Word), s.resetHeld = false → ∃ t,
    hostStep (.write (s.params.regBase + 0x04) .word v) s = .next t ∧ t = { s with ie := t.ie } ∧
    ∃ u, hostStep (.read (s.params.regBase + 0x04) .word) t = .next u ∧ u.busData = v &&& 1#32

/-- The bits of `STATUS` (R35): `BUSY` 0, `DONE` 1, `ERR` 2 equal to `ECODE != 0`, `RCODE` 3, `OVR` 4, `ECODE` 15:8 with the
numbers of R221, and 0 in bits 7:5 and 31:16. -/
def Obligations.StatusWordHasItsFields : Prop :=
  ∀ f : Status,
    f.toWord.getLsbD 0 = f.busy ∧ f.toWord.getLsbD 1 = f.done ∧ f.toWord.getLsbD 2 = decide (f.ecode ≠ .ok) ∧
    f.toWord.getLsbD 3 = f.rcode ∧ f.toWord.getLsbD 4 = f.ovr ∧
    f.toWord.extractLsb' 5 3 = 0#3 ∧ f.toWord.extractLsb' 16 16 = 0#16 ∧
    f.toWord.extractLsb' 8 8 =
      (match f.ecode with
        | .ok => 0#8 | .illegalCmd => 1#8 | .invalidDimension => 2#8
        | .misaligned => 3#8 | .accessFault => 4#8 | .overlap => 5#8)

/-- R36: with reset released, a host write of `v` to `STATUS` clears `DONE` if `v[1] = 1`, clears `OVR` if `v[4] = 1`,
ignores every other bit, never sets a bit, and changes nothing else. -/
def Obligations.StatusWriteOnlyClears : Prop :=
  ∀ (s : State) (v : Word), s.resetHeld = false →
    hostStep (.write (s.params.regBase + 0x08) .word v) s =
      .next { s with status := { s.status with
        done := if v.getLsbD 1 then false else s.status.done
        ovr := if v.getLsbD 4 then false else s.status.ovr } }

/-- R38 to R45: with reset released, each operand register keeps all 32 bits written, whether or not a command runs, and the
write changes no other register, no byte of memory, not the latch and no flag. A write of `SCALE` also goes into the model's
own record of unobserved commands: an LDSCALE's value no longer stands (log 6). -/
def Obligations.OperandRegisterKeepsWhatIsWritten : Prop :=
  ∀ (s : State) (r : Reg) (v : Word), s.resetHeld = false → r ∈ Expect.operandRegs → ∃ t,
    hostStep (.write (s.params.regBase + regOffset r) .word v) s = .next t ∧
    t = { s with ops := t.ops, unobserved := t.unobserved } ∧
    t.unobserved = (if r = .scale then
      s.unobserved.map (fun l => { l with registerKept := l.registerKept && l.instr != .ldscale }) else s.unobserved) ∧
    readReg t r = v ∧ ∀ q, q ≠ r → readReg t q = readReg s q

/-- R47: a read at a reserved offset returns 0, a write is ignored, neither has any other effect; reserved bits of `CTRL` and
`STATUS` read 0 and ignore writes. A write of `RESULT`, offset 0x40, is ignored as well (R46). -/
def Obligations.ReservedOffsetReadsZeroIgnoresWrites : Prop :=
  (∀ (s : State) (off : Nat), 0x44 ≤ off → off ≤ 0xFC → off % 4 = 0 →
    hostStep (.read (s.params.regBase + off) .word) s = .next { s with busData := 0#32 } ∧
    (∀ v, hostStep (.write (s.params.regBase + off) .word v) s = .next s) ∧
    (readReg s .ctrl).extractLsb' 1 31 = 0#31 ∧ (readReg s .status).extractLsb' 5 3 = 0#3 ∧
    (readReg s .status).extractLsb' 16 16 = 0#16 ∧
    (∀ v u w, u &&& 1#32 = v &&& 1#32 → w &&& 0x12#32 = v &&& 0x12#32 →
      writeReg s .ctrl v = writeReg s .ctrl u ∧ writeReg s .status v = writeReg s .status w)) ∧
  (∀ (s : State) (v : Word), hostStep (.write (s.params.regBase + 0x40) .word v) s = .next s)

/-- R48: a host access to the window that is not 32 bits wide at an offset that is a multiple of 4 is refused. That this
takes in every access that meets the window, those partly beside it too, is the model's choice (log 10). -/
def Obligations.MisshapenWindowAccessIsRefused : Prop :=
  ∀ (s : State) (a : Nat) (w : Width),
    Expect.overlap a (widthBytes w) s.params.regBase 256 →
    ¬ (w = .word ∧ s.params.regBase ≤ a ∧ (a - s.params.regBase) % 4 = 0) →
    hostStep (.read a w) s = .refused .windowAccessShape ∧
    ∀ v, hostStep (.write a w v) s = .refused .windowAccessShape

/-! ### The life of a command -/

/-- R55: with reset released, a write of `v` to `CMD` with `BUSY = 0` latches `v` and every operand register, sets `BUSY`,
clears `DONE`, `RCODE` and `ECODE`, keeps `OVR`, and changes nothing else of the block, whatever `v` is (the model's record
of a broken duty starts clear, log 5). -/
def Obligations.AcceptanceLatchesTheOperands : Prop :=
  ∀ (s : State) (v : Word), s.resetHeld = false → s.status.busy = false →
    hostStep (.write (s.params.regBase + 0x0C) .word v) s =
      .next { s with
        latch := { cmd := v, ops := s.ops }
        status := { busy := true, done := false, rcode := false, ovr := s.status.ovr, ecode := .ok }
        breached := false }

/-- R57: with reset released, a write of `CMD` while `BUSY = 1` sets `OVR` and changes nothing else. -/
def Obligations.CmdWriteWhileBusyIsDropped : Prop :=
  ∀ (s : State) (v : Word), s.resetHeld = false → s.status.busy = true →
    hostStep (.write (s.params.regBase + 0x0C) .word v) s = .next { s with status := { s.status with ovr := true } }

/-- R58: a host write of an operand register while a command runs takes effect in the register at once and does not change
the latch; the running command then does to memory, `STATUS` and `RESULT` what it would have done; a running LDSCALE's
completion overwrites `SCALE` and the host's value is lost. -/
def Obligations.RunningCommandIgnoresRegisterWrites : Prop :=
  ∀ (s : State) (r : Reg) (v : Word) (i : Instr) (t : State), s.status.busy = true → r ∈ Expect.operandRegs →
    exec i s = .next t →
    readReg (writeReg s r v) r = v ∧ (writeReg s r v).latch = s.latch ∧
    ∃ u, exec i (writeReg s r v) = .next u ∧ u.mem = t.mem ∧ u.status = t.status ∧ u.result = t.result ∧
      (i = .ldscale → t.status.ecode = .ok → u.ops.scale = t.ops.scale)

/-- R232, R233: `IRQ` is `IE and DONE`; a completion with `IE` set asserts it; a `STATUS` write with bit 1, a `CTRL` write
with bit 0 clear, an acceptance and reset deassert it; enabling `IE` while `DONE = 1` asserts it. -/
def Obligations.InterruptIsEnableAndDone : Prop :=
  ∀ s : State,
    (s.irq = true ↔ s.ie = true ∧ s.status.done = true) ∧
    (∀ i t, exec i s = .next t → t.irq = s.ie) ∧
    (∀ v : Word, v.getLsbD 1 = true → (writeReg s .status v).irq = false) ∧
    (∀ v : Word, v.getLsbD 0 = false → (writeReg s .ctrl v).irq = false) ∧
    (∀ v : Word, s.status.busy = false → (writeReg s .cmd v).irq = false) ∧
    (∀ level, (resetStep s level).irq = false) ∧
    (∀ v : Word, s.status.done = true → v.getLsbD 0 = true → (writeReg s .ctrl v).irq = true)

/-! ### Reset -/

/-- R60, R260, R261: when the reset input is asserted and when it is released, every register of the window takes its
reset value, the latch all zeros, the engine is idle and `IRQ` deasserted; reset of an idle block changes no byte of memory.
While reset is asserted a host write of any offset of the window is lost, the engine has no step, and every step leaves every
register at its reset value, the latch all zeros and `IRQ` deasserted, until a level of the input releases it (the block was
in the state that asserting reset gives: a clause of the machine's invariant). The state right after reset is the released
one. For all parameter values. -/
def Obligations.ResetGivesTheResetValues : Prop :=
  (∀ (s : State) (level : Bool) (r : Reg), readReg (resetStep s level) r = if r = .id then s.params.implId else 0#32) ∧
  (∀ (p : Params) (r : Reg), readReg (State.resetWith p) r = if r = .id then p.implId else 0#32) ∧
  (∀ (s : State) (level : Bool),
    hostStep (.reset level) s = .next (if level = true ∨ s.resetHeld = true then resetStep s level else s) ∧
    (resetStep s level).latch = (State.resetWith s.params).latch ∧ (resetStep s level).status.busy = false ∧
    (resetStep s level).irq = false ∧ (resetStep s level).resetHeld = level ∧
    (s.status.busy = false → (resetStep s level).mem = s.mem)) ∧
  (∀ p : Params, (State.resetWith p).latch.cmd = 0#32 ∧ (State.resetWith p).latch.ops =
    { rows := 0#32, cols := 0#32, packedAddr := 0#32, packedLen := 0#32, srcAddr := 0#32, srcLen := 0#32,
      dstAddr := 0#32, dstLen := 0#32, scale := 0#32, actScale := 0#32, actSum := 0#32, index := 0#32 } ∧
    (State.resetWith p).status.busy = false ∧ (State.resetWith p).irq = false ∧ (State.resetWith p).resetHeld = false) ∧
  (∀ s : State, s.resetHeld = true →
    (∀ off v, off < 256 → off % 4 = 0 → hostStep (.write (s.params.regBase + off) .word v) s = .next s) ∧
    engineTurn s = .next s ∧
    (s.Inv → ∀ t, step s = .next t →
      (∀ r, readReg t r = if r = .id then s.params.implId else 0#32) ∧ t.latch = (State.resetWith s.params).latch ∧
      t.irq = false ∧ (t.resetHeld = true ∨ ∃ rest, s.agenda = .host (.reset false) :: rest)))

/-- R263: reset while a command runs abandons it: not busy, `DONE` not set, `IRQ` not asserted, `RESULT` and `SCALE` 0, and
no byte outside the command's write region changes (for a latched word that is no command, no byte at all). Inside the write
region nothing is said: any value. -/
def Obligations.ResetAbandonsTheRunningCommand : Prop :=
  ∀ s : State, s.status.busy = true → ∃ t, hostStep (.reset true) s = .next t ∧
    t.status.busy = false ∧ t.status.done = false ∧ t.irq = false ∧ t.result = 0#32 ∧ t.ops.scale = 0#32 ∧
    (∀ i a, decodeWord s.latch.cmd = .ok i → (∀ q ∈ (footprint i s.latch.ops).write, q.covers a = false) →
      readByte t.mem a = readByte s.mem a) ∧
    t.resetHeld = true ∧ (∀ e a, decodeWord s.latch.cmd = .error e → readByte t.mem a = readByte s.mem a)

/-! ### The commands -/

/-- R132: NOP completes in every state with no effect but the flags, and with `IE` set it raises the completion interrupt;
from reset it leaves `STATUS = 0x00000002`; it is the only command that cannot fail. -/
def Obligations.NopCompletesWithNoEffect : Prop :=
  decodeWord 0x00000000#32 = .ok .nop ∧
  (∀ s : State, exec .nop s = .next (Expect.succeeded .nop s false) ∧ (Expect.succeeded .nop s false).irq = s.ie) ∧
  (∃ t, step (State.reset.withFetchWord 32 0x00000000) = .next t ∧ readReg t .status = 0x00000002#32) ∧
  (∀ i, i ≠ .nop → ∃ s t, exec i s = .next t ∧ t.status.ecode ≠ .ok)

/-- R135: LOCATE makes its checks in the order of R222, then reads one raw code by its flattened index. -/
def Obligations.LocateExecutesAsItsRule : Prop :=
  decodeWord 0x00000001#32 = .ok .locate ∧ ∀ s : State,
    let i := s.latch.ops.index.toNat
    let o := 32 * (i / 128) + i % 32
    let len := s.latch.ops.packedLen.toNat
    let k := Expect.codeBits (readByte s.mem (Expect.pa s + o)) (i % 128 / 32)
    (¬ o < len → exec .locate s = .next (Expect.failed s .invalidDimension)) ∧
    (o < len → s.params.memBytes < Expect.pa s + o + 1 → exec .locate s = .next (Expect.failed s .accessFault)) ∧
    (o < len → Expect.pa s + o + 1 ≤ s.params.memBytes → Expect.clear s (Expect.pa s + o) 1 → s.breached = false →
      exec .locate s = .next { Expect.succeeded .locate s (decide (k = 3)) with result := BitVec.ofNat 32 k })

/-- R140: UNPACK makes its checks in the order of R222, then decodes one 32-byte block into 128 raw codes in block-offset
order. -/
def Obligations.UnpackExecutesAsItsRule : Prop :=
  decodeWord 0x00000002#32 = .ok .unpack ∧ ∀ s : State,
    let blk := Expect.pa s + 32 * s.latch.ops.index.toNat
    let da := Expect.da s
    let dims := 32 * s.latch.ops.index.toNat + 32 ≤ s.latch.ops.packedLen.toNat ∧ s.latch.ops.dstLen.toNat = 128
    let inside := blk + 32 ≤ s.params.memBytes ∧ da + 128 ≤ s.params.memBytes
    let k := fun j => Expect.codeBits (readByte s.mem (blk + j % 32)) (j / 32)
    (¬ dims → exec .unpack s = .next (Expect.failed s .invalidDimension)) ∧
    (dims → ¬ inside → exec .unpack s = .next (Expect.failed s .accessFault)) ∧
    (dims → inside → Expect.overlap da 128 blk 32 → exec .unpack s = .next (Expect.failed s .overlap)) ∧
    (dims → inside → ¬ Expect.overlap da 128 blk 32 → Expect.clear s blk 32 → Expect.clear s da 128 →
      s.breached = false → Expect.unobservedClear s da 128 → s.mem.wf = true →
      ∃ t, exec .unpack s = .next t ∧ t = { Expect.succeeded .unpack s t.status.rcode with mem := t.mem } ∧
        (t.status.rcode = true ↔ ∃ j, j < 128 ∧ k j = 3) ∧
        (∀ j, j < 128 → readByte t.mem (da + j) = BitVec.ofNat 8 (k j)) ∧
        (∀ a, a < da ∨ da + 128 ≤ a → readByte t.mem a = readByte s.mem a))

/-- R150: LDSCALE makes its checks in the order of R222, then loads the trailing scale, any pattern unchanged. -/
def Obligations.LdscaleExecutesAsItsRule : Prop :=
  decodeWord 0x00000003#32 = .ok .ldscale ∧ ∀ s : State,
    let o := Expect.packedLen (Expect.count s)
    let dims := 0 < Expect.rows s ∧ 0 < Expect.cols s ∧ o + 4 ≤ s.latch.ops.packedLen.toNat
    let b := fun k => readByte s.mem (Expect.pa s + o + k)
    (¬ dims → exec .ldscale s = .next (Expect.failed s .invalidDimension)) ∧
    (dims → s.params.memBytes < Expect.pa s + o + 4 → exec .ldscale s = .next (Expect.failed s .accessFault)) ∧
    (dims → Expect.pa s + o + 4 ≤ s.params.memBytes → Expect.clear s (Expect.pa s + o) 4 → s.breached = false →
      exec .ldscale s =
        .next { Expect.succeeded .ldscale s false with ops := { s.ops with scale := b 3 ++ b 2 ++ b 1 ++ b 0 } })

/-- R162: MATVEC, its checks in the order of R222, then `xs[c] = fmul(s, vec[c])`, then for each row the sum of the
contributions in ascending `c` from +0.0. -/
def Obligations.MatvecExecutesAsItsRule : Prop :=
  decodeWord 0x00000010#32 = .ok .matvec ∧
  Expect.matvecRule .matvec Expect.rows Expect.cols (fun s => 4 * (Expect.cols s).toNat)
    (fun s => Expect.da s % 4 = 0 ∧ Expect.sa s % 4 = 0)
    (fun s r => (List.range (Expect.cols s).toNat).foldl (fun acc c =>
      fadd acc (fmul (Expect.mapBits (Expect.code s (r + (Expect.rows s).toNat * c)))
        (fmul s.latch.ops.scale (Expect.vec s c)))) 0x00000000#32)

/-- R170: MATVEC_T, its checks in the order of R222, then for each column the sum in ascending `r` from +0.0,
then one product by the scale. -/
def Obligations.MatvecTExecutesAsItsRule : Prop :=
  decodeWord 0x00000011#32 = .ok .matvecT ∧
  Expect.matvecRule .matvecT Expect.cols Expect.rows (fun s => 4 * (Expect.rows s).toNat)
    (fun s => Expect.da s % 4 = 0 ∧ Expect.sa s % 4 = 0)
    (fun s c => fmul s.latch.ops.scale ((List.range (Expect.rows s).toNat).foldl (fun acc r =>
      fadd acc (fmul (Expect.mapBits (Expect.code s (r + (Expect.rows s).toNat * c))) (Expect.vec s r))) 0x00000000#32))

/-- R198: MATVEC_I8, its checks in the order of R222, then one output per column over the raw codes, corrected and rescaled
once. -/
def Obligations.MatvecI8ExecutesAsItsRule : Prop :=
  decodeWord 0x00000012#32 = .ok .matvecI8 ∧
  Expect.matvecRule .matvecI8 Expect.cols Expect.rows (fun s => (Expect.rows s).toNat) (fun s => Expect.da s % 4 = 0)
    (fun s c => Expect.fused s (Expect.rows s).toNat fun r => Expect.code s (r + (Expect.rows s).toNat * c))

/-- R205: MATVEC_T_I8, its checks in the order of R222, then one output per row over the raw codes, corrected and rescaled
once. -/
def Obligations.MatvecTI8ExecutesAsItsRule : Prop :=
  decodeWord 0x00000013#32 = .ok .matvecTI8 ∧
  Expect.matvecRule .matvecTI8 Expect.rows Expect.cols (fun s => (Expect.cols s).toNat) (fun s => Expect.da s % 4 = 0)
    (fun s r => Expect.fused s (Expect.cols s).toNat fun c => Expect.code s (r + (Expect.rows s).toNat * c))

/-! ### What every command keeps to -/

/-- R228: a command that completes with `ECODE != 0` writes no byte of memory, does not update `RESULT` or `SCALE` and
completes with `RCODE = 0`; its next state is the same whatever memory holds (it reads none). -/
def Obligations.FailedCommandChangesOnlyStatus : Prop :=
  ∀ (i : Instr) (s t : State), exec i s = .next t → t.status.ecode ≠ .ok →
    t.mem = s.mem ∧ t.result = s.result ∧ t.ops = s.ops ∧ t.status.rcode = false ∧
    t = Expect.failed s t.status.ecode ∧
    ∀ m : Memory, exec i { s with mem := m } = .next { t with mem := m }

/-- "Every check depends only on the latch `L` and on `MEM_BYTES`, never on memory contents", and "a breach of the host's
memory duty never changes the code" (R222). -/
def Obligations.ErrorCodeDependsOnTheLatchAlone : Prop :=
  ∀ (i : Instr) (s s' t t' : State), s.latch.ops = s'.latch.ops → s.params.memBytes = s'.params.memBytes →
    exec i s = .next t → exec i s' = .next t' → t.status.ecode = t'.status.ecode

/-- R88: the engine writes memory only in the write region of a command that completes with `ECODE = 0`, and never writes a
read region. Where the command's write region breaks the duty of an earlier, unobserved command, that one's write region
takes any value too (R86, log 6). -/
def Obligations.EngineWritesOnlyItsWriteRegion : Prop :=
  ∀ (i : Instr) (s t : State) (a : Nat), exec i s = .next t →
    (readByte t.mem a ≠ readByte s.mem a →
      t.status.ecode = .ok ∧ ((∃ q, (footprint i s.latch.ops).write = some q ∧ q.covers a = true) ∨
        ∃ l, Expect.broken i s l ∧ Expect.standing l a)) ∧
    (∀ q ∈ (footprint i s.latch.ops).reads, q.covers a = true → (∀ l, Expect.broken i s l → ¬ Expect.standing l a) →
      readByte t.mem a = readByte s.mem a)

/-- R80: a command's outcome, memory writes and register updates are a function of the latch and of the bytes memory holds in
its read regions, and of nothing else: two states that agree on these, whatever else they hold (the write region, earlier
outcomes, other memory), reach the same code, the same `RCODE`, the same bytes in the write region, and the same `RESULT` or
`SCALE`. The duty of R86 is kept in both for the command and for what it reads of earlier commands (log 6), and memory is in
its canonical form. -/
def Obligations.OutcomeIsAFunctionOfLatchAndReadRegions : Prop :=
  ∀ (i : Instr) (s s' t t' : State), s.latch = s'.latch → s.params = s'.params →
    s.breached = false → s'.breached = false → Expect.readsStand i s → Expect.readsStand i s' →
    s.mem.wf = true → s'.mem.wf = true → Expect.agreeOn (footprint i s.latch.ops).reads s s' →
    exec i s = .next t → exec i s' = .next t' →
    t.status.ecode = t'.status.ecode ∧ t.status.rcode = t'.status.rcode ∧
    (t.status.ecode = .ok →
      (∀ q ∈ (footprint i s.latch.ops).write, ∀ a, q.covers a = true → readByte t.mem a = readByte t'.mem a) ∧
      (i = .locate → t.result = t'.result) ∧ (i = .ldscale → t.ops.scale = t'.ops.scale))

/-- Only a successful LOCATE writes `RESULT` (R46), only a successful LDSCALE writes an operand register, and that `SCALE`
(R42, R150), but for a command whose write region breaks the duty of an earlier, unobserved LOCATE or LDSCALE whose value
still stands there: that value takes any value (R86, log 6). No command changes `CTRL`, the latch, a parameter, `OVR` or the
level of reset. -/
def Obligations.CommandWritesOnlyItsOwnRegister : Prop :=
  ∀ (i : Instr) (s t : State), exec i s = .next t →
    (t.result ≠ s.result → t.status.ecode = .ok ∧
      (i = .locate ∨ ∃ l, Expect.broken i s l ∧ l.instr = .locate ∧ l.registerKept = true)) ∧
    t.ops = { s.ops with scale := t.ops.scale } ∧
    (t.ops ≠ s.ops → t.status.ecode = .ok ∧
      (i = .ldscale ∨ ∃ l, Expect.broken i s l ∧ l.instr = .ldscale ∧ l.registerKept = true)) ∧
    t.ie = s.ie ∧ t.latch = s.latch ∧ t.params = s.params ∧ t.status.ovr = s.status.ovr ∧
    t.agenda = s.agenda ∧ t.busData = s.busData ∧ t.resetHeld = s.resetHeld

/-- "If a region covers ... the block's own register window, ... the model refuses such a platform" (R82): a command whose
checks pass and one of whose regions overlaps the window is refused, and no other command is. -/
def Obligations.RegionOverTheWindowIsRefused : Prop :=
  ∀ (i : Instr) (s : State),
    exec i s = .refused .regionCoversWindow ↔
      checkCode i s.params.memBytes s.latch.ops = .ok ∧
      ∃ q, (q ∈ (footprint i s.latch.ops).reads ∨ (footprint i s.latch.ops).write = some q) ∧
        Expect.overlap q.start q.len s.params.regBase 256

/-! ### The host's memory duty -/

/-- R86: a command whose checks pass and whose regions keep clear of the window completes with `ECODE = 0`, whether or not
its duty was broken and whether or not it breaks an earlier command's: no byte changes outside its write region and those of
the earlier, unobserved commands it breaks, and no register but its own and theirs. Inside its write region nothing is said
here: any value after a breach. A command that breaks an earlier one's duty, its own kept, itself has the outcome it has
with no earlier command, as long as it does not read what the broken one wrote (log 6). -/
def Obligations.BreachedCommandStillCompletes : Prop :=
  ∀ (i : Instr) (s : State), checkCode i s.params.memBytes s.latch.ops = .ok →
    (footprint i s.latch.ops).coversWindow s.params = false →
    ∃ t, exec i s = .next t ∧ t.status.ecode = .ok ∧ t.status.busy = false ∧ t.status.done = true ∧
      t.status.ovr = s.status.ovr ∧ t.params = s.params ∧ t.ie = s.ie ∧ t.latch = s.latch ∧ t.resetHeld = s.resetHeld ∧
      (t.result ≠ s.result → i = .locate ∨ ∃ l, Expect.broken i s l ∧ l.instr = .locate ∧ l.registerKept = true) ∧
      t.ops = { s.ops with scale := t.ops.scale } ∧
      (t.ops.scale ≠ s.ops.scale →
        i = .ldscale ∨ ∃ l, Expect.broken i s l ∧ l.instr = .ldscale ∧ l.registerKept = true) ∧
      (∀ a, (∀ q ∈ (footprint i s.latch.ops).write, q.covers a = false) →
        (∀ l, Expect.broken i s l → ¬ Expect.standing l a) → readByte t.mem a = readByte s.mem a) ∧
      (s.breached = false → Expect.readsStand i s → s.mem.wf = true →
        ∃ u, exec i { s with unobserved := [] } = .next u ∧ t.status = u.status ∧
          ∀ q ∈ (footprint i s.latch.ops).write, ∀ a, q.covers a = true → readByte t.mem a = readByte u.mem a)

/-- R86 (the model's record of it, logs 5 and 6): a host memory write that touches a read or write region of the running
command breaks the duty for it, and one that touches none does not. The write changes nothing but memory, that record,
`RESULT`, `SCALE`, `RCODE` and the count of draws: not the latch, not `BUSY`, `DONE`, `OVR` or `ECODE`. `RESULT`, `SCALE` and
`RCODE` change only where it touches a completed, unobserved command whose value still stands there. Bytes outside what the
write stores and outside what touched commands wrote and no later one replaced read as before, and a stored byte outside
the latter reads as stored, little-endian (R72, R115). The two-byte access and the unaligned ones are the model's choice
(log 11). -/
def Obligations.HostWriteBreaksTheDutiesItTouches : Prop :=
  ∀ (s : State) (a : Nat) (w : Width) (v : Word), s.mem.wf = true → route s.params a w = .memory →
    ∃ t, hostStep (.write a w v) s = .next t ∧
      t = { s with mem := t.mem, breached := t.breached, result := t.result, ops := { s.ops with scale := t.ops.scale }
                   status := { s.status with rcode := t.status.rcode }, draw := t.draw } ∧
      t.latch = s.latch ∧ t.status.busy = s.status.busy ∧ t.status.done = s.status.done ∧ t.status.ovr = s.status.ovr ∧
      t.status.ecode = s.status.ecode ∧
      (∀ i, s.status.busy = true → decodeWord s.latch.cmd = .ok i → dimensionOk i s.latch.ops = true →
        (t.breached = true ↔ s.breached = true ∨
          ∃ q, (q ∈ (footprint i s.latch.ops).reads ∨ (footprint i s.latch.ops).write = some q) ∧
            Expect.overlap a (widthBytes w) q.start q.len)) ∧
      (t.result ≠ s.result →
        ∃ l ∈ s.unobserved, Expect.touches l a (widthBytes w) ∧ l.instr = .locate ∧ l.registerKept = true) ∧
      (t.ops.scale ≠ s.ops.scale →
        ∃ l ∈ s.unobserved, Expect.touches l a (widthBytes w) ∧ l.instr = .ldscale ∧ l.registerKept = true) ∧
      (t.status.rcode ≠ s.status.rcode → s.status.busy = false ∧ s.status.ecode = .ok ∧
        ∃ l ∈ s.unobserved, Expect.touches l a (widthBytes w) ∧ l.lastSucceeded = true) ∧
      (∀ b, b < a ∨ a + widthBytes w ≤ b →
        (∀ l ∈ s.unobserved, Expect.touches l a (widthBytes w) → ¬ Expect.standing l b) →
        readByte t.mem b = readByte s.mem b) ∧
      (∀ k, k < widthBytes w →
        (∀ l ∈ s.unobserved, Expect.touches l a (widthBytes w) → ¬ Expect.standing l (a + k)) →
        readByte t.mem (a + k) = BitVec.ofNat 8 (v.toNat / 2 ^ (8 * k)))

/-- A host write of one, two or four bytes to memory that touches no region of the running command and none of a completed,
unobserved one (log 6) stores the low bytes of its value little-endian (R72, R115), changes no other byte and nothing else,
and reads back as those bytes, zero-extended (log 9). The two-byte access and the unaligned ones are the model's choice (log
11). -/
def Obligations.HostWriteReadsBackLittleEndian : Prop :=
  ∀ (s : State) (a : Nat) (w : Width) (v : Word), s.mem.wf = true →
    (s.status.busy = true → ∀ i, decodeWord s.latch.cmd = .ok i → dimensionOk i s.latch.ops = true →
      ∀ q ∈ (footprint i s.latch.ops).write.toList ++ (footprint i s.latch.ops).reads,
        ¬ Expect.overlap a (widthBytes w) q.start q.len) →
    Expect.unobservedClear s a (widthBytes w) →
    Expect.clear s a (widthBytes w) → a + widthBytes w ≤ s.params.memBytes →
    ∃ t, hostStep (.write a w v) s = .next t ∧ t = { s with mem := t.mem } ∧
      (∀ k, k < widthBytes w → readByte t.mem (a + k) = BitVec.ofNat 8 (v.toNat / 2 ^ (8 * k))) ∧
      (∀ b, b < a ∨ a + widthBytes w ≤ b → readByte t.mem b = readByte s.mem b) ∧
      ∃ u, hostStep (.read a w) t = .next u ∧ u.busData = BitVec.ofNat 32 (v.toNat % 2 ^ (8 * widthBytes w))

/-- A host read of memory outside a running command's write region returns the bytes memory holds, little-endian and
zero-extended, and changes nothing else (R85, R87); with no command running that is every read. That this holds from the
completion step on is the model's choice (log 7), and so are the two-byte access, the unaligned ones (log 11) and the bus
value (log 9). -/
def Obligations.MemoryReadReturnsWhatMemoryHolds : Prop :=
  ∀ (s : State) (a : Nat) (w : Width), route s.params a w = .memory →
    (s.status.busy = true → ∀ i q, decodeWord s.latch.cmd = .ok i → (footprint i s.latch.ops).write = some q →
      ¬ Expect.overlap a (widthBytes w) q.start q.len) →
    hostStep (.read a w) s = .next { s with busData := (match w with
      | .byte => 0#24 ++ readByte s.mem a
      | .half => 0#16 ++ readByte s.mem (a + 1) ++ readByte s.mem a
      | .word => readByte s.mem (a + 3) ++ readByte s.mem (a + 2) ++ readByte s.mem (a + 1) ++ readByte s.mem a) }

/-! ### Rules of the whole machine -/

/-- No step changes a parameter (R7, R33). -/
def Obligations.StepKeepsTheParameters : Prop :=
  ∀ s t : State, step s = .next t → t.params = s.params

/-- `OVR` is set only by a `CMD` write dropped because a command runs (R57), and cleared only by a host write of `STATUS`
with bit 4 set (R36) or by reset (R49). -/
def Obligations.OverrunHasOneCause : Prop :=
  ∀ s t : State, step s = .next t →
    (s.status.ovr = false → t.status.ovr = true → s.status.busy = true ∧
      ∃ v rest, s.agenda = .host (.write (s.params.regBase + 0x0C) .word v) :: rest) ∧
    (s.status.ovr = true → t.status.ovr = false →
      ∃ h rest, s.agenda = .host h :: rest ∧
        ((∃ level, h = .reset level ∧ (level = true ∨ s.resetHeld = true)) ∨
          ∃ v : Word, v.getLsbD 4 = true ∧ h = .write (s.params.regBase + 0x08) .word v))

/-- `BUSY` is set only by a `CMD` write with the engine idle (R55), which latches, and cleared only by the engine's
completion, which is the engine's turn and sets `DONE` (R56), or by reset (R263): nothing else starts or stops a command
(R17, R54). -/
def Obligations.BusyHasOneStartAndTwoEnds : Prop :=
  ∀ s t : State, step s = .next t →
    (s.status.busy = false → t.status.busy = true → Expect.acceptance s t) ∧
    (s.status.busy = true → t.status.busy = false →
      (Expect.engineNext s ∧ t.status.done = true) ∨ Expect.resetEvent s)

/-- R49: `DONE` is set only by the completion, and cleared only by an acceptance, a host write of `STATUS` with bit 1 set or
reset; `ECODE` changes only at a completion, an acceptance or reset; so does `RCODE`, but that a host memory write which
touches a region of the last completed command, unobserved and successful, with no command running, gives it any value (R86,
log 6). -/
def Obligations.FlagsChangeOnlyForTheirCauses : Prop :=
  ∀ s t : State, step s = .next t →
    (s.status.done = false → t.status.done = true → Expect.completion s t) ∧
    (s.status.done = true → t.status.done = false →
      Expect.acceptance s t ∨ Expect.resetEvent s ∨
        ∃ (v : Word) (rest : List Event), v.getLsbD 1 = true ∧
          s.agenda = .host (.write (s.params.regBase + 0x08) .word v) :: rest) ∧
    (t.status.ecode ≠ s.status.ecode → Expect.completion s t ∨ Expect.acceptance s t ∨ Expect.resetEvent s) ∧
    (t.status.rcode ≠ s.status.rcode →
      Expect.completion s t ∨ Expect.acceptance s t ∨ Expect.resetEvent s ∨
        (s.status.busy = false ∧ s.status.ecode = .ok ∧
          ∃ a w v rest, s.agenda = .host (.write a w v) :: rest ∧ route s.params a w = .memory ∧
            ∃ l ∈ s.unobserved, Expect.touches l a (widthBytes w) ∧ l.lastSucceeded = true))

/-- The latch changes only at an acceptance or at reset (R50, R55, R58). -/
def Obligations.LatchChangesOnlyAtAcceptanceOrReset : Prop :=
  ∀ s t : State, step s = .next t → t.latch ≠ s.latch →
    (s.status.busy = false ∧ t.status.busy = true ∧
      ∃ v rest, s.agenda = .host (.write (s.params.regBase + 0x0C) .word v) :: rest) ∨
    Expect.resetEvent s

/-- Every step keeps the invariant: canonical memory inside `MEM_BYTES`, `RESULT` bits 31:2 zero (R46), the flags of a
running command clear (R35), `RCODE` only after a success (R56), and reset values while reset is asserted (R260). -/
def Obligations.StepKeepsTheMachineInvariant : Prop :=
  ∀ s t : State, s.Inv → step s = .next t → t.Inv

/-- The reset state meets the invariant, for all parameter values. -/
def Obligations.ResetMeetsTheMachineInvariant : Prop :=
  ∀ p : Params, (State.resetWith p).Inv

/-! ### The packed format -/

/-- R131: for every byte and group, the decode table, the shift and mask and the documented bit pair agree. -/
def Obligations.DecodeTableHoldsTheBitPairs : Prop :=
  ∀ (b : Byte) (g : Nat), g < 4 →
    (lut b).getD g 0#2 = b.extractLsb' (6 - 2 * g) 2 ∧ codeIn b g = b.extractLsb' (6 - 2 * g) 2 ∧
    (codeIn b g).toNat = Expect.codeBits b g

/-- Two indices never share the bits of a code, and every used index has its byte inside the packed codes (R106, R107,
R108). -/
def Obligations.CodesHaveTheirOwnBits : Prop :=
  (∀ i j : Nat, byteOff i = byteOff j → group i = group j → i = j) ∧
  (∀ i n : Nat, i < n → byteOff i < packedBytes n) ∧
  (∀ n a : Nat, a < packedBytes n → ∃ i, byteOff i = a ∧ i / 128 < (n + 127) / 128)

/-- R110: byte `j` of block `bi` holds the codes of the block offsets `j`, `j+32`, `j+64`, `j+96`. -/
def Obligations.PackedByteHoldsFourCodes : Prop :=
  ∀ (m : Memory) (pa bi j : Nat), j < 32 →
    (readByte m (pa + (bi * 32 + j))).toNat =
      (codeAt m pa (128 * bi + j)).toNat * 2 ^ 6 + (codeAt m pa (128 * bi + (j + 32))).toNat * 2 ^ 4 +
        (codeAt m pa (128 * bi + (j + 64))).toNat * 2 ^ 2 + (codeAt m pa (128 * bi + (j + 96))).toNat

/-- "When `rows mod 128 = 0`, column `c` occupies exactly the blocks `c*rows/128 .. (c+1)*rows/128 - 1`", and its block `k`
covers rows `128k .. 128k+127` (R111). -/
def Obligations.AlignedColumnFillsWholeBlocks : Prop :=
  ∀ rows r c : Nat, rows % 128 = 0 → r < rows →
    byteOff (r + rows * c) = (c * (rows / 128) + r / 128) * 32 + r % 32 ∧ group (r + rows * c) = r % 128 / 32 ∧
    c * rows / 128 ≤ (r + rows * c) / 128 ∧ (r + rows * c) / 128 < (c + 1) * rows / 128

/-! ### The arithmetic -/

/-- R12 (IEEE 754 as log 17 reads it): a rounded value has its sign, and it is finite exactly when the magnitude `num/den`
units of 2^-149 lies below the largest finite one plus half its last place, else the infinity of its sign. A finite one is
the nearest: no finite pattern is nearer to `num/den`, and of two equally near the one with the even fraction is taken. The
four primitives on finite operands are that rounding of the exact result. -/
def Obligations.RoundingIsNearestTiesToEven : Prop :=
  (∀ (s : Bool) (num den : Nat), 0 < den →
    fSign (roundFloat s num den) = s ∧
    (isFinite (roundFloat s num den) = true ↔ num < (2 ^ 25 - 1) * 2 ^ 252 * den) ∧
    (isFinite (roundFloat s num den) = false → roundFloat s num den = Expect.infinity s)) ∧
  (∀ (s : Bool) (num den : Nat) (y : Word), 0 < den → isFinite y = true → isFinite (roundFloat s num den) = true →
    let near := ((fMag (roundFloat s num den) * den : Nat) - (num : Int)).natAbs
    let other := ((fMag y * den : Nat) - (num : Int)).natAbs
    near ≤ other ∧ (near = other → fMag y ≠ fMag (roundFloat s num den) → fFrac (roundFloat s num den) % 2 = 0)) ∧
  (∀ a b : Word, isFinite a = true → isFinite b = true → fVal a + fVal b ≠ 0 →
    fadd a b = roundFloat (decide (fVal a + fVal b < 0)) (fVal a + fVal b).natAbs 1) ∧
  (∀ a b : Word, isFinite a = true → isFinite b = true →
    fmul a b = roundFloat (fSign a != fSign b) (fMag a * fMag b) (2 ^ 149)) ∧
  (∀ a b : Word, isFinite a = true → isFinite b = true → feq0 b = false →
    fdiv a b = roundFloat (fSign a != fSign b) (fMag a * 2 ^ 149) (fMag b)) ∧
  (∀ i : Int, i2f i = roundFloat (decide (i < 0)) (i.natAbs * 2 ^ 149) 1)

/-- R12 (IEEE 754 as log 17 reads it), off the finite rounding: a NaN operand gives the canonical NaN; an exact zero sum is
+0.0 but for two -0.0; infinities add to themselves and to NaN where they are opposite; an infinity times a zero is NaN and
times anything else the infinity of the product's sign; the quotient of two infinities or of two zeros is NaN, of an
infinity by a finite number or of a nonzero number by a zero the infinity, and of a finite number by an infinity the zero,
of the quotient's sign. `feq0` holds of the two zeros alone. -/
def Obligations.FloatSpecialCasesHold : Prop :=
  (∀ a b : Word, isNaN a = true ∨ isNaN b = true →
    fadd a b = 0x7FC00000#32 ∧ fmul a b = 0x7FC00000#32 ∧ fdiv a b = 0x7FC00000#32) ∧
  (∀ a b : Word, isFinite a = true → isFinite b = true → fVal a + fVal b = 0 →
    fadd a b = if a = 0x80000000#32 ∧ b = 0x80000000#32 then 0x80000000#32 else 0x00000000#32) ∧
  (∀ a b : Word, isInf a = true → isInf b = true →
    fadd a b = (if a = b then a else 0x7FC00000#32) ∧ fdiv a b = 0x7FC00000#32) ∧
  (∀ a b : Word, isInf a = true → isFinite b = true →
    fadd a b = a ∧ fadd b a = a ∧
    fdiv a b = Expect.infinity (fSign a != fSign b) ∧ fdiv b a = Expect.zero (fSign a != fSign b)) ∧
  (∀ a b : Word, isInf a = true → feq0 b = true → fmul a b = 0x7FC00000#32 ∧ fmul b a = 0x7FC00000#32) ∧
  (∀ a b : Word, isInf a = true → isNaN b = false → feq0 b = false →
    fmul a b = Expect.infinity (fSign a != fSign b) ∧ fmul b a = Expect.infinity (fSign a != fSign b)) ∧
  (∀ a b : Word, isFinite a = true → feq0 b = true →
    fdiv a b = if feq0 a then 0x7FC00000#32 else Expect.infinity (fSign a != fSign b)) ∧
  (∀ x : Word, feq0 x = true ↔ x = 0x00000000#32 ∨ x = 0x80000000#32)

/-- R161: the table of ternary contributions. -/
def Obligations.ContributionTableHolds : Prop :=
  ∀ x : Word,
    (isNaN x = false → contrib 2#2 x = x ∧ contrib 0#2 x = x ^^^ 0x80000000#32) ∧
    (isFinite x = true → contrib 1#2 x = x &&& 0x80000000#32 ∧ contrib 3#2 x = x &&& 0x80000000#32) ∧
    (isInf x = true → contrib 1#2 x = 0x7FC00000#32 ∧ contrib 3#2 x = 0x7FC00000#32) ∧
    (isNaN x = true → ∀ k, contrib k x = 0x7FC00000#32)

/-- "MATVEC never writes −0.0" (R162): no row's sum is the pattern 0x80000000. -/
def Obligations.MatvecNeverWritesNegativeZero : Prop :=
  ∀ (o : Operands) (m : Memory) (r : Nat), matvecElem o m r ≠ 0x80000000#32

/-- R163: when the scale is finite and `vec[c]` is ±0.0, leaving column `c` out changes no bit of any row; when the scale is
infinite or NaN, `xs[c]` is NaN. -/
def Obligations.ZeroInputColumnIsSkippable : Prop :=
  ∀ (o : Operands) (m : Memory) (r c : Nat), feq0 (vecElem m o.sa c) = true →
    (isFinite o.scale = true →
      matvecElem o m r = ((List.range o.colsN).filter (· ≠ c)).foldl (fun acc j =>
        fadd acc (contrib (codeAt m o.pa (r + o.rowsN * j)) (fmul o.scale (vecElem m o.sa j)))) 0x00000000#32) ∧
    (isFinite o.scale = false → fmul o.scale (vecElem m o.sa c) = 0x7FC00000#32)

/-- R192: with `act_scale` ±0.0 the factor is +0.0 and every output is +0.0 when `D >= 0` and −0.0 when `D < 0`, whatever
the weight scale holds, NaN and infinities included. -/
def Obligations.ZeroActScaleGivesSignedZero : Prop :=
  ∀ (o : Operands) (m : Memory) (n : Nat), feq0 o.actScale = true →
    scaleFactor o.scale o.actScale = 0x00000000#32 ∧
    (let d := wrap32 (intSum o.rowsN (fun r => codeAt m o.pa (r + o.rowsN * n)) (qvecElem m o.sa) - o.actSum.toInt)
     matvecI8Elem o m n = if 0 ≤ d then 0x00000000#32 else 0x80000000#32) ∧
    (let d := wrap32 (intSum o.colsN (fun c => codeAt m o.pa (n + o.rowsN * c)) (qvecElem m o.sa) - o.actSum.toInt)
     matvecTI8Elem o m n = if 0 ≤ d then 0x00000000#32 else 0x80000000#32)

/-- R193: the wrapped running sum is the exact sum wrapped once, so the order of the terms does not change it; with at most
5,592,405 int8 terms it is the exact sum. -/
def Obligations.IntegerSumIsOrderFree : Prop :=
  ∀ (n : Nat) (code : Nat → Code) (q : Nat → Int),
    intSum n code q = wrap32 (((List.range n).map fun j => ((code j).toNat : Int) * q j).sum) ∧
    (∀ l : List Nat, l.Perm (List.range n) →
      l.foldl (fun acc j => wrap32 (acc + ((code j).toNat : Int) * q j)) 0 = intSum n code q) ∧
    (n ≤ 5592405 → (∀ j, j < n → -128 ≤ q j ∧ q j ≤ 127) →
      intSum n code q = ((List.range n).map fun j => ((code j).toNat : Int) * q j).sum)

/-- "When every code used is in {0,1,2} and `act_sum` is the true sum of the activations, the integer part equals the
ternary dot product" (R190), within the range the int32 sum holds (R193). -/
def Obligations.CorrectionRestoresTheTernaryDot : Prop :=
  ∀ (n : Nat) (code : Nat → Code) (q : Nat → Int), n ≤ 5592405 → (∀ j, j < n → -128 ≤ q j ∧ q j ≤ 127) →
    (∀ j, j < n → code j ≠ 3#2) →
    wrap32 (intSum n code q - ((List.range n).map q).sum) =
      ((List.range n).map fun j => (if code j = 0#2 then -1 else if code j = 2#2 then 1 else 0) * q j).sum

/-- "MATVEC_I8 and MATVEC_T give the same bits" (the first half of R206): for codes in {0,1,2}, `act_sum` the true
activation sum, `vec[i]` holding `qvec[i]` as binary32, the float command's `SCALE` holding `f` and `rows <= 131072`, column
`c` of MATVEC_I8 is bit for bit column `c` of MATVEC_T. -/
def Obligations.FusedColumnEqualsFloatColumn : Prop :=
  ∀ (o o' : Operands) (m m' : Memory) (c : Nat),
    o'.rowsN = o.rowsN → o.rowsN ≤ 131072 →
    (∀ r, r < o.rowsN → codeAt m o.pa (r + o.rowsN * c) ≠ 3#2 ∧
      codeAt m' o'.pa (r + o.rowsN * c) = codeAt m o.pa (r + o.rowsN * c) ∧
      vecElem m' o'.sa r = i2f (qvecElem m o.sa r)) →
    o.actSum.toInt = ((List.range o.rowsN).map (qvecElem m o.sa)).sum →
    o'.scale = scaleFactor o.scale o.actScale →
    matvecI8Elem o m c = matvecTElem o' m' c
end

