-- ==== Sys2Proof/Laws/Float32.lean ====
section
/-! SUPPORT. The laws of the binary32 primitives: patterns and their fields, rounding is exact on representable values, and
the exact results the commands' rules rest on. -/

namespace Sys2Proof.Machine

/-! ### Patterns and their fields -/

theorem fExp_lt (x : Word) : fExp x < 256 := (x.extractLsb' 23 8).isLt
theorem fFrac_lt (x : Word) : fFrac x < 2 ^ 23 := (x.extractLsb' 0 23).isLt

/-- A pattern as a number: sign, exponent, fraction. -/
theorem toNat_eq_fields (x : Word) : x.toNat = (if fSign x then 2 ^ 31 else 0) + (fExp x * 2 ^ 23 + fFrac x) := by
  have hx := x.isLt
  simp only [fSign, BitVec.msb_eq_decide, fExp, fFrac, BitVec.extractLsb'_toNat, Nat.shiftRight_eq_div_pow]
  simp only [decide_eq_true_eq]
  split <;> omega

theorem toNat_fPack {s : Bool} {low : Nat} (h : low < 2 ^ 31) : (fPack s low).toNat = (if s then 2 ^ 31 else 0) + low := by
  simp only [fPack, BitVec.toNat_ofNat]
  cases s
  all_goals simp
  all_goals omega

@[simp] theorem fSign_fPack {s : Bool} {low : Nat} (h : low < 2 ^ 31) : fSign (fPack s low) = s := by
  simp only [fSign, BitVec.msb_eq_decide, toNat_fPack h]
  cases s
  all_goals simp
  all_goals omega

theorem fExp_fPack {s : Bool} {low : Nat} (h : low < 2 ^ 31) : fExp (fPack s low) = low / 2 ^ 23 := by
  simp only [fExp, BitVec.extractLsb'_toNat, toNat_fPack h, Nat.shiftRight_eq_div_pow]
  cases s
  all_goals simp
  all_goals omega

theorem fFrac_fPack {s : Bool} {low : Nat} (h : low < 2 ^ 31) : fFrac (fPack s low) = low % 2 ^ 23 := by
  simp only [fFrac, BitVec.extractLsb'_toNat, toNat_fPack h, Nat.shiftRight_zero]
  cases s
  all_goals simp
  all_goals omega

/-- A pattern is its sign, exponent and fraction packed. -/
theorem fPack_fields (x : Word) : fPack (fSign x) (fExp x * 2 ^ 23 + fFrac x) = x := by
  have he := fExp_lt x
  have hf := fFrac_lt x
  apply BitVec.eq_of_toNat_eq
  rw [toNat_fPack (by omega), toNat_eq_fields x]

@[simp] theorem isNaN_canonicalNaN : isNaN canonicalNaN = true := by decide
@[simp] theorem isFinite_zero : isFinite 0#32 = true := by decide
@[simp] theorem fMag_zero : fMag 0#32 = 0 := by decide
@[simp] theorem fVal_zero : fVal 0#32 = 0 := by decide

theorem isFinite_iff {x : Word} : isFinite x = true ↔ isNaN x = false ∧ isInf x = false := by
  simp only [isFinite, isNaN, isInf, bne_iff_ne, Bool.and_eq_false_iff, beq_eq_false_iff_ne, bne_eq_false_iff_eq]
  by_cases h : fFrac x = 0 <;> simp [h]

/-- The magnitude of a pattern is zero exactly when the pattern is a zero. -/
theorem fMag_eq_zero {x : Word} : fMag x = 0 ↔ feq0 x = true := by
  simp only [fMag, feq0, Bool.and_eq_true, beq_iff_eq]
  split
  · rename_i h; simp [h]
  · rename_i h
    simp [h]

/-! ### Rounding -/

@[simp] theorem roundDiv_exact {n d : Nat} (hd : 0 < d) : roundDiv (n * d) d = n := by
  simp [roundDiv, hd]

/-- A magnitude of at most 24 significant bits rounds to itself. -/
theorem roundMag_exact {m sh d : Nat} (hd : 0 < d) (hm : m < 2 ^ 24) (hsh : sh = 0 ∨ 2 ^ 23 ≤ m) :
    roundMag (m * 2 ^ sh * d) d = min (sh * 2 ^ 23 + m) 0x7F800000 := by
  have hq : m * 2 ^ sh * d / d = m * 2 ^ sh := Nat.mul_div_cancel _ hd
  have hlog : Nat.log2 (m * 2 ^ sh) - 23 = sh := by
    rcases hsh with rfl | h
    · by_cases h0 : m = 0
      · subst h0; decide
      · have : Nat.log2 (m * 2 ^ 0) < 24 := (Nat.log2_lt (by simpa using h0)).2 (by simpa using hm)
        omega
    · have hne : m * 2 ^ sh ≠ 0 := by positivity
      have h1 : Nat.log2 (m * 2 ^ sh) < 24 + sh :=
        (Nat.log2_lt hne).2 (by rw [Nat.pow_add]; exact Nat.mul_lt_mul_of_pos_right hm (by positivity))
      have h2 : 23 + sh ≤ Nat.log2 (m * 2 ^ sh) :=
        (Nat.le_log2 hne).2 (by rw [Nat.pow_add]; exact Nat.mul_le_mul_right _ h)
      omega
  have hr : m * 2 ^ sh * d = m * (d * 2 ^ sh) := by ring
  unfold roundMag
  simp only [hq, hlog]
  rw [hr, roundDiv_exact (by positivity)]

/-- The magnitude of a finite pattern, at any denominator, rounds back to the pattern's low bits. -/
theorem roundMag_fMag {x : Word} (hx : isFinite x = true) {d : Nat} (hd : 0 < d) :
    roundMag (fMag x * d) d = fExp x * 2 ^ 23 + fFrac x := by
  have he := fExp_lt x
  have hf := fFrac_lt x
  have h255 : fExp x ≠ 255 := by simpa [isFinite] using hx
  unfold fMag
  split
  · rename_i h
    have := roundMag_exact (m := fFrac x) (sh := 0) hd (by omega) (.inl rfl)
    simp only [Nat.pow_zero, Nat.mul_one] at this
    rw [this, h]
    omega
  · rename_i h
    rw [roundMag_exact hd (by omega) (.inr (by omega))]
    have : (fExp x - 1) * 2 ^ 23 + (2 ^ 23 + fFrac x) = fExp x * 2 ^ 23 + fFrac x := by
      obtain ⟨k, hk⟩ : ∃ k, fExp x = k + 1 := ⟨fExp x - 1, by omega⟩
      rw [hk]
      simp only [Nat.add_sub_cancel]
      ring
    rw [this]
    omega

/-- A finite pattern's magnitude with either sign rounds to the pattern with that sign. -/
theorem roundFloat_fMag {x : Word} (hx : isFinite x = true) (s : Bool) {d : Nat} (hd : 0 < d) :
    roundFloat s (fMag x * d) d = fPack s (fExp x * 2 ^ 23 + fFrac x) := by
  rw [roundFloat, roundMag_fMag hx hd]

theorem roundMag_le (num den : Nat) : roundMag num den ≤ 0x7F800000 := Nat.min_le_right ..

@[simp] theorem fSign_roundFloat (s : Bool) (num den : Nat) : fSign (roundFloat s num den) = s :=
  fSign_fPack (Nat.lt_of_le_of_lt (roundMag_le num den) (by norm_num))

/-- A rounded value is never a NaN. -/
theorem isNaN_roundFloat (s : Bool) (num den : Nat) : isNaN (roundFloat s num den) = false := by
  have h := roundMag_le num den
  have hlt : roundMag num den < 2 ^ 31 := Nat.lt_of_le_of_lt h (by norm_num)
  simp only [isNaN, roundFloat, fExp_fPack hlt, fFrac_fPack hlt, Bool.and_eq_false_iff, beq_eq_false_iff_ne, bne_eq_false_iff_eq]
  omega

/-! ### Products with the ternary values -/

@[simp] theorem codeMap_zero : codeMap 0#2 = 0xBF800000#32 := by decide
@[simp] theorem codeMap_one : codeMap 1#2 = 0x00000000#32 := by decide
@[simp] theorem codeMap_two : codeMap 2#2 = 0x3F800000#32 := by decide
@[simp] theorem codeMap_three : codeMap 3#2 = 0x00000000#32 := by decide

/-- The product by +1.0 or -1.0 of a number that is no NaN is exact: the pattern with the product's sign. -/
theorem fmul_one {o x : Word} (ho : fMag o = 2 ^ 149) (hof : isFinite o = true) (hx : isNaN x = false) :
    fmul o x = fPack (fSign o != fSign x) (fExp x * 2 ^ 23 + fFrac x) := by
  obtain ⟨hon, hoi⟩ := isFinite_iff.1 hof
  have ho0 : feq0 o = false := by
    by_contra h
    have := fMag_eq_zero.2 (by simpa using h)
    rw [ho] at this
    exact absurd this (by positivity)
  simp only [fmul, hon, hoi, ho0, hx, Bool.false_or]
  by_cases hi : isInf x = true
  · have hf : fExp x = 255 ∧ fFrac x = 0 := by simpa [isInf] using hi
    have h0 : feq0 x = false := by simp [feq0, hf.1]
    simp [hi, h0, fInf, hf.1, hf.2]
  · have hxf : isFinite x = true := isFinite_iff.2 ⟨hx, by simpa using hi⟩
    rw [ho, Nat.mul_comm]
    simp only [hi, if_false, Bool.false_eq_true]
    exact roundFloat_fMag hxf _ (by positivity)

/-- The product by +0.0 of a finite number is a zero with the number's sign. -/
theorem fmul_zero_finite {x : Word} (hx : isFinite x = true) : fmul 0#32 x = fPack (fSign x) 0 := by
  obtain ⟨hn, hi⟩ := isFinite_iff.1 hx
  have h1 : isNaN 0#32 = false := by decide
  have h2 : isInf 0#32 = false := by decide
  have h3 : fSign 0#32 = false := by decide
  simp only [fmul, h1, h2, h3, hn, hi, Bool.or_self, Bool.false_eq_true, if_false, fMag_zero, Nat.zero_mul]
  cases fSign x <;> decide

/-! ### Integers -/

/-- A natural number of at most 2^24 ones, in units of 2^-149, is kept exactly: its low bits denote that magnitude. -/
theorem fMag_roundFloat_nat {n : Nat} (hn : n ≤ 2 ^ 24) (s : Bool) :
    isFinite (roundFloat s (n * 2 ^ 149) 1) = true ∧ fMag (roundFloat s (n * 2 ^ 149) 1) = n * 2 ^ 149 := by
  by_cases h0 : n = 0
  · subst h0; cases s <;> decide
  -- write n * 2^149 as m * 2^sh with m of exactly 24 bits
  obtain ⟨m, sh, hm, hlo, hhi, hsh⟩ : ∃ m sh, n * 2 ^ 149 = m * 2 ^ sh ∧ 2 ^ 23 ≤ m ∧ m < 2 ^ 24 ∧ sh ≤ 150 := by
    by_cases he : n = 2 ^ 24
    · exact ⟨2 ^ 23, 150, by subst he; norm_num, by norm_num, by norm_num, le_refl _⟩
    · have hlt : n < 2 ^ 24 := by omega
      have hlog := (Nat.log2_lt h0).2 hlt
      have hl1 : 2 ^ Nat.log2 n ≤ n := Nat.log2_self_le h0
      have hl2 : n < 2 ^ (Nat.log2 n + 1) := Nat.lt_log2_self
      refine ⟨n * 2 ^ (23 - Nat.log2 n), 126 + Nat.log2 n, ?_, ?_, ?_, by omega⟩
      · rw [Nat.mul_assoc, ← Nat.pow_add]; congr 2; omega
      · calc 2 ^ 23 = 2 ^ Nat.log2 n * 2 ^ (23 - Nat.log2 n) := by rw [← Nat.pow_add]; congr 1; omega
          _ ≤ n * 2 ^ (23 - Nat.log2 n) := Nat.mul_le_mul_right _ hl1
      · calc n * 2 ^ (23 - Nat.log2 n) < 2 ^ (Nat.log2 n + 1) * 2 ^ (23 - Nat.log2 n) :=
              Nat.mul_lt_mul_of_pos_right hl2 (by positivity)
          _ = 2 ^ 24 := by rw [← Nat.pow_add]; congr 1; omega
  have hr : roundMag (n * 2 ^ 149) 1 = sh * 2 ^ 23 + m := by
    have := roundMag_exact (d := 1) (by norm_num) hhi (.inr hlo) (sh := sh)
    rw [Nat.mul_one] at this
    rw [hm, this]
    omega
  have hlt : sh * 2 ^ 23 + m < 2 ^ 31 := by omega
  have hexp : (sh * 2 ^ 23 + m) / 2 ^ 23 = sh + 1 := by omega
  have hfrac : (sh * 2 ^ 23 + m) % 2 ^ 23 = m - 2 ^ 23 := by omega
  constructor
  · simp only [isFinite, roundFloat, hr, fExp_fPack hlt, hexp, bne_iff_ne]
    omega
  · simp only [fMag, roundFloat, hr, fExp_fPack hlt, fFrac_fPack hlt, hexp, hfrac]
    rw [if_neg (by omega), hm, Nat.add_sub_cancel, Nat.add_sub_cancel' hlo]

/-- `i2f` of an integer of magnitude at most 2^24 is exact. -/
theorem fVal_i2f {i : Int} (hi : i.natAbs ≤ 2 ^ 24) : isFinite (i2f i) = true ∧ fVal (i2f i) = i * 2 ^ 149 := by
  obtain ⟨hf, hm⟩ := fMag_roundFloat_nat hi (decide (i < 0))
  refine ⟨hf, ?_⟩
  unfold fVal i2f
  rw [fSign_roundFloat, hm]
  by_cases h : i < 0
  · simp only [h, decide_true, if_true]
    have : (i.natAbs : Int) = -i := by omega
    rw [Nat.cast_mul, this]
    push_cast
    ring
  · simp only [h, decide_false, Bool.false_eq_true, if_false]
    have : (i.natAbs : Int) = i := by omega
    rw [Nat.cast_mul, this]
    push_cast
    rfl

end Sys2Proof.Machine
end

