-- ==== Sys2Proof/Laws/Memory.lean ====
section
/-! SUPPORT. The laws of memory: every write keeps the canonical form, a read after a write, and what a write leaves alone. -/

namespace Sys2Proof.Machine

/-! ### The canonical form -/

theorem memWfFrom_mono {lo hi : Nat} (h : lo ≤ hi) : ∀ {m : Memory}, memWfFrom (some hi) m = true → memWfFrom (some lo) m = true
  | [], _ => rfl
  | (k, v) :: rest, hm => by
    simp only [memWfFrom, Option.all_some, Bool.and_eq_true, decide_eq_true_eq] at hm ⊢
    exact ⟨⟨by omega, hm.1.2⟩, hm.2⟩

theorem memWfFrom_none {lo : Nat} : ∀ {m : Memory}, memWfFrom (some lo) m = true → memWfFrom none m = true
  | [], _ => rfl
  | (k, v) :: rest, hm => by
    simp only [memWfFrom, Option.all_some, Option.all_none, Bool.and_eq_true, Bool.true_and] at hm ⊢
    exact ⟨hm.1.2, hm.2⟩

/-- Below every listed address nothing is listed. -/
theorem readByte_of_below {a : Nat} : ∀ {lo : Nat} {m : Memory}, memWfFrom (some lo) m = true → a ≤ lo → readByte m a = unlistedByte
  | _, [], _, _ => rfl
  | lo, (k, v) :: rest, hm, ha => by
    simp only [memWfFrom, Option.all_some, Bool.and_eq_true, decide_eq_true_eq] at hm
    simp only [readByte]
    rw [if_neg (by omega)]
    exact readByte_of_below hm.2 (by omega)

theorem writeByte_wfFrom {a : Nat} {v : Byte} :
    ∀ {m : Memory} {lo : Option Nat}, memWfFrom lo m = true → (∀ l ∈ lo, l < a) → memWfFrom lo (writeByte m a v) = true
  | [], lo, _, ha => by
    unfold writeByte
    split
    · rfl
    · cases lo <;> simp_all [memWfFrom]
  | (k, w) :: rest, lo, hm, ha => by
    simp only [memWfFrom, Bool.and_eq_true] at hm
    obtain ⟨⟨hlo, hw⟩, hrest⟩ := hm
    unfold writeByte
    split
    · rename_i hak
      split
      · simp [memWfFrom, hlo, hw, hrest]
      · cases lo <;> simp_all [memWfFrom]
    · split
      · rename_i hnlt hak
        subst hak
        split
        · cases lo with
          | none => exact memWfFrom_none hrest
          | some l => exact memWfFrom_mono (by have := ha l rfl; omega) hrest
        · simp_all [memWfFrom]
      · simp only [memWfFrom, Bool.and_eq_true]
        refine ⟨⟨hlo, hw⟩, writeByte_wfFrom hrest ?_⟩
        intro l hl
        cases hl
        omega

/-- A byte write keeps the canonical form. -/
theorem writeByte_wf {m : Memory} (h : m.wf = true) (a : Nat) (v : Byte) : Memory.wf (writeByte m a v) = true :=
  writeByte_wfFrom h (by simp)

/-- A list of byte writes keeps the canonical form. -/
theorem writeCells_wf (cells : List Host.Cell) : ∀ {m : Memory}, m.wf = true → Memory.wf (writeCells m cells) = true := by
  induction cells with
  | nil => exact fun h => h
  | cons c rest ih => exact fun h => ih (writeByte_wf h c.1 c.2)

/-! ### Which addresses memory lists -/

theorem mem_writeByte {c : Host.Cell} {a : Nat} {v : Byte} :
    ∀ {m : Memory}, c ∈ writeByte m a v → c ∈ m ∨ c = (a, v)
  | [], h => by
    unfold writeByte at h
    split at h <;> simp_all
  | (k, w) :: rest, h => by
    unfold writeByte at h
    split at h
    · split at h
      · exact .inl h
      · rcases List.mem_cons.1 h with h | h
        · exact .inr h
        · exact .inl h
    · split at h
      · split at h
        · exact .inl (List.mem_cons_of_mem _ h)
        · rcases List.mem_cons.1 h with h | h
          · exact .inr h
          · exact .inl (List.mem_cons_of_mem _ h)
      · rcases List.mem_cons.1 h with h | h
        · exact .inl (h ▸ List.mem_cons_self)
        · rcases mem_writeByte h with h | h
          · exact .inl (List.mem_cons_of_mem _ h)
          · exact .inr h

/-- What memory lists after a list of writes was listed before or is one of the writes. -/
theorem mem_writeCells {c : Host.Cell} (cells : List Host.Cell) :
    ∀ {m : Memory}, c ∈ writeCells m cells → c ∈ m ∨ c ∈ cells := by
  induction cells with
  | nil => exact fun h => .inl h
  | cons d rest ih =>
    intro m h
    rcases ih (m := writeByte m d.1 d.2) h with h | h
    · rcases mem_writeByte h with h | h
      · exact .inl h
      · exact .inr (h ▸ List.mem_cons_self)
    · exact .inr (List.mem_cons_of_mem _ h)

/-- Writes below a bound keep every listed address below it. -/
theorem writeCells_below {cells : List Host.Cell} {m : Memory} {n : Nat} (hm : ∀ c ∈ m, c.1 < n) (hc : ∀ c ∈ cells, c.1 < n) :
    ∀ c ∈ writeCells m cells, c.1 < n := fun c h =>
  (mem_writeCells cells h).elim (hm c) (hc c)

/-! ### Reads after writes -/

/-- A byte write leaves every other byte alone. -/
theorem readByte_writeByte_other {a b : Nat} {v : Byte} (h : b ≠ a) :
    ∀ {m : Memory}, readByte (writeByte m a v) b = readByte m b
  | [] => by
    unfold writeByte
    split <;> simp [readByte, Ne.symm h]
  | (k, w) :: rest => by
    unfold writeByte
    split
    · split <;> simp [readByte, Ne.symm h]
    · split
      · rename_i hak
        subst hak
        split <;> simp [readByte, Ne.symm h]
      · simp only [readByte]
        rw [readByte_writeByte_other h]

theorem readByte_writeByte_from {a : Nat} {v : Byte} :
    ∀ {m : Memory} {lo : Option Nat}, memWfFrom lo m = true → readByte (writeByte m a v) a = v
  | [], _, _ => by
    unfold writeByte
    split <;> simp_all [readByte]
  | (k, w) :: rest, lo, hm => by
    simp only [memWfFrom, Bool.and_eq_true] at hm
    obtain ⟨-, hrest⟩ := hm
    unfold writeByte
    split
    · rename_i hak
      split
      · rename_i hv
        simp only [readByte]
        rw [if_neg (by omega), readByte_of_below hrest (by omega), hv]
      · simp [readByte]
    · split
      · rename_i hak
        subst hak
        split
        · rename_i hv
          rw [readByte_of_below hrest (Nat.le_refl _), hv]
        · simp [readByte]
      · rename_i hak
        simp only [readByte]
        rw [if_neg (Ne.symm hak), readByte_writeByte_from hrest]

/-- In canonical memory a read after a write to the same byte gives the value written. -/
theorem readByte_writeByte_same {m : Memory} (h : m.wf = true) (a : Nat) (v : Byte) : readByte (writeByte m a v) a = v :=
  readByte_writeByte_from h

/-- A list of writes leaves every byte it does not name alone. -/
theorem readByte_writeCells_other {a : Nat} (cells : List Host.Cell) :
    ∀ {m : Memory}, (∀ c ∈ cells, c.1 ≠ a) → readByte (writeCells m cells) a = readByte m a := by
  induction cells with
  | nil => exact fun _ => rfl
  | cons c rest ih =>
    intro m h
    have hc : c.1 ≠ a := h c List.mem_cons_self
    exact (ih (m := writeByte m c.1 c.2) fun d hd => h d (List.mem_cons_of_mem _ hd)).trans (readByte_writeByte_other hc.symm)

/-- When no address is written twice, a read of a written byte gives the value written there. -/
theorem readByte_writeCells_mem {a : Nat} {v : Byte} (cells : List Host.Cell) :
    ∀ {m : Memory}, m.wf = true → (cells.map (·.1)).Nodup → (a, v) ∈ cells → readByte (writeCells m cells) a = v := by
  induction cells with
  | nil => exact fun _ _ h => absurd h List.not_mem_nil
  | cons c rest ih =>
    intro m hm hn h
    simp only [List.map_cons, List.nodup_cons, List.mem_map, not_exists, not_and] at hn
    rcases List.mem_cons.1 h with h | h
    · subst h
      refine (readByte_writeCells_other rest (m := writeByte m a v) fun d hd => ?_).trans (readByte_writeByte_same hm a v)
      exact hn.1 d hd
    · exact ih (writeByte_wf hm c.1 c.2) hn.2 h

/-- A list of writes after another. -/
theorem writeCells_append (m : Memory) (xs ys : List Host.Cell) :
    writeCells m (xs ++ ys) = writeCells (writeCells m xs) ys := List.foldl_append ..

@[simp] theorem writeCells_nil (m : Memory) : writeCells m [] = m := rfl

/-- A byte that is written reads the same afterwards, whatever memory held before. -/
theorem readByte_writeCells_written {m m' : Memory} {a : Nat} (hm : m.wf = true) (hm' : m'.wf = true) :
    ∀ {cells : List Host.Cell}, (∃ v, (a, v) ∈ cells) → readByte (writeCells m cells) a = readByte (writeCells m' cells) a := by
  intro cells h
  induction cells using List.reverseRecOn with
  | nil => obtain ⟨v, h⟩ := h; cases h
  | append_singleton cs c ih =>
    rw [writeCells_append, writeCells_append]
    by_cases hc : c.1 = a
    · subst hc
      exact (readByte_writeByte_same (writeCells_wf cs hm) ..).trans (readByte_writeByte_same (writeCells_wf cs hm') ..).symm
    · have hne : a ≠ c.1 := Ne.symm hc
      refine (readByte_writeByte_other hne).trans ((ih ?_).trans (readByte_writeByte_other hne).symm)
      obtain ⟨v, hv⟩ := h
      rcases List.mem_append.1 hv with hv | hv
      · exact ⟨v, hv⟩
      · exact absurd (by rw [← List.mem_singleton.1 hv]) hc

/-! ### The cells of a destination -/

@[simp] theorem mem_cellsOfWord {c : Host.Cell} {a n : Nat} {v : Word} :
    c ∈ cellsOfWord a n v ↔ ∃ k, k < n ∧ c = (a + k, byteOfWord v k) := by
  simp [cellsOfWord, eq_comm]

@[simp] theorem mem_dstCells {c : Host.Cell} {da n : Nat} {f : Nat → Word} :
    c ∈ dstCells da n f ↔ ∃ k, k < n ∧ ∃ j, j < 4 ∧ c = (da + 4 * k + j, byteOfWord (f k) j) := by
  simp [dstCells]

theorem map_fst_dstCells (da n : Nat) (f : Nat → Word) :
    (dstCells da n f).map (·.1) = (List.range (4 * n)).map (da + ·) := by
  induction n with
  | zero => rfl
  | succ n ih =>
    have h : dstCells da (n + 1) f = dstCells da n f ++ cellsOfWord (da + 4 * n) 4 (f n) := by
      simp [dstCells, List.range_succ]
    rw [h, List.map_append, ih, show 4 * (n + 1) = 4 * n + 1 + 1 + 1 + 1 by omega]
    simp [List.range_succ, cellsOfWord, Nat.add_assoc]

theorem nodup_dstCells (da n : Nat) (f : Nat → Word) : ((dstCells da n f).map (·.1)).Nodup := by
  rw [map_fst_dstCells]
  exact List.nodup_range.map fun a b h => by simpa using h

/-- Every byte of a destination lies in its region. -/
theorem dstCells_inside {c : Host.Cell} {da n : Nat} {f : Nat → Word} (h : c ∈ dstCells da n f) :
    da ≤ c.1 ∧ c.1 < da + 4 * n := by
  obtain ⟨k, hk, j, hj, rfl⟩ := mem_dstCells.1 h
  simp only
  omega

/-- Four bytes of a word put together again. -/
theorem wordOfBytes_byteOfWord (v : Word) :
    wordOfBytes (byteOfWord v 0) (byteOfWord v 1) (byteOfWord v 2) (byteOfWord v 3) = v := by
  unfold wordOfBytes byteOfWord
  rw [BitVec.extractLsb'_append_extractLsb'_eq_extractLsb' (by rfl), BitVec.extractLsb'_append_extractLsb'_eq_extractLsb' (by rfl),
    BitVec.extractLsb'_append_extractLsb'_eq_extractLsb' (by rfl)]
  simp

/-- Element `k` of a destination reads back as written. -/
theorem readWord_dstCells {m : Memory} (h : m.wf = true) {da n k : Nat} (f : Nat → Word) (hk : k < n) :
    readWord (writeCells m (dstCells da n f)) (da + 4 * k) = f k := by
  have key : ∀ j, j < 4 → readByte (writeCells m (dstCells da n f)) (da + 4 * k + j) = byteOfWord (f k) j := fun j hj =>
    readByte_writeCells_mem _ h (nodup_dstCells da n f) (mem_dstCells.2 ⟨k, hk, j, hj, rfl⟩)
  unfold readWord
  rw [show da + 4 * k = da + 4 * k + 0 from rfl, key 0 (by omega)]
  rw [show da + 4 * k + 0 + 1 = da + 4 * k + 1 from rfl, key 1 (by omega), show da + 4 * k + 0 + 2 = da + 4 * k + 2 from rfl,
    key 2 (by omega), show da + 4 * k + 0 + 3 = da + 4 * k + 3 from rfl, key 3 (by omega)]
  exact wordOfBytes_byteOfWord (f k)

/-- Free bytes are written only inside their region and inside memory. -/
theorem freeCells_inside {c : Host.Cell} {draw memBytes : Nat} {r : Option Region} (h : c ∈ freeCells draw memBytes r) :
    c.1 < memBytes ∧ ∃ q ∈ r, q.covers c.1 = true := by
  cases r with
  | none => exact absurd h List.not_mem_nil
  | some q =>
    simp only [freeCells, List.mem_filter, List.mem_map, List.mem_range, decide_eq_true_eq] at h
    obtain ⟨⟨k, hk, rfl⟩, hb⟩ := h
    exact ⟨hb, q, rfl, by simp [Region.covers]; omega⟩

/-- The free bytes of an earlier command lie inside its write region and inside memory, and no later command wrote them. -/
theorem launch_freeCells_inside {c : Host.Cell} {l : Launch} {draw memBytes : Nat} (h : c ∈ l.freeCells draw memBytes) :
    c.1 < memBytes ∧ (∃ q ∈ (footprint l.instr l.ops).write, q.covers c.1 = true) ∧ ∀ r ∈ l.rewritten, r.covers c.1 = false := by
  simp only [Launch.freeCells, List.mem_filter, Bool.not_eq_true', List.any_eq_false, Bool.not_eq_true] at h
  exact ⟨(freeCells_inside h.1).1, (freeCells_inside h.1).2, h.2⟩

end Sys2Proof.Machine
end

