-- ==== Sys2Proof/Laws/State.lean ====
section
/-! SUPPORT. One lemma per field per shared update of the state, so that no proof unfolds a record update. -/

namespace Sys2Proof.Machine

/-! ### accept -/

@[simp] theorem accept_params (s : State) (v : Word) : (accept s v).params = s.params := rfl
@[simp] theorem accept_ie (s : State) (v : Word) : (accept s v).ie = s.ie := rfl
@[simp] theorem accept_status (s : State) (v : Word) : (accept s v).status = s.status.accepted := rfl
@[simp] theorem accept_ops (s : State) (v : Word) : (accept s v).ops = s.ops := rfl
@[simp] theorem accept_result (s : State) (v : Word) : (accept s v).result = s.result := rfl
@[simp] theorem accept_latch (s : State) (v : Word) : (accept s v).latch = { cmd := v, ops := s.ops } := rfl
@[simp] theorem accept_mem (s : State) (v : Word) : (accept s v).mem = s.mem := rfl
@[simp] theorem accept_agenda (s : State) (v : Word) : (accept s v).agenda = s.agenda := rfl
@[simp] theorem accept_resetHeld (s : State) (v : Word) : (accept s v).resetHeld = s.resetHeld := rfl
@[simp] theorem accept_busData (s : State) (v : Word) : (accept s v).busData = s.busData := rfl
@[simp] theorem accept_breached (s : State) (v : Word) : (accept s v).breached = false := rfl
@[simp] theorem accept_unobserved (s : State) (v : Word) : (accept s v).unobserved = s.unobserved := rfl
@[simp] theorem accept_draw (s : State) (v : Word) : (accept s v).draw = s.draw := rfl

/-! ### completeError -/

@[simp] theorem completeError_params (s : State) (c : ECode) : (completeError s c).params = s.params := rfl
@[simp] theorem completeError_ie (s : State) (c : ECode) : (completeError s c).ie = s.ie := rfl
@[simp] theorem completeError_status (s : State) (c : ECode) : (completeError s c).status = s.status.completed c false := rfl
@[simp] theorem completeError_ops (s : State) (c : ECode) : (completeError s c).ops = s.ops := rfl
@[simp] theorem completeError_result (s : State) (c : ECode) : (completeError s c).result = s.result := rfl
@[simp] theorem completeError_latch (s : State) (c : ECode) : (completeError s c).latch = s.latch := rfl
@[simp] theorem completeError_mem (s : State) (c : ECode) : (completeError s c).mem = s.mem := rfl
@[simp] theorem completeError_agenda (s : State) (c : ECode) : (completeError s c).agenda = s.agenda := rfl
@[simp] theorem completeError_resetHeld (s : State) (c : ECode) : (completeError s c).resetHeld = s.resetHeld := rfl
@[simp] theorem completeError_busData (s : State) (c : ECode) : (completeError s c).busData = s.busData := rfl
@[simp] theorem completeError_breached (s : State) (c : ECode) : (completeError s c).breached = false := rfl
@[simp] theorem completeError_unobserved (s : State) (c : ECode) : (completeError s c).unobserved = s.unobserved := rfl
@[simp] theorem completeError_draw (s : State) (c : ECode) : (completeError s c).draw = s.draw := rfl

/-! ### completeOk -/

@[simp] theorem completeOk_params (i : Instr) (s : State) (e : Effect) : (completeOk i s e).params = s.params := rfl
@[simp] theorem completeOk_ie (i : Instr) (s : State) (e : Effect) : (completeOk i s e).ie = s.ie := rfl
@[simp] theorem completeOk_status (i : Instr) (s : State) (e : Effect) : (completeOk i s e).status = s.status.completed .ok e.rc := rfl
@[simp] theorem completeOk_ops (i : Instr) (s : State) (e : Effect) : (completeOk i s e).ops = { s.ops with scale := e.scale.getD s.ops.scale } := rfl
@[simp] theorem completeOk_result (i : Instr) (s : State) (e : Effect) : (completeOk i s e).result = e.result.getD s.result := rfl
@[simp] theorem completeOk_latch (i : Instr) (s : State) (e : Effect) : (completeOk i s e).latch = s.latch := rfl
@[simp] theorem completeOk_mem (i : Instr) (s : State) (e : Effect) : (completeOk i s e).mem = writeCells s.mem e.writes := rfl
@[simp] theorem completeOk_agenda (i : Instr) (s : State) (e : Effect) : (completeOk i s e).agenda = s.agenda := rfl
@[simp] theorem completeOk_resetHeld (i : Instr) (s : State) (e : Effect) : (completeOk i s e).resetHeld = s.resetHeld := rfl
@[simp] theorem completeOk_busData (i : Instr) (s : State) (e : Effect) : (completeOk i s e).busData = s.busData := rfl
@[simp] theorem completeOk_breached (i : Instr) (s : State) (e : Effect) : (completeOk i s e).breached = false := rfl
@[simp] theorem completeOk_unobserved (i : Instr) (s : State) (e : Effect) : (completeOk i s e).unobserved = .fresh i s.latch.ops :: s.unobserved.map (.succeededBy i s.latch.ops) := rfl
@[simp] theorem completeOk_draw (i : Instr) (s : State) (e : Effect) : (completeOk i s e).draw = if dutyBroken i s then s.draw + 1 else s.draw := rfl

/-! ### breakDuty -/

@[simp] theorem breakDuty_params (s : State) (l : Launch) : (breakDuty s l).params = s.params := rfl
@[simp] theorem breakDuty_ie (s : State) (l : Launch) : (breakDuty s l).ie = s.ie := rfl
@[simp] theorem breakDuty_status (s : State) (l : Launch) : (breakDuty s l).status = { s.status with rcode := if s.rcodeIsOf l then Config.freeFlag s.draw else s.status.rcode } := rfl
@[simp] theorem breakDuty_ops (s : State) (l : Launch) : (breakDuty s l).ops = { s.ops with scale := if l.instr = .ldscale ∧ l.registerKept then Config.freeWord s.draw else s.ops.scale } := rfl
@[simp] theorem breakDuty_result (s : State) (l : Launch) : (breakDuty s l).result = if l.instr = .locate ∧ l.registerKept then freeResult s.draw else s.result := rfl
@[simp] theorem breakDuty_latch (s : State) (l : Launch) : (breakDuty s l).latch = s.latch := rfl
@[simp] theorem breakDuty_mem (s : State) (l : Launch) : (breakDuty s l).mem = writeCells s.mem (l.freeCells s.draw s.params.memBytes) := rfl
@[simp] theorem breakDuty_agenda (s : State) (l : Launch) : (breakDuty s l).agenda = s.agenda := rfl
@[simp] theorem breakDuty_resetHeld (s : State) (l : Launch) : (breakDuty s l).resetHeld = s.resetHeld := rfl
@[simp] theorem breakDuty_busData (s : State) (l : Launch) : (breakDuty s l).busData = s.busData := rfl
@[simp] theorem breakDuty_breached (s : State) (l : Launch) : (breakDuty s l).breached = s.breached := rfl
@[simp] theorem breakDuty_unobserved (s : State) (l : Launch) : (breakDuty s l).unobserved = s.unobserved := rfl
@[simp] theorem breakDuty_draw (s : State) (l : Launch) : (breakDuty s l).draw = s.draw + 1 := rfl

/-! ### hostReadMem -/

@[simp] theorem hostReadMem_params (s : State) (a : Nat) (w : Width) : (hostReadMem s a w).params = s.params := rfl
@[simp] theorem hostReadMem_ie (s : State) (a : Nat) (w : Width) : (hostReadMem s a w).ie = s.ie := rfl
@[simp] theorem hostReadMem_status (s : State) (a : Nat) (w : Width) : (hostReadMem s a w).status = s.status := rfl
@[simp] theorem hostReadMem_ops (s : State) (a : Nat) (w : Width) : (hostReadMem s a w).ops = s.ops := rfl
@[simp] theorem hostReadMem_result (s : State) (a : Nat) (w : Width) : (hostReadMem s a w).result = s.result := rfl
@[simp] theorem hostReadMem_latch (s : State) (a : Nat) (w : Width) : (hostReadMem s a w).latch = s.latch := rfl
@[simp] theorem hostReadMem_mem (s : State) (a : Nat) (w : Width) : (hostReadMem s a w).mem = s.mem := rfl
@[simp] theorem hostReadMem_agenda (s : State) (a : Nat) (w : Width) : (hostReadMem s a w).agenda = s.agenda := rfl
@[simp] theorem hostReadMem_resetHeld (s : State) (a : Nat) (w : Width) : (hostReadMem s a w).resetHeld = s.resetHeld := rfl
@[simp] theorem hostReadMem_busData (s : State) (a : Nat) (w : Width) : (hostReadMem s a w).busData = loadBytes (widthBytes w) fun k => hostByte s (a + k) := rfl
@[simp] theorem hostReadMem_breached (s : State) (a : Nat) (w : Width) : (hostReadMem s a w).breached = s.breached := rfl
@[simp] theorem hostReadMem_unobserved (s : State) (a : Nat) (w : Width) : (hostReadMem s a w).unobserved = s.unobserved := rfl
@[simp] theorem hostReadMem_draw (s : State) (a : Nat) (w : Width) : (hostReadMem s a w).draw = if (runningFootprint s).write.any (·.overlaps ⟨a, widthBytes w⟩) then s.draw + 1 else s.draw := rfl

/-! ### resetStep -/

@[simp] theorem resetStep_params (s : State) (h : Bool) : (resetStep s h).params = s.params := rfl
@[simp] theorem resetStep_ie (s : State) (h : Bool) : (resetStep s h).ie = false := rfl
@[simp] theorem resetStep_status (s : State) (h : Bool) : (resetStep s h).status = Status.reset := rfl
@[simp] theorem resetStep_ops (s : State) (h : Bool) : (resetStep s h).ops = Operands.reset := rfl
@[simp] theorem resetStep_result (s : State) (h : Bool) : (resetStep s h).result = 0#32 := rfl
@[simp] theorem resetStep_latch (s : State) (h : Bool) : (resetStep s h).latch = Latch.reset := rfl
@[simp] theorem resetStep_mem (s : State) (h : Bool) : (resetStep s h).mem = writeCells s.mem (freeCells s.draw s.params.memBytes (runningFootprint s).write) := rfl
@[simp] theorem resetStep_agenda (s : State) (h : Bool) : (resetStep s h).agenda = s.agenda := rfl
@[simp] theorem resetStep_resetHeld (s : State) (h : Bool) : (resetStep s h).resetHeld = h := rfl
@[simp] theorem resetStep_busData (s : State) (h : Bool) : (resetStep s h).busData = s.busData := rfl
@[simp] theorem resetStep_breached (s : State) (h : Bool) : (resetStep s h).breached = false := rfl
@[simp] theorem resetStep_unobserved (s : State) (h : Bool) : (resetStep s h).unobserved = [] := rfl
@[simp] theorem resetStep_draw (s : State) (h : Bool) : (resetStep s h).draw = if s.status.busy then s.draw + 1 else s.draw := rfl

/-! ### The flags -/

@[simp] theorem accepted_busy (f : Status) : f.accepted.busy = true := rfl
@[simp] theorem accepted_done (f : Status) : f.accepted.done = false := rfl
@[simp] theorem accepted_rcode (f : Status) : f.accepted.rcode = false := rfl
@[simp] theorem accepted_ovr (f : Status) : f.accepted.ovr = f.ovr := rfl
@[simp] theorem accepted_ecode (f : Status) : f.accepted.ecode = .ok := rfl
@[simp] theorem completed_busy (f : Status) (c : ECode) (rc : Bool) : (f.completed c rc).busy = false := rfl
@[simp] theorem completed_done (f : Status) (c : ECode) (rc : Bool) : (f.completed c rc).done = true := rfl
@[simp] theorem completed_ovr (f : Status) (c : ECode) (rc : Bool) : (f.completed c rc).ovr = f.ovr := rfl
@[simp] theorem completed_ecode (f : Status) (c : ECode) (rc : Bool) : (f.completed c rc).ecode = c := rfl
@[simp] theorem completed_rcode (f : Status) (c : ECode) (rc : Bool) : (f.completed c rc).rcode = ((c == .ok) && rc) := rfl
@[simp] theorem completed_ok_rcode (f : Status) (rc : Bool) : (f.completed .ok rc).rcode = rc := by simp
@[simp] theorem hostWrite_busy (f : Status) (v : Word) : (f.hostWrite v).busy = f.busy := rfl
@[simp] theorem hostWrite_done (f : Status) (v : Word) : (f.hostWrite v).done = (f.done && !v.getLsbD 1) := rfl
@[simp] theorem hostWrite_rcode (f : Status) (v : Word) : (f.hostWrite v).rcode = f.rcode := rfl
@[simp] theorem hostWrite_ovr (f : Status) (v : Word) : (f.hostWrite v).ovr = (f.ovr && !v.getLsbD 4) := rfl
@[simp] theorem hostWrite_ecode (f : Status) (v : Word) : (f.hostWrite v).ecode = f.ecode := rfl
@[simp] theorem overrun_busy (f : Status) : f.overrun.busy = f.busy := rfl
@[simp] theorem overrun_done (f : Status) : f.overrun.done = f.done := rfl
@[simp] theorem overrun_rcode (f : Status) : f.overrun.rcode = f.rcode := rfl
@[simp] theorem overrun_ovr (f : Status) : f.overrun.ovr = true := rfl
@[simp] theorem overrun_ecode (f : Status) : f.overrun.ecode = f.ecode := rfl

end Sys2Proof.Machine
end

