-- ==== Sys2Proof/Laws/Ops.lean ====
section
/-! SUPPORT. For each shared operation, what it can do, said once: the checks, the completion step, the effect of each
command, register and memory accesses of the host, reset, and the step. Later proofs cite these and do not unfold the
operations. -/

namespace Sys2Proof.Machine

/-! ### The checks -/

/-- A command completes with code 0 exactly when every check passes (R222). -/
theorem checkCode_eq_ok {i : Instr} {n : Nat} {o : Operands} :
    checkCode i n o = .ok ↔
      dimensionOk i o = true ∧ alignmentOk i o = true ∧ (footprint i o).fits n = true ∧ (footprint i o).selfOverlaps = false := by
  unfold checkCode
  cases dimensionOk i o <;> cases alignmentOk i o <;> cases (footprint i o).fits n <;> cases (footprint i o).selfOverlaps <;> simp

/-- The decoder's error is never a check's. -/
theorem checkCode_ne_illegal {i : Instr} {n : Nat} {o : Operands} : checkCode i n o ≠ .illegalCmd := by
  unfold checkCode
  split_ifs <;> simp

/-- NOP passes every check (R132). -/
@[simp] theorem checkCode_nop (n : Nat) (o : Operands) : checkCode .nop n o = .ok := by
  simp [checkCode_eq_ok, dimensionOk, alignmentOk, footprint, Footprint.fits, Footprint.all, Footprint.selfOverlaps]

/-- A command whose checks pass has its write region inside memory. -/
theorem write_fits_of_ok {i : Instr} {n : Nat} {o : Operands} (h : checkCode i n o = .ok) :
    ∀ q ∈ (footprint i o).write, q.start + q.len ≤ n := by
  intro q hq
  have hf := (checkCode_eq_ok.1 h).2.2.1
  simp only [Footprint.fits, List.all_eq_true] at hf
  have := hf q (by simp [Footprint.all, Option.mem_def.1 hq])
  simpa [Region.fits] using this

/-! ### The memory duty after a completion -/

@[simp] theorem breakDuty_busy (s : State) (l : Launch) : (breakDuty s l).status.busy = s.status.busy := rfl
@[simp] theorem breakDuty_done (s : State) (l : Launch) : (breakDuty s l).status.done = s.status.done := rfl
@[simp] theorem breakDuty_ovr (s : State) (l : Launch) : (breakDuty s l).status.ovr = s.status.ovr := rfl
@[simp] theorem breakDuty_ecode (s : State) (l : Launch) : (breakDuty s l).status.ecode = s.status.ecode := rfl
@[simp] theorem rcodeIsOf_breakDuty (s : State) (l k : Launch) : (breakDuty s l).rcodeIsOf k = s.rcodeIsOf k := rfl

/-- A property of states that `breakDuty` keeps for the touched commands survives a write that touches them. -/
theorem breakTouched_induction {P : State → Prop} {s : State} {q : Region}
    (hP : ∀ l ∈ touchedLaunches s q, ∀ t, P t → P (breakDuty t l)) (hs : P s) : P (breakTouched s q) := by
  unfold breakTouched
  generalize hs' : s = s' at hs
  rw [hs'] at hP
  generalize touchedLaunches s' q = ls at hP
  clear hs'
  induction ls generalizing s' with
  | nil => exact hs
  | cons l rest ih => exact ih _ (hP l List.mem_cons_self _ hs) fun k hk => hP k (List.mem_cons_of_mem _ hk)

/-- The commands whose duty an access breaks: completed, unobserved, with a region that meets it. -/
theorem mem_touchedLaunches {s : State} {q : Region} {l : Launch} :
    l ∈ touchedLaunches s q ↔ l ∈ s.unobserved ∧ ∃ r ∈ (footprint l.instr l.ops).all, q.overlaps r = true := by
  simp [touchedLaunches, Launch.touchedBy, Footprint.touchedBy]

/-- A write that touches no completed, unobserved command breaks no duty. -/
theorem breakTouched_untouched {s : State} {q : Region} (h : touchedLaunches s q = []) : breakTouched s q = s := by
  simp [breakTouched, h]

/-- What a broken duty never changes: everything but memory, `RESULT`, `SCALE`, `RCODE` and the count of draws. -/
theorem breakTouched_frame (s : State) (q : Region) :
    breakTouched s q =
      { s with mem := (breakTouched s q).mem
               result := (breakTouched s q).result
               ops := { s.ops with scale := (breakTouched s q).ops.scale }
               status := { s.status with rcode := (breakTouched s q).status.rcode }
               draw := (breakTouched s q).draw } := by
  refine breakTouched_induction (P := fun t => t =
    { s with mem := t.mem, result := t.result, ops := { s.ops with scale := t.ops.scale }
             status := { s.status with rcode := t.status.rcode }, draw := t.draw }) (fun l _ t ht => ?_) rfl
  rw [ht]
  rfl

/-- `RESULT` changes only to a free code, and only for a touched LOCATE whose code still stands in it (R46, R86). -/
theorem breakTouched_result (s : State) (q : Region) :
    (breakTouched s q).result = s.result ∨
      (∃ d, (breakTouched s q).result = freeResult d) ∧
        ∃ l ∈ touchedLaunches s q, l.instr = .locate ∧ l.registerKept = true := by
  refine breakTouched_induction (P := fun t => t.result = s.result ∨ (∃ d, t.result = freeResult d) ∧
    ∃ l ∈ touchedLaunches s q, l.instr = .locate ∧ l.registerKept = true) (fun l hl t ht => ?_) (.inl rfl)
  rw [breakDuty_result]
  split
  · rename_i h; exact .inr ⟨⟨_, rfl⟩, l, hl, h⟩
  · exact ht

/-- `SCALE` changes only for a touched LDSCALE whose value still stands in it (R42, R86). -/
theorem breakTouched_scale (s : State) (q : Region) :
    (breakTouched s q).ops.scale = s.ops.scale ∨
      ∃ l ∈ touchedLaunches s q, l.instr = .ldscale ∧ l.registerKept = true := by
  refine breakTouched_induction (P := fun t => t.ops.scale = s.ops.scale ∨
    ∃ l ∈ touchedLaunches s q, l.instr = .ldscale ∧ l.registerKept = true) (fun l hl t ht => ?_) (.inl rfl)
  simp only [breakDuty_ops]
  split
  · rename_i h; exact .inr ⟨l, hl, h⟩
  · exact ht

/-- `RCODE` changes only for a touched command that was the last to complete (R35, R86). -/
theorem breakTouched_rcode (s : State) (q : Region) :
    (breakTouched s q).status.rcode = s.status.rcode ∨ ∃ l ∈ touchedLaunches s q, s.rcodeIsOf l = true := by
  refine (breakTouched_induction (P := fun t => (∀ k, t.rcodeIsOf k = s.rcodeIsOf k) ∧
    (t.status.rcode = s.status.rcode ∨ ∃ l ∈ touchedLaunches s q, s.rcodeIsOf l = true)) (fun l hl t ht => ?_)
    ⟨fun _ => rfl, .inl rfl⟩).2
  refine ⟨fun k => ht.1 k, ?_⟩
  simp only [breakDuty_status]
  split
  · rename_i h; exact .inr ⟨l, hl, ht.1 l ▸ h⟩
  · exact ht.2

/-- Memory changes only in the write regions of touched commands, where no later command wrote (R86). -/
theorem breakTouched_mem (s : State) (q : Region) (a : Nat) :
    readByte (breakTouched s q).mem a = readByte s.mem a ∨
      ∃ l ∈ touchedLaunches s q, (∃ w ∈ (footprint l.instr l.ops).write, w.covers a = true) ∧
        ∀ r ∈ l.rewritten, r.covers a = false := by
  refine breakTouched_induction (P := fun t => readByte t.mem a = readByte s.mem a ∨
    ∃ l ∈ touchedLaunches s q, (∃ w ∈ (footprint l.instr l.ops).write, w.covers a = true) ∧
      ∀ r ∈ l.rewritten, r.covers a = false) (fun l hl t ht => ?_) (.inl rfl)
  by_cases hc : ∃ c ∈ l.freeCells t.draw t.params.memBytes, c.1 = a
  · obtain ⟨c, hc, rfl⟩ := hc
    exact .inr ⟨l, hl, (launch_freeCells_inside hc).2⟩
  · rw [breakDuty_mem, readByte_writeCells_other]
    · exact ht
    · intro c hm he
      exact hc ⟨c, hm, he⟩

/-- A broken duty keeps memory in its canonical form and inside `MEM_BYTES`. -/
theorem breakTouched_memory_wf {s : State} (q : Region) (hw : s.mem.wf = true) (hi : ∀ c ∈ s.mem, c.1 < s.params.memBytes) :
    (breakTouched s q).mem.wf = true ∧ ∀ c ∈ (breakTouched s q).mem, c.1 < s.params.memBytes :=
  (breakTouched_induction (P := fun t => t.params = s.params ∧ t.mem.wf = true ∧ ∀ c ∈ t.mem, c.1 < s.params.memBytes)
    (fun _ _ _ ht => ⟨ht.1, writeCells_wf _ ht.2.1,
      writeCells_below ht.2.2 fun _ hc => ht.1 ▸ (launch_freeCells_inside hc).1⟩) ⟨rfl, hw, hi⟩).2

/-- A command that is about to succeed breaks no earlier duty, or those of the commands its write region touches. -/
theorem breakEarlier_cases (i : Instr) (s : State) :
    breakEarlier i s = s ∨ ∃ q, (footprint i s.latch.ops).write = some q ∧ breakEarlier i s = breakTouched s q := by
  unfold breakEarlier
  split
  · exact .inl rfl
  · rename_i q hq; exact .inr ⟨q, hq, rfl⟩

/-- A command that touches no earlier, unobserved command breaks no earlier duty. -/
theorem breakEarlier_untouched {i : Instr} {s : State}
    (h : ∀ q ∈ (footprint i s.latch.ops).write, touchedLaunches s q = []) : breakEarlier i s = s := by
  rcases breakEarlier_cases i s with hs | ⟨q, hq, hs⟩
  · exact hs
  · rw [hs, breakTouched_untouched (h q hq)]

/-- NOP, LOCATE and LDSCALE write no memory, so they break no duty. -/
@[simp] theorem breakEarlier_nop (s : State) : breakEarlier .nop s = s := rfl
@[simp] theorem breakEarlier_locate (s : State) : breakEarlier .locate s = s := rfl
@[simp] theorem breakEarlier_ldscale (s : State) : breakEarlier .ldscale s = s := rfl

/-- What breaking earlier duties never changes. -/
theorem breakEarlier_frame (i : Instr) (s : State) :
    breakEarlier i s =
      { s with mem := (breakEarlier i s).mem
               result := (breakEarlier i s).result
               ops := { s.ops with scale := (breakEarlier i s).ops.scale }
               status := { s.status with rcode := (breakEarlier i s).status.rcode }
               draw := (breakEarlier i s).draw } := by
  rcases breakEarlier_cases i s with hs | ⟨q, _, hs⟩
  · rw [hs]
  · rw [hs]; exact breakTouched_frame s q

@[simp] theorem breakEarlier_params (i : Instr) (s : State) : (breakEarlier i s).params = s.params := by rw [breakEarlier_frame]
@[simp] theorem breakEarlier_ie (i : Instr) (s : State) : (breakEarlier i s).ie = s.ie := by rw [breakEarlier_frame]
@[simp] theorem breakEarlier_latch (i : Instr) (s : State) : (breakEarlier i s).latch = s.latch := by rw [breakEarlier_frame]
@[simp] theorem breakEarlier_resetHeld (i : Instr) (s : State) : (breakEarlier i s).resetHeld = s.resetHeld := by rw [breakEarlier_frame]
@[simp] theorem breakEarlier_agenda (i : Instr) (s : State) : (breakEarlier i s).agenda = s.agenda := by rw [breakEarlier_frame]
@[simp] theorem breakEarlier_busData (i : Instr) (s : State) : (breakEarlier i s).busData = s.busData := by rw [breakEarlier_frame]
@[simp] theorem breakEarlier_breached (i : Instr) (s : State) : (breakEarlier i s).breached = s.breached := by rw [breakEarlier_frame]
@[simp] theorem breakEarlier_unobserved (i : Instr) (s : State) : (breakEarlier i s).unobserved = s.unobserved := by rw [breakEarlier_frame]
@[simp] theorem breakEarlier_busy (i : Instr) (s : State) : (breakEarlier i s).status.busy = s.status.busy := by rw [breakEarlier_frame]
@[simp] theorem breakEarlier_done (i : Instr) (s : State) : (breakEarlier i s).status.done = s.status.done := by rw [breakEarlier_frame]
@[simp] theorem breakEarlier_ovr (i : Instr) (s : State) : (breakEarlier i s).status.ovr = s.status.ovr := by rw [breakEarlier_frame]
@[simp] theorem breakEarlier_ecode (i : Instr) (s : State) : (breakEarlier i s).status.ecode = s.status.ecode := by rw [breakEarlier_frame]

/-! ### The completion step -/

/-- Everything the completion step can do when it answers a next state. -/
theorem complete_cases {i : Instr} {s t : State} {e : Operands → Memory → Effect} (h : complete i s e = .next t) :
    (checkCode i s.params.memBytes s.latch.ops ≠ .ok ∧ t = completeError s (checkCode i s.params.memBytes s.latch.ops)) ∨
    (checkCode i s.params.memBytes s.latch.ops = .ok ∧ (footprint i s.latch.ops).coversWindow s.params = false ∧
      t = succeededState i s e) := by
  unfold complete at h
  split at h
  · rename_i hc
    split at h
    · cases h
    · rename_i hw
      cases h
      exact .inr ⟨hc, by simpa using hw, rfl⟩
  · rename_i hc
    cases h
    exact .inl ⟨hc, rfl⟩

/-- The completion step of a command that fails a check. -/
theorem complete_of_error {i : Instr} {s : State} {e : Operands → Memory → Effect}
    (h : checkCode i s.params.memBytes s.latch.ops ≠ .ok) :
    complete i s e = .next (completeError s (checkCode i s.params.memBytes s.latch.ops)) := by
  unfold complete
  split
  · contradiction
  · rfl

/-- The completion step of a command whose checks pass and whose regions keep clear of the window. -/
theorem complete_of_ok {i : Instr} {s : State} {e : Operands → Memory → Effect}
    (h : checkCode i s.params.memBytes s.latch.ops = .ok) (hw : (footprint i s.latch.ops).coversWindow s.params = false) :
    complete i s e = .next (succeededState i s e) := by
  unfold complete
  rw [h, hw]
  rfl

/-- A command whose duty was kept performs its own effect. -/
@[simp] theorem effectDue_kept {i : Instr} {s : State} {e : Effect} (h : s.breached = false) : effectDue i s e = e := by
  simp [effectDue, dutyBroken, h]

/-- A command with no region performs its own effect. -/
@[simp] theorem effectDue_nop {s : State} {e : Effect} : effectDue .nop s e = e := by
  simp [effectDue, dutyBroken, footprint, Footprint.all]

@[simp] theorem succeededState_params (i : Instr) (s : State) (e : Operands → Memory → Effect) :
    (succeededState i s e).params = s.params := by simp [succeededState]
@[simp] theorem succeededState_ie (i : Instr) (s : State) (e : Operands → Memory → Effect) :
    (succeededState i s e).ie = s.ie := by simp [succeededState]
@[simp] theorem succeededState_latch (i : Instr) (s : State) (e : Operands → Memory → Effect) :
    (succeededState i s e).latch = s.latch := by simp [succeededState]
@[simp] theorem succeededState_resetHeld (i : Instr) (s : State) (e : Operands → Memory → Effect) :
    (succeededState i s e).resetHeld = s.resetHeld := by simp [succeededState]
@[simp] theorem succeededState_agenda (i : Instr) (s : State) (e : Operands → Memory → Effect) :
    (succeededState i s e).agenda = s.agenda := by simp [succeededState]
@[simp] theorem succeededState_busData (i : Instr) (s : State) (e : Operands → Memory → Effect) :
    (succeededState i s e).busData = s.busData := by simp [succeededState]
@[simp] theorem succeededState_breached (i : Instr) (s : State) (e : Operands → Memory → Effect) :
    (succeededState i s e).breached = false := by simp [succeededState]
@[simp] theorem succeededState_busy (i : Instr) (s : State) (e : Operands → Memory → Effect) :
    (succeededState i s e).status.busy = false := by simp [succeededState]
@[simp] theorem succeededState_done (i : Instr) (s : State) (e : Operands → Memory → Effect) :
    (succeededState i s e).status.done = true := by simp [succeededState]
@[simp] theorem succeededState_ovr (i : Instr) (s : State) (e : Operands → Memory → Effect) :
    (succeededState i s e).status.ovr = s.status.ovr := by simp [succeededState]
@[simp] theorem succeededState_ecode (i : Instr) (s : State) (e : Operands → Memory → Effect) :
    (succeededState i s e).status.ecode = .ok := by simp [succeededState]

@[simp] theorem succeededState_unobserved (i : Instr) (s : State) (e : Operands → Memory → Effect) :
    (succeededState i s e).unobserved = .fresh i s.latch.ops :: s.unobserved.map (.succeededBy i s.latch.ops) := by
  simp [succeededState]

/-- The completion of a command whose duty was kept and which touches no earlier, unobserved command. -/
theorem succeededState_kept {i : Instr} {s : State} {e : Operands → Memory → Effect} (hb : s.breached = false)
    (ht : ∀ q ∈ (footprint i s.latch.ops).write, touchedLaunches s q = []) :
    succeededState i s e = completeOk i s (e s.latch.ops s.mem) := by
  simp only [succeededState, breakEarlier_untouched ht, effectDue_kept hb]

/-! ### The effect of each command -/

/-- The effect `Execute` computes for a command (R56). -/
def effectOf (i : Instr) (o : Operands) (m : Memory) : Effect :=
  match i with
  | .nop       => effectNop o m
  | .locate    => effectLocate o m
  | .unpack    => effectUnpack o m
  | .ldscale   => effectLdscale o m
  | .matvec    => effectMatvec o m
  | .matvecT   => effectMatvecT o m
  | .matvecI8  => effectMatvecI8 o m
  | .matvecTI8 => effectMatvecTI8 o m

/-- Every command is the one completion step on its own effect. -/
theorem exec_eq_complete (i : Instr) (s : State) : exec i s = complete i s (effectOf i) := by
  cases i <;> rfl

/-- Everything a command can do when it answers a next state. -/
theorem exec_cases {i : Instr} {s t : State} (h : exec i s = .next t) :
    (checkCode i s.params.memBytes s.latch.ops ≠ .ok ∧ t = completeError s (checkCode i s.params.memBytes s.latch.ops)) ∨
    (checkCode i s.params.memBytes s.latch.ops = .ok ∧ (footprint i s.latch.ops).coversWindow s.params = false ∧
      t = succeededState i s (effectOf i)) :=
  complete_cases (exec_eq_complete i s ▸ h)

/-- A command writes memory only inside its write region (R81). -/
theorem effectOf_writes_inside {i : Instr} {o : Operands} {m : Memory} {c : Host.Cell} (h : c ∈ (effectOf i o m).writes) :
    ∃ q ∈ (footprint i o).write, q.covers c.1 = true := by
  cases i
  case nop | locate | ldscale => exact absurd h List.not_mem_nil
  case unpack =>
    simp only [effectOf, effectUnpack, List.mem_map, List.mem_range] at h
    obtain ⟨j, hj, rfl⟩ := h
    exact ⟨⟨o.da, 128⟩, rfl, by simp [Region.covers]; omega⟩
  case matvec => exact ⟨⟨o.da, 4 * o.rowsN⟩, rfl, by simpa [Region.covers] using dstCells_inside h⟩
  case matvecT => exact ⟨⟨o.da, 4 * o.colsN⟩, rfl, by simpa [Region.covers] using dstCells_inside h⟩
  case matvecI8 => exact ⟨⟨o.da, 4 * o.colsN⟩, rfl, by simpa [Region.covers] using dstCells_inside h⟩
  case matvecTI8 => exact ⟨⟨o.da, 4 * o.rowsN⟩, rfl, by simpa [Region.covers] using dstCells_inside h⟩

/-- A command writes every byte of its write region (R89). -/
theorem effectOf_writes_cover {i : Instr} {o : Operands} {m : Memory} {q : Region} {a : Nat}
    (hq : (footprint i o).write = some q) (ha : q.covers a = true) : ∃ v, (a, v) ∈ (effectOf i o m).writes := by
  have key : ∀ da n (f : Nat → Word), da ≤ a → a < da + 4 * n → ∃ v, (a, v) ∈ dstCells da n f := fun da n f h1 h2 =>
    ⟨byteOfWord (f ((a - da) / 4)) ((a - da) % 4),
      mem_dstCells.2 ⟨(a - da) / 4, by omega, (a - da) % 4, by omega, Prod.ext (by simp only; omega) rfl⟩⟩
  cases i <;> cases hq <;> simp only [Region.covers, decide_eq_true_eq] at ha
  case unpack =>
    exact ⟨(0#6 ++ unpackCode o m (a - o.da) : Byte),
      List.mem_map.2 ⟨a - o.da, List.mem_range.2 (by omega), Prod.ext (by simp only; omega) rfl⟩⟩
  all_goals exact key _ _ _ ha.1 ha.2

/-- The write performed at completion, free or not, lies inside the command's write region. -/
theorem effectDue_writes_inside {i : Instr} {s : State} {m : Memory} {c : Host.Cell}
    (h : c ∈ (effectDue i s (effectOf i s.latch.ops m)).writes) :
    ∃ q ∈ (footprint i s.latch.ops).write, q.covers c.1 = true := by
  unfold effectDue at h
  split at h
  · exact (freeCells_inside h).2
  · exact effectOf_writes_inside h

/-- Only LOCATE updates `RESULT` (R46). -/
theorem effectDue_result {i : Instr} {s : State} {o : Operands} {m : Memory} (hi : i ≠ .locate) :
    (effectDue i s (effectOf i o m)).result = none := by
  unfold effectDue
  cases i <;> first | contradiction | (split <;> rfl)

/-- Only LDSCALE updates `SCALE` (R42). -/
theorem effectDue_scale {i : Instr} {s : State} {o : Operands} {m : Memory} (hi : i ≠ .ldscale) :
    (effectDue i s (effectOf i o m)).scale = none := by
  unfold effectDue
  cases i <;> first | contradiction | (split <;> rfl)

/-- A code read into a register leaves bits 31:2 zero (R46). -/
theorem toNat_zeroExtend_code (k : Code) : (0#30 ++ k : Word).toNat < 4 := by
  have h : (0#30 ++ k : Word).toNat = k.toNat := by
    rw [BitVec.toNat_append]
    simp
  exact h ▸ k.isLt

/-! ### Register writes of the host -/

/-- A register write changes no parameter. -/
@[simp] theorem writeReg_params (s : State) (r : Reg) (v : Word) : (writeReg s r v).params = s.params := by
  cases r <;> simp only [writeReg, writeCmd]
  split <;> rfl

/-- A register write changes no byte of memory. -/
@[simp] theorem writeReg_mem (s : State) (r : Reg) (v : Word) : (writeReg s r v).mem = s.mem := by
  cases r <;> simp only [writeReg, writeCmd]
  split <;> rfl

/-- A register write does not change `RESULT` (R46). -/
@[simp] theorem writeReg_result (s : State) (r : Reg) (v : Word) : (writeReg s r v).result = s.result := by
  cases r <;> simp only [writeReg, writeCmd]
  split <;> rfl

@[simp] theorem writeReg_agenda (s : State) (r : Reg) (v : Word) : (writeReg s r v).agenda = s.agenda := by
  cases r <;> simp only [writeReg, writeCmd]
  split <;> rfl

@[simp] theorem writeReg_busData (s : State) (r : Reg) (v : Word) : (writeReg s r v).busData = s.busData := by
  cases r <;> simp only [writeReg, writeCmd]
  split <;> rfl

@[simp] theorem writeReg_resetHeld (s : State) (r : Reg) (v : Word) : (writeReg s r v).resetHeld = s.resetHeld := by
  cases r <;> simp only [writeReg, writeCmd]
  split <;> rfl

/-- Only a write of `SCALE` touches the record of unobserved commands: an LDSCALE's value is replaced (log 6). -/
theorem writeReg_unobserved (s : State) (r : Reg) (v : Word) :
    (writeReg s r v).unobserved = if r = .scale then s.unobserved.map Launch.scaleReplaced else s.unobserved := by
  cases r <;> simp only [writeReg, writeCmd] <;> first | rfl | (split <;> rfl)

@[simp] theorem writeReg_draw (s : State) (r : Reg) (v : Word) : (writeReg s r v).draw = s.draw := by
  cases r <;> simp only [writeReg, writeCmd]
  split <;> rfl

/-- Only a write of `CMD` changes the latch (R50, R58). -/
theorem writeReg_latch {s : State} {r : Reg} (v : Word) (hr : r ≠ .cmd) : (writeReg s r v).latch = s.latch := by
  cases r <;> first | contradiction | rfl

/-- The status after a register write. -/
theorem writeReg_status (s : State) (r : Reg) (v : Word) :
    (writeReg s r v).status =
      if r = .status then s.status.hostWrite v
      else if r = .cmd then (if s.status.busy then s.status.overrun else s.status.accepted) else s.status := by
  cases r <;> simp [writeReg, writeCmd]
  split <;> rfl

/-- Whether the duty of R86 stands broken after a register write. -/
theorem writeReg_breached (s : State) (r : Reg) (v : Word) :
    (writeReg s r v).breached = if r = .cmd ∧ s.status.busy = false then false else s.breached := by
  cases r <;> simp [writeReg, writeCmd]
  cases s.status.busy <;> simp

/-- `regAt` is the inverse of `regOffset` (R32). -/
@[simp] theorem regAt_regOffset (r : Reg) : regAt (regOffset r) = some r := by cases r <;> rfl

/-- Two registers have different offsets (R32). -/
theorem regOffset_injective {r q : Reg} (h : regOffset r = regOffset q) : r = q :=
  Option.some.inj (by rw [← regAt_regOffset r, h, regAt_regOffset])

/-! ### Register reads of the host -/

/-- A register read changes the bus and, when it observes a completion, the window of R86; nothing else. -/
theorem hostReadReg_eq (s : State) (off : Nat) :
    hostReadReg s off = { s with busData := ((regAt off).map (readReg s)).getD 0#32
                                 unobserved := if regAt off = some .status ∧ s.status.busy = false then [] else s.unobserved } := by
  unfold hostReadReg
  split
  · rename_i h; simp [h]
  · rename_i h; cases s.status.busy <;> simp [h, readReg]
  · rename_i r hr h
    have hr' : r ≠ .status := hr
    simp [h, hr']

/-! ### Memory accesses of the host -/

/-- A host memory write: the bytes stored and the running command's duty, then the duties of the unobserved commands. -/
theorem hostWriteMem_eq (s : State) (a : Nat) (w : Width) (v : Word) :
    hostWriteMem s a w v = breakTouched
      { s with mem := writeCells s.mem (cellsOfWord a (widthBytes w) v)
               breached := s.breached || (runningFootprint s).touchedBy ⟨a, widthBytes w⟩ } ⟨a, widthBytes w⟩ := rfl

/-- What a host memory write never changes: everything but memory, the duty, `RESULT`, `SCALE`, `RCODE` and the draws. -/
theorem hostWriteMem_frame (s : State) (a : Nat) (w : Width) (v : Word) :
    hostWriteMem s a w v =
      { s with mem := (hostWriteMem s a w v).mem
               breached := s.breached || (runningFootprint s).touchedBy ⟨a, widthBytes w⟩
               result := (hostWriteMem s a w v).result
               ops := { s.ops with scale := (hostWriteMem s a w v).ops.scale }
               status := { s.status with rcode := (hostWriteMem s a w v).status.rcode }
               draw := (hostWriteMem s a w v).draw } := by
  rw [hostWriteMem_eq]
  exact breakTouched_frame ..

/-- A host memory write that touches no region of a completed, unobserved command is a plain write. -/
theorem hostWriteMem_untouched {s : State} {a : Nat} {w : Width} (v : Word)
    (h : touchedLaunches s ⟨a, widthBytes w⟩ = []) :
    hostWriteMem s a w v =
      { s with mem := writeCells s.mem (cellsOfWord a (widthBytes w) v)
               breached := s.breached || (runningFootprint s).touchedBy ⟨a, widthBytes w⟩ } := by
  rw [hostWriteMem_eq]
  exact breakTouched_untouched h

/-- An idle engine has no running regions (R16). -/
@[simp] theorem runningFootprint_idle {s : State} (h : s.status.busy = false) :
    runningFootprint s = { reads := [], write := none } := by simp [runningFootprint, h]

/-! ### Bus routing -/

/-- A 32-bit access at the offset of a register reaches that register (R32, R115). -/
theorem route_regOffset (p : Params) (r : Reg) : route p (p.regBase + regOffset r) .word = .register (regOffset r) := by
  have h4 : regOffset r % 4 = 0 := by cases r <;> rfl
  have hlt : regOffset r < 256 := by cases r <;> decide
  unfold route
  rw [if_pos (by simp [Region.overlaps, widthBytes]; omega),
    if_pos ⟨rfl, Nat.le_add_right .., by rw [Nat.add_sub_cancel_left, h4]⟩, Nat.add_sub_cancel_left]

/-- An access that reaches a register is 32 bits wide at a multiple of 4 inside the window (R48). -/
theorem route_register {p : Params} {a off : Nat} {w : Width} (h : route p a w = .register off) :
    w = .word ∧ a = p.regBase + off ∧ off % 4 = 0 ∧ off < 256 := by
  unfold route at h
  split at h
  · rename_i ho
    split at h
    · rename_i hs
      cases h
      obtain ⟨rfl, hle, hmod⟩ := hs
      simp only [Region.overlaps, decide_eq_true_eq] at ho
      exact ⟨rfl, by omega, hmod, by omega⟩
    · cases h
  · split at h <;> cases h

/-- An access that reaches memory lies wholly inside it (R59). -/
theorem route_memory {p : Params} {a : Nat} {w : Width} (h : route p a w = .memory) : a + widthBytes w ≤ p.memBytes := by
  unfold route at h
  split at h
  · split at h <;> cases h
  · split at h
    · assumption
    · cases h

/-! ### The step -/

/-- Everything one step of the host can do when it answers a next state. -/
theorem hostStep_cases {h : HostStep} {s t : State} (hs : hostStep h s = .next t) :
    (∃ off, off < 256 ∧ t = hostReadReg s off) ∨
    (∃ off v, off < 256 ∧ t = hostWriteReg s off v) ∨
    (∃ a w, a + widthBytes w ≤ s.params.memBytes ∧ t = hostReadMem s a w) ∨
    (∃ a w v, a + widthBytes w ≤ s.params.memBytes ∧ t = hostWriteMem s a w v) ∨
    (∃ level, (level = true ∨ s.resetHeld = true) ∧ t = resetStep s level) ∨
    (h = .reset false ∧ s.resetHeld = false ∧ t = s) := by
  cases h with
  | read a w =>
    simp only [hostStep] at hs
    split at hs <;> cases hs
    · rename_i off hr
      exact .inl ⟨off, (route_register hr).2.2.2, rfl⟩
    · rename_i hr
      exact .inr (.inr (.inl ⟨a, w, route_memory hr, rfl⟩))
  | write a w v =>
    simp only [hostStep] at hs
    split at hs <;> cases hs
    · rename_i off hr
      exact .inr (.inl ⟨off, v, (route_register hr).2.2.2, rfl⟩)
    · rename_i hr
      exact .inr (.inr (.inr (.inl ⟨a, w, v, route_memory hr, rfl⟩)))
  | reset level =>
    cases hs
    unfold resetInput
    split
    · rename_i hl
      exact .inr (.inr (.inr (.inr (.inl ⟨level, by simpa using hl, rfl⟩))))
    · rename_i hl
      simp only [Bool.or_eq_true, not_or, Bool.not_eq_true] at hl
      exact .inr (.inr (.inr (.inr (.inr ⟨by rw [hl.1], hl.2, rfl⟩))))

/-- Everything the engine's turn can do when it answers a next state: nothing while idle or held in reset, else the latched
command or its rejection. -/
theorem engineTurn_cases {s t : State} (h : engineTurn s = .next t) :
    (¬ (s.status.busy = true ∧ s.resetHeld = false) ∧ t = s) ∨
    ((s.status.busy = true ∧ s.resetHeld = false) ∧
      ((∃ i, decodeWord s.latch.cmd = .ok i ∧ exec i s = .next t) ∨
        (∃ e, decodeWord s.latch.cmd = .error e) ∧ t = completeError s .illegalCmd)) := by
  unfold engineTurn at h
  split at h
  · rename_i hb
    refine .inr ⟨by simpa using hb, ?_⟩
    unfold engineStep at h
    split at h
    · rename_i i hi
      exact .inl ⟨i, hi, h⟩
    · rename_i e he
      cases h
      exact .inr ⟨⟨e, he⟩, rfl⟩
  · rename_i hb
    cases h
    exact .inl ⟨by simpa using hb, rfl⟩

/-- A host write of a register while reset is not asserted (R260). -/
theorem hostWriteReg_released {s : State} (h : s.resetHeld = false) (r : Reg) (v : Word) :
    hostWriteReg s (regOffset r) v = writeReg s r v := by simp [hostWriteReg, h]

/-- A host write of a register while reset is asserted is lost (R260). -/
@[simp] theorem hostWriteReg_held {s : State} (h : s.resetHeld = true) (off : Nat) (v : Word) : hostWriteReg s off v = s := by
  simp [hostWriteReg, h]

/-- Everything a step can do when it answers a next state: the engine's turn or one step of the host, on the state whose
agenda has moved on. -/
theorem step_cases {s t : State} (h : step s = .next t) :
    (∃ rest, (s.agenda = [] ∧ rest = [] ∨ s.agenda = .engine :: rest) ∧ engineTurn { s with agenda := rest } = .next t) ∨
    (∃ e rest, s.agenda = .host e :: rest ∧ hostStep e { s with agenda := rest } = .next t) := by
  unfold step at h
  split at h
  · rename_i ha
    refine .inl ⟨[], .inl ⟨ha, rfl⟩, ?_⟩
    rw [← ha]
    exact h
  · rename_i rest ha
    exact .inl ⟨rest, .inr ha, h⟩
  · rename_i e rest ha
    exact .inr ⟨e, rest, ha, h⟩

end Sys2Proof.Machine
end

