-- ==== Sys2Proof/Laws/PerInstr.lean ====
section
/-! SUPPORT. What holds of every command as syntax: the one command format (spec/30_encoding.md rules R100 to R102). -/

namespace Sys2Proof.Laws.Encoding

open Sys2Proof

/-- The command word keeps the one format (R100): `OP` is the map's value in bits 7:0, an assigned one (R101), and `RSV` is
zero (R102), so the word as a number is `OP`. -/
def Statement (i : Instr) : Prop :=
  (fieldsOf (encode i)).op = opcodeOf i ∧ (fieldsOf (encode i)).rsv = 0#24 ∧ opcodeOf i ∈ assignedOps ∧
    (encode i).toNat = (opcodeOf i).toNat

theorem nop : Statement .nop := by unfold Statement; decide
theorem locate : Statement .locate := by unfold Statement; decide
theorem unpack : Statement .unpack := by unfold Statement; decide
theorem ldscale : Statement .ldscale := by unfold Statement; decide
theorem matvec : Statement .matvec := by unfold Statement; decide
theorem matvecT : Statement .matvecT := by unfold Statement; decide
theorem matvecI8 : Statement .matvecI8 := by unfold Statement; decide
theorem matvecTI8 : Statement .matvecTI8 := by unfold Statement; decide

end Sys2Proof.Laws.Encoding
end

