-- ==== Sys2Proof/Tests/Slice0.lean ====
section
/-! SUPPORT. The model's own tests. Part 1: well-formedness. Part 2: words written out from the opcode map. Part 3: at most two
one-step tests per command; every expected value is a vector of spec/95_test_vectors.md, named in the docstring. Part 4: the
float primitives. Part 5: for every statement with hypotheses, a concrete instance that meets them together
(`witness_<statement>`), each clause at a boundary value. -/

namespace Sys2Proof.Tests

open Sys2Proof Sys2Proof.Machine

/-! ### Small states -/

/-- The outcome is a next state with the property. -/
def reaches (r : Result) (P : State → Bool) : Bool :=
  match r with
  | .next t => P t
  | .fault _ => false
  | .refused _ => false

/-- The outcome is this refusal. -/
def isRefused (r : Result) (q : Refusal) : Bool :=
  match r with
  | .next _ => false
  | .fault _ => false
  | .refused p => p == q

theorem exists_of_reaches {r : Result} {P : State → Bool} (h : reaches r P = true) : ∃ t, r = .next t ∧ P t = true := by
  cases r with
  | next t => exact ⟨t, rfl, h⟩
  | fault _ => cases h
  | refused _ => cases h

/-- The parameters of spec/95_test_vectors.md section 0. -/
def tp : Params := { memBytes := 0x10000, regBase := 0x40000000, implId := 0#32 }

/-- Reset, then these operand registers and these bytes of memory. -/
def idle (o : Operands) (cells : List Host.Cell) : State :=
  { State.resetWith tp with ops := o, mem := writeCells [] cells }

/-- The same with a word accepted. -/
def busyWord (w : Word) (o : Operands) (cells : List Host.Cell) : State := accept (idle o cells) w

/-- A LOCATE of the byte at address 0 that has completed unobserved. -/
def earlier : Launch := Launch.fresh .locate { Operands.reset with packedLen := 64#32 }

/-- The same with a command accepted, and an earlier one not yet observed. -/
def busy (i : Instr) (o : Operands) (cells : List Host.Cell) : State :=
  { busyWord (encode i) o cells with unobserved := [earlier] }

/-- A state with these completed, unobserved commands. -/
def after (s : State) (ls : List Launch) : State := { s with unobserved := ls }

/-- One step after the word is laid where the engine takes its next command from. -/
def runWord (w : Nat) (o : Operands) (cells : List Host.Cell) : Result := step ((idle o cells).withFetchWord 32 w)

/-- Bytes at consecutive addresses. -/
def bytesAt (a : Nat) (l : List Nat) : List Host.Cell := (List.range l.length).map fun k => (a + k, BitVec.ofNat 8 (l.getD k 0))

/-- Little-endian words at consecutive addresses. -/
def wordsAt (a : Nat) (l : List Nat) : List Host.Cell :=
  (List.range l.length).flatMap fun k => cellsOfWord (a + 4 * k) 4 (BitVec.ofNat 32 (l.getD k 0))

/-- The words memory holds from an address on. -/
def words (t : State) (a n : Nat) : List Nat := (List.range n).map fun k => (readWord t.mem (a + 4 * k)).toNat

/-- The standard placement (spec/95_test_vectors.md section 0). -/
def mat (rows cols packedLen srcLen dstLen scale : Nat) : Operands :=
  { Operands.reset with
    rows := BitVec.ofNat 32 rows, cols := BitVec.ofNat 32 cols
    packedAddr := 0x1000#32, packedLen := BitVec.ofNat 32 packedLen
    srcAddr := 0x2000#32, srcLen := BitVec.ofNat 32 srcLen
    dstAddr := 0x3000#32, dstLen := BitVec.ofNat 32 dstLen
    scale := BitVec.ofNat 32 scale }

/-- The packed bytes of the matrix `W2x3` (spec/95_test_vectors.md section 2.2). -/
def w2x3 : List Host.Cell := bytesAt 0x1000 [0xBF, 0x7F, 0x3F, 0xBF, 0x7F, 0xBF]

/-- The packed bytes of the matrix `M3x2` (spec/95_test_vectors.md section 2.3). -/
def m3x2 : List Host.Cell := bytesAt 0x1000 [0xBF, 0x7F, 0x3F, 0x3F, 0xBF, 0xFF]

/-- The operands of LOCATE's vectors (spec/95_test_vectors.md section 2.1). -/
def locateOps (pa len index : Nat) : Operands :=
  { Operands.reset with packedAddr := BitVec.ofNat 32 pa, packedLen := BitVec.ofNat 32 len, index := BitVec.ofNat 32 index }

/-- The operands of UNPACK's vectors (spec/95_test_vectors.md section 2.1). -/
def unpackOps (len index da dstLen : Nat) : Operands :=
  { Operands.reset with
    packedAddr := 0x100#32, packedLen := BitVec.ofNat 32 len, index := BitVec.ofNat 32 index
    dstAddr := BitVec.ofNat 32 da, dstLen := BitVec.ofNat 32 dstLen }

/-- The operands of LDSCALE's vectors (spec/95_test_vectors.md section 2.1). -/
def ldscaleOps (rows cols pa len : Nat) : Operands :=
  { Operands.reset with
    rows := BitVec.ofNat 32 rows, cols := BitVec.ofNat 32 cols
    packedAddr := BitVec.ofNat 32 pa, packedLen := BitVec.ofNat 32 len }

/-! ### Part 1: well-formedness -/

theorem test_wf_accepts_assigned_op : CmdWord.wf { op := 0x13#8, rsv := 0#24 } = true := by decide
theorem test_wf_refuses_reserved_bits : CmdWord.rsvZero { op := 0x10#8, rsv := 1#24 } = false := by decide
theorem test_wf_refuses_top_reserved_bit : CmdWord.wf { op := 0x00#8, rsv := 0x800000#24 } = false := by decide
theorem test_wf_refuses_unassigned_op : CmdWord.opAssigned { op := 0x04#8, rsv := 0#24 } = false := by decide
theorem test_wf_refuses_hole_after_0F : CmdWord.wf { op := 0x14#8, rsv := 0#24 } = false := by decide
theorem test_params_refuse_empty_memory : Params.memNonempty { tp with memBytes := 0 } = false := by decide
theorem test_params_refuse_memory_beyond_the_addresses : Params.memFits { tp with memBytes := 2 ^ 32 + 1 } = false := by decide
theorem test_params_accept_the_whole_range :
    Params.wf { tp with memBytes := 1 } = true ∧ Params.wf { tp with memBytes := 2 ^ 32 } = true := by decide
theorem test_memory_refuses_falling_addresses : Memory.wf [(2, 1#8), (1, 1#8)] = false := by decide
theorem test_memory_refuses_an_entry_equal_to_unlisted : Memory.wf [(1, 0#8)] = false := by decide

/-! ### Part 2: decoding, the words written out from spec/30_encoding.md rules R100 to R103 -/

theorem test_decode_nop : decodeWord 0b00000000000000000000000000000000#32 = .ok .nop := by decide
theorem test_decode_locate : decodeWord 0b00000000000000000000000000000001#32 = .ok .locate := by decide
theorem test_decode_unpack : decodeWord 0b00000000000000000000000000000010#32 = .ok .unpack := by decide
theorem test_decode_ldscale : decodeWord 0b00000000000000000000000000000011#32 = .ok .ldscale := by decide
theorem test_decode_matvec : decodeWord 0b00000000000000000000000000010000#32 = .ok .matvec := by decide
theorem test_decode_matvecT : decodeWord 0b00000000000000000000000000010001#32 = .ok .matvecT := by decide
theorem test_decode_matvecI8 : decodeWord 0b00000000000000000000000000010010#32 = .ok .matvecI8 := by decide
theorem test_decode_matvecTI8 : decodeWord 0b00000000000000000000000000010011#32 = .ok .matvecTI8 := by decide

/-- The byte form: the least significant byte first (R114). -/
theorem test_decode_bytes : decode [0x12#8, 0x00#8, 0x00#8, 0x00#8] = .ok .matvecI8 := by decide
theorem test_decode_three_bytes : decode [0x12#8, 0x00#8, 0x00#8] = .error .notOneWord := by decide
theorem test_decode_table_word : decodeTableWord 32 0x11 = some .matvecT := by decide

/-- K16. -/
theorem test_decode_unassigned :
    decodeWord 0x00000004#32 = .error .unassignedOp ∧ decodeWord 0x0000000F#32 = .error .unassignedOp ∧
    decodeWord 0x00000014#32 = .error .unassignedOp ∧ decodeWord 0x000000FF#32 = .error .unassignedOp := by decide

/-- K15 and K17. -/
theorem test_decode_reserved_bits :
    decodeWord 0x00000104#32 = .error .reservedBits ∧ decodeWord 0x00000110#32 = .error .reservedBits := by decide

/-! ### Part 3: one step of each command (expected values from spec/95_test_vectors.md) -/

/-- K14. -/
theorem test_nop_succeeds : reaches (runWord 0x00 Operands.reset []) (fun t => t.status.toWord == 0x00000002#32) = true := by
  decide

/-- K17. -/
theorem test_illegal_word : reaches (runWord 0x110 Operands.reset []) (fun t => t.status.toWord == 0x00000106#32) = true := by
  decide

/-- K4: bits 1:0 of 0x1B, the reserved code. -/
theorem test_locate_reserved_code :
    reaches (runWord 0x01 (locateOps 0 64 96) (bytesAt 0 [0x1B]))
      (fun t => t.status.toWord == 0x0000000A#32 && t.result == 3#32) = true := by decide

/-- K9: the second block. -/
theorem test_locate_second_block :
    reaches (runWord 0x01 (locateOps 0 64 135) (bytesAt 39 [0x80]))
      (fun t => t.status.toWord == 0x00000002#32 && t.result == 2#32) = true := by decide

/-- UP1: the first and last byte of each group. -/
theorem test_unpack_block_order :
    reaches (runWord 0x02 (unpackOps 64 0 0x200 128) (bytesAt 0x100 (List.replicate 32 0x1B)))
      (fun t => t.status.toWord == 0x0000000A#32 &&
        [0x200, 0x21F, 0x220, 0x23F, 0x240, 0x25F, 0x260, 0x27F].map (fun a => (readByte t.mem a).toNat) ==
          [0, 0, 1, 1, 2, 2, 3, 3]) = true := by decide

/-- UP6. -/
theorem test_unpack_overlap :
    reaches (runWord 0x02 (unpackOps 64 0 0xA0 128) (bytesAt 0x100 (List.replicate 32 0x1B)))
      (fun t => t.status.toWord == 0x00000506#32 && (readByte t.mem 0xA0).toNat == 0) = true := by decide

/-- K10a: a NaN pattern, loaded unchanged. -/
theorem test_ldscale_keeps_a_nan_pattern :
    reaches (runWord 0x03 (ldscaleOps 130 1 0 68) (bytesAt 64 [0xFF, 0xFF, 0xFF, 0x7F]))
      (fun t => t.status.toWord == 0x00000002#32 && t.ops.scale == 0x7FFFFFFF#32) = true := by decide

/-- K10c: an odd address. -/
theorem test_ldscale_odd_address :
    reaches (runWord 0x03 (ldscaleOps 3 5 0x2E1 36) (bytesAt 0x301 [0x00, 0x00, 0xC0, 0xBF]))
      (fun t => t.status.toWord == 0x00000002#32 && t.ops.scale == 0xBFC00000#32) = true := by decide

/-- F1. -/
theorem test_matvec_mixed_signs :
    reaches (runWord 0x10 (mat 2 3 32 3 2 0x3F800000) (w2x3 ++ wordsAt 0x2000 [0x3FC00000, 0x40000000, 0xC0800000]))
      (fun t => t.status.toWord == 0x00000002#32 && words t 0x3000 2 == [0xBF000000, 0xC0000000]) = true := by decide

/-- F4: the order of the sum. -/
theorem test_matvec_ascending_columns :
    reaches (runWord 0x10 (mat 1 3 32 3 1 0x3F800000)
        (bytesAt 0x1000 [0xBF, 0xBF, 0xBF] ++ wordsAt 0x2000 [0x33800000, 0x33800000, 0x3F800000]))
      (fun t => t.status.toWord == 0x00000002#32 && words t 0x3000 1 == [0x3F800001]) = true := by decide

/-- F2. -/
theorem test_matvecT_columns :
    reaches (runWord 0x11 (mat 2 3 32 2 3 0x40000000) (w2x3 ++ wordsAt 0x2000 [0x3FC00000, 0xC0400000]))
      (fun t => t.status.toWord == 0x00000002#32 && words t 0x3000 3 == [0x40400000, 0xC1100000, 0xC0C00000]) = true := by
  decide

/-- F16: the scale is applied to the finished sum, so a zero can be negative. -/
theorem test_matvecT_negative_zero :
    reaches (runWord 0x11 (mat 1 1 32 1 1 0xBF800000) (bytesAt 0x1000 [0x7F] ++ wordsAt 0x2000 [0x3F800000]))
      (fun t => t.status.toWord == 0x00000002#32 && words t 0x3000 1 == [0x80000000]) = true := by decide

/-- Q19. -/
theorem test_matvecI8_general :
    reaches (runWord 0x12
        { mat 3 2 32 3 2 0x3F000000 with actScale := 0x3F800000#32, actSum := 130#32 }
        (m3x2 ++ bytesAt 0x2000 [0x0A, 0xF9, 0x7F]))
      (fun t => t.status.toWord == 0x0000000A#32 && words t 0x3000 2 == [0xC26A0000, 0x42ED0000]) = true := by decide

/-- Q9: the correction wraps. -/
theorem test_matvecI8_correction_wraps :
    reaches (runWord 0x12
        { mat 1 1 32 1 1 0x3F800000 with actScale := 0x3F800000#32, actSum := 0x80000000#32 }
        (bytesAt 0x1000 [0x7F] ++ bytesAt 0x2000 [1]))
      (fun t => t.status.toWord == 0x00000002#32 && words t 0x3000 1 == [0xCF000000]) = true := by decide

/-- Q18. -/
theorem test_matvecTI8_general :
    reaches (runWord 0x13
        { mat 3 2 32 2 3 0x3F800000 with actScale := 0x3E800000#32, actSum := 3#32 }
        (m3x2 ++ bytesAt 0x2000 [0x0A, 0xF9]))
      (fun t => t.status.toWord == 0x0000000A#32 && words t 0x3000 3 == [0x42880000, 0xC1E00000, 0xC2C00000]) = true := by
  decide

/-- The alignment of `dst` (Q30's check, R225) on the operands of Q18. -/
theorem test_matvecTI8_misaligned :
    reaches (runWord 0x13 { mat 3 2 32 2 3 0x3F800000 with dstAddr := 0x3002#32 } m3x2)
      (fun t => t.status.toWord == 0x00000306#32 && words t 0x3000 1 == [0]) = true := by decide

/-! ### Part 3b: the memory duty and the reset input (expected values by hand from R86, R42, R35, R46 and R260) -/

/-- A later NOP's `RCODE` is its own when the host writes an earlier, unobserved LOCATE's byte. -/
theorem test_later_command_keeps_its_flags :
    reaches (hostStep (.write 0 .byte 7#32)
        (after (idle Operands.reset []) [Launch.fresh .nop Operands.reset, earlier.succeededBy .nop Operands.reset]))
      (fun t => t.status == Status.reset && t.draw == 1) = true := by decide

/-- A later LOCATE's `RESULT` is its own. -/
theorem test_later_locate_keeps_result :
    reaches (hostStep (.write 0 .byte 7#32)
        { after (idle Operands.reset []) [earlier.succeededBy .locate Operands.reset] with result := 2#32 })
      (fun t => t.result == 2#32) = true := by decide

/-- The host's value stands in `SCALE` when it then writes the byte an earlier LDSCALE read. -/
theorem test_host_scale_stands :
    reaches (hostStep (.write 35 .byte 7#32)
        (writeReg (after (idle Operands.reset []) [Launch.fresh .ldscale (ldscaleOps 128 1 0 36)]) .scale 0x3F800000#32))
      (fun t => t.ops.scale == 0x3F800000#32 && t.draw == 1) = true := by decide

/-- Writes of `ROWS` and `CMD` while reset is asserted leave the reset values; released, they take effect. -/
theorem test_held_reset_loses_register_writes :
    reaches (hostStep (.write 0x4000000C .word 0#32) (resetStep (idle Operands.reset []) true))
      (fun t => t.status == Status.reset) = true ∧
    reaches (hostStep (.write 0x40000010 .word 5#32) (resetStep (idle Operands.reset []) true))
      (fun t => t.ops.rows == 0#32) = true ∧
    reaches (hostStep (.write 0x40000010 .word 5#32) (resetStep (resetStep (idle Operands.reset []) true) false))
      (fun t => t.ops.rows == 5#32) = true := by decide

/-! ### Part 4: the float primitives (the arithmetic steps of vectors F3, F9, F11, F13, F13a, F19, Q11, Q14, Q17) -/

theorem test_fadd_ties_to_even : fadd 0x3F800000#32 0x33800000#32 = 0x3F800000#32 := by decide
theorem test_fadd_overflows : fadd 0x7F7FFFFF#32 0x7F7FFFFF#32 = 0x7F800000#32 := by decide
theorem test_fadd_opposite_infinities : fadd 0x7F800000#32 0xFF800000#32 = 0x7FC00000#32 := by decide
theorem test_fmul_half_of_smallest : fmul 0x3F000000#32 0x00000001#32 = 0x00000000#32 := by decide
theorem test_fmul_subnormal_tie : fmul 0x3F000000#32 0x00000003#32 = 0x00000002#32 := by decide
theorem test_fmul_zero_by_infinity : fmul 0x00000000#32 0x7F800000#32 = 0x7FC00000#32 := by decide
theorem test_fdiv_third_then_six : fmul 0x40C00000#32 (fdiv 0x3F800000#32 0x40400000#32) = 0x40000000#32 := by decide
theorem test_fdiv_overflows : fdiv 0x7F7FFFFF#32 0x3A800000#32 = 0x7F800000#32 := by decide +kernel
theorem test_i2f_ties_to_even : i2f 16777217 = 0x4B800000#32 := by decide

/-! ### Part 5: the hypotheses of the statements can be met -/

/-- A state whose agenda is given. -/
def withAgenda (s : State) (l : List Event) : State := { s with agenda := l }

/-- A state in which LOCATE of K4 runs. -/
def locateBusy : State := busy .locate (locateOps 0 64 96) (bytesAt 0 [0x1B])

/-- A state in which LDSCALE of K10 runs. -/
def ldscaleBusy : State := busy .ldscale (ldscaleOps 128 1 0 36) (bytesAt 32 [0x00, 0x00, 0x00, 0x40])

/-- A state in which UNPACK of UP1 runs, with other operands where given. -/
def unpackBusy (len da dstLen : Nat) : State := busy .unpack (unpackOps len 0 da dstLen) (bytesAt 0x100 [0x1B])

/-- A state in which MATVEC of F1 runs, with another destination where given. -/
def matvecBusy (packedLen da : Nat) : State :=
  busy .matvec { mat 2 3 packedLen 3 2 0x3F800000 with dstAddr := BitVec.ofNat 32 da } w2x3

/-- A state in which MATVEC_T of F2 runs, with another destination where given. -/
def matvecTBusy (packedLen da : Nat) : State :=
  busy .matvecT { mat 2 3 packedLen 2 3 0x40000000 with dstAddr := BitVec.ofNat 32 da } w2x3

/-- A state in which MATVEC_I8 of Q19 runs, with another destination where given. -/
def matvecI8Busy (packedLen da : Nat) : State :=
  busy .matvecI8 { mat 3 2 packedLen 3 2 0x3F000000 with dstAddr := BitVec.ofNat 32 da } m3x2

/-- A state in which MATVEC_T_I8 of Q18 runs, with another destination where given. -/
def matvecTI8Busy (packedLen da : Nat) : State :=
  busy .matvecTI8 { mat 3 2 packedLen 2 3 0x3F800000 with dstAddr := BitVec.ofNat 32 da } m3x2

theorem witness_IllegalWordIsRejectedByName :
    (0x100#32).toNat / 256 ≠ 0 ∧ (0xFFFFFFFF#32).toNat / 256 ≠ 0 ∧
    ∀ w ∈ [0x04#32, 0x0F#32, 0x14#32, 0xFF#32],
      w.toNat / 256 = 0 ∧ (4 ≤ w.toNat ∧ w.toNat ≤ 0x0F ∨ 0x14 ≤ w.toNat ∧ w.toNat ≤ 0xFF) := by
  refine ⟨by simp, by simp, ?_⟩
  simp

theorem witness_IllegalWordCompletesWithIllegalCmd :
    (busyWord 0x04#32 Operands.reset []).status.busy = true ∧ (busyWord 0x04#32 Operands.reset []).resetHeld = false ∧
    (∀ i, ((busyWord 0x04#32 Operands.reset []).latch.cmd, i) ∉ Expect.opcodeMap) ∧
    locateBusy.status.busy = true ∧ locateBusy.resetHeld = false ∧ (locateBusy.latch.cmd, Instr.locate) ∈ Expect.opcodeMap ∧
    reaches (engineTurn locateBusy) (fun t => t.status.ecode == .ok) = true := by
  refine ⟨by decide, by decide, fun i => ?_, by decide, by decide, by decide, by decide⟩
  cases i <;> decide

theorem witness_StepFollowsTheAgenda :
    (withAgenda locateBusy [.host (.reset true)]).agenda = .host (.reset true) :: [] ∧
    (withAgenda locateBusy [.engine]).agenda = .engine :: [] ∧
    (withAgenda locateBusy []).agenda = [] ∧ (idle Operands.reset []).status.busy = false ∧
    { locateBusy with resetHeld := true }.resetHeld = true := by decide

theorem witness_EngineStepRunsTheLatchedCommand :
    locateBusy.status.busy = true ∧ locateBusy.resetHeld = false ∧ decodeWord locateBusy.latch.cmd = .ok .locate ∧
    (withAgenda locateBusy []).agenda = [] ∧ (withAgenda locateBusy [.engine]).agenda = .engine :: [] := by decide

theorem witness_RunningCommandCompletes :
    locateBusy.status.busy = true ∧ locateBusy.resetHeld = false ∧
    Expect.engineNext (withAgenda locateBusy []) ∧ Expect.engineNext (withAgenda locateBusy [.engine]) :=
  ⟨by decide, by decide, .inl rfl, .inr ⟨[], rfl⟩⟩

theorem witness_RegisterReadReturnsTheRegister :
    (0x00, Reg.id) ∈ Expect.registerMap ∧ (0x08, Reg.status) ∈ Expect.registerMap ∧
    (0x40, Reg.result) ∈ Expect.registerMap := by decide

theorem witness_IdReadsImplIdAndNeverChanges : ∃ t, exec .locate locateBusy = .next t ∧ true = true :=
  exists_of_reaches (P := fun _ => true) (by decide)

theorem witness_CtrlKeepsOnlyBitZero : (idle Operands.reset []).resetHeld = false := by decide

theorem witness_StatusWriteOnlyClears : locateBusy.resetHeld = false := by decide

theorem witness_OperandRegisterKeepsWhatIsWritten :
    ldscaleBusy.resetHeld = false ∧ Reg.scale ∈ Expect.operandRegs ∧
    Reg.rows ∈ Expect.operandRegs ∧ Reg.index ∈ Expect.operandRegs ∧ Reg.cols ≠ Reg.rows := by decide

theorem witness_ReservedOffsetReadsZeroIgnoresWrites :
    (0x44 ≤ 0x44 ∧ 0x44 ≤ 0xFC ∧ 0x44 % 4 = 0) ∧ (0x44 ≤ 0xFC ∧ 0xFC ≤ 0xFC ∧ 0xFC % 4 = 0) ∧
    0xFFFFFFFF#32 &&& 1#32 = 1#32 &&& 1#32 ∧ 0xFFFFFFFF#32 &&& 0x12#32 = 0x12#32 &&& 0x12#32 := by decide

/-- A byte at the first and last address of the window, and words that reach into it from below, from its last offset, and at
an offset that is no multiple of 4. -/
theorem witness_MisshapenWindowAccessIsRefused :
    ∀ x ∈ [(0x40000000, Width.byte), (0x400000FF, Width.byte), (0x3FFFFFFD, Width.word), (0x400000FD, Width.word),
      (0x40000002, Width.word), (0x40000004, Width.half)],
      Expect.overlap x.1 (widthBytes x.2) tp.regBase 256 ∧
      ¬ (x.2 = Width.word ∧ tp.regBase ≤ x.1 ∧ (x.1 - tp.regBase) % 4 = 0) := by decide

theorem witness_AcceptanceLatchesTheOperands :
    (idle Operands.reset []).resetHeld = false ∧ (idle Operands.reset []).status.busy = false := by decide

theorem witness_CmdWriteWhileBusyIsDropped : locateBusy.resetHeld = false ∧ locateBusy.status.busy = true := by decide

theorem witness_RunningCommandIgnoresRegisterWrites :
    ldscaleBusy.status.busy = true ∧ Reg.scale ∈ Expect.operandRegs ∧
    ∃ t, exec .ldscale ldscaleBusy = .next t ∧ (t.status.ecode == .ok) = true :=
  ⟨by decide, by decide, exists_of_reaches (P := fun t => t.status.ecode == .ok) (by decide)⟩

theorem witness_InterruptIsEnableAndDone :
    (∃ t, exec .locate locateBusy = .next t ∧ t.status.done = true) ∧
    (0x02#32).getLsbD 1 = true ∧ (0xFFFFFFFE#32).getLsbD 0 = false ∧ (1#32).getLsbD 0 = true ∧
    (idle Operands.reset []).status.busy = false :=
  ⟨exists_of_reaches (P := fun t => t.status.done) (by decide), by decide, by decide, by decide, by decide⟩

/-- An idle block, and one held in reset: the first and the last offset, and a step. -/
theorem witness_ResetGivesTheResetValues :
    (idle Operands.reset (bytesAt 5 [1])).status.busy = false ∧
    let s := resetStep locateBusy true
    s.resetHeld = true ∧ (0x00 < 256 ∧ 0x00 % 4 = 0) ∧ (0xFC < 256 ∧ 0xFC % 4 = 0) ∧ s.Inv ∧
    ∃ t, step (withAgenda s [.host (.write 0x40000010 .word 5#32)]) = .next t ∧ true = true :=
  ⟨by decide, rfl, by decide, by decide,
    ⟨by decide, by decide, by decide, by decide, by decide, by decide, by decide⟩,
    exists_of_reaches (P := fun _ => true) (by decide)⟩

/-- The byte below the write region, the byte above it, and a latched word that is no command. -/
theorem witness_ResetAbandonsTheRunningCommand :
    (matvecBusy 32 0x3000).status.busy = true ∧ decodeWord (matvecBusy 32 0x3000).latch.cmd = .ok .matvec ∧
    (∀ q ∈ (footprint .matvec (matvecBusy 32 0x3000).latch.ops).write, q.covers 0x2FFF = false ∧ q.covers 0x3008 = false) ∧
    (busyWord 0x100#32 Operands.reset []).status.busy = true ∧
    decodeWord (busyWord 0x100#32 Operands.reset []).latch.cmd = .error .reservedBits := by decide

theorem witness_NopCompletesWithNoEffect : Instr.locate ≠ .nop ∧ Instr.matvecTI8 ≠ .nop := by decide

/-- K9b, K9c's range check at the last byte of memory, and K9d. -/
theorem witness_LocateExecutesAsItsRule :
    (¬ 0 < (busy .locate (locateOps 0 0 0) []).latch.ops.packedLen.toNat) ∧
    (let s := busy .locate (locateOps 0xFFFF 2 1) []
     32 * (1 / 128) + 1 % 32 < s.latch.ops.packedLen.toNat ∧ s.latch.ops.index.toNat = 1 ∧
       s.params.memBytes < Expect.pa s + 1 + 1) ∧
    (let s := busy .locate (locateOps 0xFFFF 1 96) []
     32 * (96 / 128) + 96 % 32 < s.latch.ops.packedLen.toNat ∧ s.latch.ops.index.toNat = 96 ∧
       Expect.pa s + 0 + 1 ≤ s.params.memBytes ∧ Expect.clear s (Expect.pa s + 0) 1 ∧ s.breached = false) := by
  decide

/-- UP3, UP4's length, UP8, UP6, and UP7 and UP9 (adjacent, and up to the last byte of memory). -/
theorem witness_UnpackExecutesAsItsRule :
    (let dims := fun (s : State) => 32 * s.latch.ops.index.toNat + 32 ≤ s.latch.ops.packedLen.toNat ∧ s.latch.ops.dstLen.toNat = 128
     let inside := fun (s : State) => Expect.pa s + 32 * s.latch.ops.index.toNat + 32 ≤ s.params.memBytes ∧
       Expect.da s + 128 ≤ s.params.memBytes
     let laps := fun (s : State) => Expect.overlap (Expect.da s) 128 (Expect.pa s + 32 * s.latch.ops.index.toNat) 32
     (¬ dims (unpackBusy 64 0x200 127)) ∧ (¬ dims (unpackBusy 31 0x200 128)) ∧
     (dims (unpackBusy 32 0xFF81 128) ∧ ¬ inside (unpackBusy 32 0xFF81 128)) ∧
     (dims (unpackBusy 32 0xA0 128) ∧ inside (unpackBusy 32 0xA0 128) ∧ laps (unpackBusy 32 0xA0 128)) ∧
     ∀ da ∈ [0x80, 0x120, 0xFF80],
       dims (unpackBusy 32 da 128) ∧ inside (unpackBusy 32 da 128) ∧ ¬ laps (unpackBusy 32 da 128) ∧
       Expect.clear (unpackBusy 32 da 128) 0x100 32 ∧ Expect.clear (unpackBusy 32 da 128) da 128 ∧
       (unpackBusy 32 da 128).breached = false ∧ Expect.unobservedClear (unpackBusy 32 da 128) da 128 ∧
       (unpackBusy 32 da 128).mem.wf = true) := by decide

/-- K11, K12, K10b's length, and the range check at the last four bytes of memory. -/
theorem witness_LdscaleExecutesAsItsRule :
    (let st := fun (rows pa len : Nat) => busy .ldscale (ldscaleOps rows 1 pa len) []
     let o := fun (s : State) => Expect.packedLen (Expect.count s)
     let dims := fun (s : State) => 0 < Expect.rows s ∧ 0 < Expect.cols s ∧ o s + 4 ≤ s.latch.ops.packedLen.toNat
     (¬ dims (st 0 0 36)) ∧ (¬ dims (st 0x80000000 0 36)) ∧ (¬ dims (st 128 0 35)) ∧
     (dims (st 128 (0x10000 - 35) 36) ∧ (st 128 (0x10000 - 35) 36).params.memBytes <
        Expect.pa (st 128 (0x10000 - 35) 36) + o (st 128 (0x10000 - 35) 36) + 4) ∧
     (dims (st 128 (0x10000 - 36) 36) ∧
        Expect.pa (st 128 (0x10000 - 36) 36) + o (st 128 (0x10000 - 36) 36) + 4 ≤ (st 128 (0x10000 - 36) 36).params.memBytes ∧
        Expect.clear (st 128 (0x10000 - 36) 36) (Expect.pa (st 128 (0x10000 - 36) 36) + 32) 4 ∧
        (st 128 (0x10000 - 36) 36).breached = false)) := by decide

/-- F33; F34's check on `dst`; F38; F40; F37 (adjacent) and the last bytes of memory. -/
theorem witness_MatvecExecutesAsItsRule :
    (let dims := fun (s : State) => Expect.dimsHold s (Expect.rows s) (Expect.cols s)
     let aligned := fun (s : State) => Expect.da s % 4 = 0 ∧ Expect.sa s % 4 = 0
     let inside := fun (s : State) => Expect.inMemory s (4 * (Expect.cols s).toNat) (Expect.rows s).toNat
     let laps := fun (s : State) => Expect.selfOverlap s (4 * (Expect.cols s).toNat) (Expect.rows s).toNat
     (¬ dims (matvecBusy 31 0x3000)) ∧
     (dims (matvecBusy 32 0x3002) ∧ ¬ aligned (matvecBusy 32 0x3002)) ∧
     (dims (matvecBusy 32 0xFFFC) ∧ aligned (matvecBusy 32 0xFFFC) ∧ ¬ inside (matvecBusy 32 0xFFFC)) ∧
     (dims (matvecBusy 32 0x101C) ∧ aligned (matvecBusy 32 0x101C) ∧ inside (matvecBusy 32 0x101C) ∧ laps (matvecBusy 32 0x101C)) ∧
     ∀ da ∈ [0x1020, 0x200C, 0xFFF8],
       dims (matvecBusy 32 da) ∧ aligned (matvecBusy 32 da) ∧ inside (matvecBusy 32 da) ∧ ¬ laps (matvecBusy 32 da) ∧
       Expect.allClear (matvecBusy 32 da) (4 * (Expect.cols (matvecBusy 32 da)).toNat) (Expect.rows (matvecBusy 32 da)).toNat ∧
       (matvecBusy 32 da).breached = false ∧ (matvecBusy 32 da).mem.wf = true) ∧
    ∀ da ∈ [0x1020, 0x200C, 0xFFF8], Expect.unobservedClear (matvecBusy 32 da) da (4 * (Expect.rows (matvecBusy 32 da)).toNat) :=
  ⟨by decide, by decide⟩

/-- The same boundaries for MATVEC_T: 3 outputs, 2 inputs. -/
theorem witness_MatvecTExecutesAsItsRule :
    (let dims := fun (s : State) => Expect.dimsHold s (Expect.cols s) (Expect.rows s)
     let aligned := fun (s : State) => Expect.da s % 4 = 0 ∧ Expect.sa s % 4 = 0
     let inside := fun (s : State) => Expect.inMemory s (4 * (Expect.rows s).toNat) (Expect.cols s).toNat
     let laps := fun (s : State) => Expect.selfOverlap s (4 * (Expect.rows s).toNat) (Expect.cols s).toNat
     (¬ dims (matvecTBusy 31 0x3000)) ∧
     (dims (matvecTBusy 32 0x3001) ∧ ¬ aligned (matvecTBusy 32 0x3001)) ∧
     (dims (matvecTBusy 32 0xFFF8) ∧ aligned (matvecTBusy 32 0xFFF8) ∧ ¬ inside (matvecTBusy 32 0xFFF8)) ∧
     (dims (matvecTBusy 32 0x2004) ∧ aligned (matvecTBusy 32 0x2004) ∧ inside (matvecTBusy 32 0x2004) ∧ laps (matvecTBusy 32 0x2004)) ∧
     ∀ da ∈ [0x1020, 0x2008, 0xFFF4],
       dims (matvecTBusy 32 da) ∧ aligned (matvecTBusy 32 da) ∧ inside (matvecTBusy 32 da) ∧ ¬ laps (matvecTBusy 32 da) ∧
       Expect.allClear (matvecTBusy 32 da) (4 * (Expect.rows (matvecTBusy 32 da)).toNat) (Expect.cols (matvecTBusy 32 da)).toNat ∧
       (matvecTBusy 32 da).breached = false ∧ (matvecTBusy 32 da).mem.wf = true) ∧
    ∀ da ∈ [0x1020, 0x2008, 0xFFF4], Expect.unobservedClear (matvecTBusy 32 da) da (4 * (Expect.cols (matvecTBusy 32 da)).toNat) :=
  ⟨by decide, by decide⟩

/-- The same boundaries for MATVEC_I8: 2 outputs, 3 input bytes. -/
theorem witness_MatvecI8ExecutesAsItsRule :
    (let dims := fun (s : State) => Expect.dimsHold s (Expect.cols s) (Expect.rows s)
     let aligned := fun (s : State) => Expect.da s % 4 = 0
     let inside := fun (s : State) => Expect.inMemory s (Expect.rows s).toNat (Expect.cols s).toNat
     let laps := fun (s : State) => Expect.selfOverlap s (Expect.rows s).toNat (Expect.cols s).toNat
     (¬ dims (matvecI8Busy 31 0x3000)) ∧
     (dims (matvecI8Busy 32 0x3002) ∧ ¬ aligned (matvecI8Busy 32 0x3002)) ∧
     (dims (matvecI8Busy 32 0xFFFC) ∧ aligned (matvecI8Busy 32 0xFFFC) ∧ ¬ inside (matvecI8Busy 32 0xFFFC)) ∧
     (dims (matvecI8Busy 32 0x2000) ∧ aligned (matvecI8Busy 32 0x2000) ∧ inside (matvecI8Busy 32 0x2000) ∧ laps (matvecI8Busy 32 0x2000)) ∧
     ∀ da ∈ [0x1020, 0x2004, 0xFFF8],
       dims (matvecI8Busy 32 da) ∧ aligned (matvecI8Busy 32 da) ∧ inside (matvecI8Busy 32 da) ∧ ¬ laps (matvecI8Busy 32 da) ∧
       Expect.allClear (matvecI8Busy 32 da) (Expect.rows (matvecI8Busy 32 da)).toNat (Expect.cols (matvecI8Busy 32 da)).toNat ∧
       (matvecI8Busy 32 da).breached = false ∧ (matvecI8Busy 32 da).mem.wf = true) ∧
    ∀ da ∈ [0x1020, 0x2004, 0xFFF8], Expect.unobservedClear (matvecI8Busy 32 da) da (4 * (Expect.cols (matvecI8Busy 32 da)).toNat) :=
  ⟨by decide, by decide⟩

/-- The same boundaries for MATVEC_T_I8: 3 outputs, 2 input bytes. -/
theorem witness_MatvecTI8ExecutesAsItsRule :
    (let dims := fun (s : State) => Expect.dimsHold s (Expect.rows s) (Expect.cols s)
     let aligned := fun (s : State) => Expect.da s % 4 = 0
     let inside := fun (s : State) => Expect.inMemory s (Expect.cols s).toNat (Expect.rows s).toNat
     let laps := fun (s : State) => Expect.selfOverlap s (Expect.cols s).toNat (Expect.rows s).toNat
     (¬ dims (matvecTI8Busy 31 0x3000)) ∧
     (dims (matvecTI8Busy 32 0x3001) ∧ ¬ aligned (matvecTI8Busy 32 0x3001)) ∧
     (dims (matvecTI8Busy 32 0xFFF8) ∧ aligned (matvecTI8Busy 32 0xFFF8) ∧ ¬ inside (matvecTI8Busy 32 0xFFF8)) ∧
     (dims (matvecTI8Busy 32 0x2000) ∧ aligned (matvecTI8Busy 32 0x2000) ∧ inside (matvecTI8Busy 32 0x2000) ∧ laps (matvecTI8Busy 32 0x2000)) ∧
     ∀ da ∈ [0x1020, 0x2004, 0xFFF4],
       dims (matvecTI8Busy 32 da) ∧ aligned (matvecTI8Busy 32 da) ∧ inside (matvecTI8Busy 32 da) ∧ ¬ laps (matvecTI8Busy 32 da) ∧
       Expect.allClear (matvecTI8Busy 32 da) (Expect.cols (matvecTI8Busy 32 da)).toNat (Expect.rows (matvecTI8Busy 32 da)).toNat ∧
       (matvecTI8Busy 32 da).breached = false ∧ (matvecTI8Busy 32 da).mem.wf = true) ∧
    ∀ da ∈ [0x1020, 0x2004, 0xFFF4], Expect.unobservedClear (matvecTI8Busy 32 da) da (4 * (Expect.rows (matvecTI8Busy 32 da)).toNat) :=
  ⟨by decide, by decide⟩

theorem witness_FailedCommandChangesOnlyStatus :
    ∃ t, exec .matvec (matvecBusy 31 0x3000) = .next t ∧ (t.status.ecode != .ok) = true :=
  exists_of_reaches (P := fun t => t.status.ecode != .ok) (by decide)

/-- Two states that differ in memory, `CTRL` and the duty. -/
theorem witness_ErrorCodeDependsOnTheLatchAlone :
    let s' := { locateBusy with mem := [], ie := true }
    locateBusy.latch.ops = s'.latch.ops ∧ locateBusy.params.memBytes = s'.params.memBytes ∧
    (∃ t, exec .locate locateBusy = .next t ∧ true = true) ∧ ∃ t, exec .locate s' = .next t ∧ true = true :=
  ⟨by decide, by decide, exists_of_reaches (P := fun _ => true) (by decide),
    exists_of_reaches (P := fun _ => true) (by decide)⟩

/-- An UNPACK that has completed unobserved, into the bytes at 0x300, of the block the next one is to write over. -/
def unpackEarlier : Launch := Launch.fresh .unpack { unpackOps 32 0 0x300 128 with packedAddr := 0x260#32 }

/-- A running UNPACK that will write over what `unpackEarlier` read. -/
def unpackOver : State := after (unpackBusy 32 0x200 128) [unpackEarlier]

/-- It breaks the duty of that command, whose result stands outside what it reads. -/
theorem unpackOver_readsStand : Expect.broken .unpack unpackOver unpackEarlier ∧ Expect.readsStand .unpack unpackOver := by
  refine ⟨by decide, fun l hl r hr a ha hs => ?_⟩
  obtain rfl : l = unpackEarlier := by simpa [unpackOver, after] using hl.1
  obtain rfl : r = ⟨0x100, 32⟩ := List.mem_singleton.1 hr
  obtain ⟨q, hq, hc⟩ := hs.1
  obtain rfl : q = ⟨0x300, 128⟩ := List.mem_singleton.1 hq
  simp only [Region.covers, decide_eq_true_eq] at ha hc
  omega

/-- A byte of the write region changes; an address of a read region, no earlier command's result there. -/
theorem witness_EngineWritesOnlyItsWriteRegion :
    (∃ t, exec .unpack (unpackBusy 32 0x200 128) = .next t ∧
      (readByte t.mem 0x260 != readByte (unpackBusy 32 0x200 128).mem 0x260) = true) ∧
    ∃ q ∈ (footprint .unpack unpackOver.latch.ops).reads, q.covers 0x11F = true ∧
      ∀ l, Expect.broken .unpack unpackOver l → ¬ Expect.standing l 0x11F :=
  ⟨exists_of_reaches (P := fun t => readByte t.mem 0x260 != readByte (unpackBusy 32 0x200 128).mem 0x260) (by decide),
    ⟨0x100, 32⟩, by decide, by decide, fun l hl => unpackOver_readsStand.2 l hl ⟨0x100, 32⟩ (by decide) 0x11F (by decide)⟩

/-- Two states with the same latch that agree on the read region and differ elsewhere. -/
theorem witness_OutcomeIsAFunctionOfLatchAndReadRegions :
    let s := busy .locate (locateOps 0 64 96) (bytesAt 0 [0x1B])
    let s' := { busy .locate (locateOps 0 64 96) (bytesAt 0 [0x1B, 0x77]) with result := 2#32 }
    s.latch = s'.latch ∧ s.params = s'.params ∧ s.breached = false ∧ s'.breached = false ∧
    Expect.readsStand .locate s ∧ Expect.readsStand .locate s' ∧
    s.mem.wf = true ∧ s'.mem.wf = true ∧ Expect.agreeOn (footprint .locate s.latch.ops).reads s s' ∧
    (∃ t, exec .locate s = .next t ∧ (t.status.ecode == .ok) = true) ∧
    ∃ t, exec .locate s' = .next t ∧ (t.status.ecode == .ok) = true := by
  refine ⟨by decide, by decide, by decide, by decide, fun l hl => ?_, fun l hl => ?_, by decide, by decide, ?_,
    exists_of_reaches (P := fun t => t.status.ecode == .ok) (by decide),
    exists_of_reaches (P := fun t => t.status.ecode == .ok) (by decide)⟩
  · obtain ⟨_, q, hq, _⟩ := hl; cases hq
  · obtain ⟨_, q, hq, _⟩ := hl; cases hq
  intro r hr a ha
  have hr' : r = ⟨0, 1⟩ := by simpa [footprint, busy, busyWord, idle, locateOps, Operands.pa, Operands.idx, byteOff] using hr
  subst hr'
  have : a = 0 := by simpa [Region.covers] using ha
  subst this
  decide

theorem witness_CommandWritesOnlyItsOwnRegister :
    (∃ t, exec .locate locateBusy = .next t ∧ (t.result != locateBusy.result) = true) ∧
    ∃ t, exec .ldscale ldscaleBusy = .next t ∧ (t.ops != ldscaleBusy.ops) = true :=
  ⟨exists_of_reaches (P := fun t => t.result != locateBusy.result) (by decide),
    exists_of_reaches (P := fun t => t.ops != ldscaleBusy.ops) (by decide)⟩

/-- A command whose one byte is the first of the window, with memory that reaches it. -/
theorem witness_RegionOverTheWindowIsRefused :
    let s := { busy .locate (locateOps 0x40000000 1 0) [] with params := { tp with memBytes := 2 ^ 32 } }
    checkCode .locate s.params.memBytes s.latch.ops = .ok ∧
    (∃ q ∈ (footprint .locate s.latch.ops).reads, Expect.overlap q.start q.len s.params.regBase 256) ∧
    isRefused (exec .locate s) .regionCoversWindow = true :=
  ⟨by decide, ⟨⟨0x40000000, 1⟩, by decide, by decide⟩, by decide⟩

/-- A command whose own duty was broken, the bytes beside its write region; and one that breaks an earlier command's. -/
theorem witness_BreachedCommandStillCompletes :
    (let s := { matvecBusy 32 0x3000 with breached := true }
     checkCode .matvec s.params.memBytes s.latch.ops = .ok ∧ (footprint .matvec s.latch.ops).coversWindow s.params = false ∧
     ∀ q ∈ (footprint .matvec s.latch.ops).write, q.covers 0x2FFF = false ∧ q.covers 0x3008 = false) ∧
    (∀ l, Expect.broken .matvec (matvecBusy 32 0x3000) l → ¬ Expect.standing l 0x2FFF) ∧
    checkCode .unpack unpackOver.params.memBytes unpackOver.latch.ops = .ok ∧
    (footprint .unpack unpackOver.latch.ops).coversWindow unpackOver.params = false ∧
    unpackOver.breached = false ∧ Expect.broken .unpack unpackOver unpackEarlier ∧ Expect.readsStand .unpack unpackOver ∧
    unpackOver.mem.wf = true := by
  refine ⟨by decide, fun l hl => ?_, by decide, by decide, by decide, unpackOver_readsStand.1, unpackOver_readsStand.2, by decide⟩
  obtain rfl : l = earlier := by simpa [matvecBusy, busy] using hl.1
  decide

/-- The free value, with one bit turned. -/
theorem freeResult_ne (d : Nat) : freeResult d ≠ freeResult d ^^^ 1#32 := by
  intro h
  have := congrArg (freeResult d ^^^ ·) h
  simp at this

theorem freeWord_ne (d : Nat) : Config.freeWord d ≠ Config.freeWord d ^^^ 1#32 := by
  intro h
  have := congrArg (Config.freeWord d ^^^ ·) h
  simp at this

theorem freeFlag_ne (d : Nat) : Config.freeFlag d ≠ !Config.freeFlag d := by cases Config.freeFlag d <;> decide

/-- A host write that touches one unobserved command. -/
theorem hostWrite_touches_one {s : State} {a : Nat} {w : Width} (v : Word) {l : Launch} (hr : route s.params a w = .memory)
    (hl : touchedLaunches s ⟨a, widthBytes w⟩ = [l]) :
    ∃ t, hostStep (.write a w v) s = .next t ∧
      t.result = (if l.instr = .locate ∧ l.registerKept then freeResult s.draw else s.result) ∧
      t.ops.scale = (if l.instr = .ldscale ∧ l.registerKept then Config.freeWord s.draw else s.ops.scale) ∧
      t.status.rcode = (if s.rcodeIsOf l then Config.freeFlag s.draw else s.status.rcode) := by
  refine ⟨hostWriteMem s a w v, by simp only [hostStep, hr], ?_⟩
  rw [hostWriteMem_eq]
  unfold breakTouched
  have hl' (m : Memory) (b : Bool) : touchedLaunches { s with mem := m, breached := b } ⟨a, widthBytes w⟩ = [l] := hl
  rw [hl']
  exact ⟨rfl, rfl, rfl⟩

/-- An LDSCALE of K10 that has completed unobserved. -/
def ldscaleEarlier : Launch := Launch.fresh .ldscale (ldscaleOps 128 1 0 36)

/-- The first and last byte of a running command's write region and the bytes beside it; a write that touches an unobserved
LOCATE, an LDSCALE and the last successful command, in states that hold other values; and bytes no touched command wrote. -/
theorem witness_HostWriteBreaksTheDutiesItTouches :
    (let s := matvecBusy 32 0x3000
     s.mem.wf = true ∧ s.status.busy = true ∧ decodeWord s.latch.cmd = .ok .matvec ∧ dimensionOk .matvec s.latch.ops = true ∧
     ∀ a ∈ [0x2FFF, 0x3000, 0x3007, 0x3008], route s.params a .byte = .memory ∧
       ∀ l ∈ s.unobserved, Expect.touches l a 1 → ¬ Expect.standing l (a + 1) ∧ ¬ Expect.standing l (a + 0)) ∧
    (let s := { idle Operands.reset [] with unobserved := [earlier], result := freeResult 0 ^^^ 1#32 }
     ∃ t, hostStep (.write 0 .byte 7#32) s = .next t ∧ t.result ≠ s.result) ∧
    (let s := { idle { Operands.reset with scale := Config.freeWord 0 ^^^ 1#32 } [] with unobserved := [ldscaleEarlier] }
     ∃ t, hostStep (.write 35 .byte 7#32) s = .next t ∧ t.ops.scale ≠ s.ops.scale) ∧
    (let s := { idle Operands.reset [] with unobserved := [earlier], status := { Status.reset with rcode := !Config.freeFlag 0 } }
     ∃ t, hostStep (.write 0 .byte 7#32) s = .next t ∧ t.status.rcode ≠ s.status.rcode) := by
  refine ⟨by decide, ?_, ?_, ?_⟩
  · obtain ⟨t, ht, h, _⟩ := hostWrite_touches_one (s := { idle Operands.reset [] with
      unobserved := [earlier], result := freeResult 0 ^^^ 1#32 }) (a := 0) (w := .byte) (l := earlier) 7#32 (by decide) rfl
    exact ⟨t, ht, h ▸ freeResult_ne 0⟩
  · obtain ⟨t, ht, _, h, _⟩ := hostWrite_touches_one (s := { idle { Operands.reset with scale := Config.freeWord 0 ^^^ 1#32 } [] with
      unobserved := [ldscaleEarlier] }) (a := 35) (w := .byte) (l := ldscaleEarlier) 7#32 (by decide) rfl
    exact ⟨t, ht, h ▸ freeWord_ne 0⟩
  · obtain ⟨t, ht, _, _, h⟩ := hostWrite_touches_one (s := { idle Operands.reset [] with
      unobserved := [earlier], status := { Status.reset with rcode := !Config.freeFlag 0 } })
      (a := 0) (w := .byte) (l := earlier) 7#32 (by decide) rfl
    exact ⟨t, ht, h ▸ freeFlag_ne 0⟩

/-- The last bytes of memory in every width, and the byte beside a running command's write region. -/
theorem witness_HostWriteReadsBackLittleEndian :
    (let s := after (idle Operands.reset (bytesAt 5 [1])) [earlier]
     ∀ x ∈ [(0xFFFF, Width.byte), (0xFFFE, Width.half), (0xFFFC, Width.word), (0xFFFB, Width.half)],
       s.mem.wf = true ∧ s.status.busy = false ∧ Expect.unobservedClear s x.1 (widthBytes x.2) ∧
       Expect.clear s x.1 (widthBytes x.2) ∧ x.1 + widthBytes x.2 ≤ s.params.memBytes) ∧
    (let s := matvecBusy 32 0x3000
     s.mem.wf = true ∧ s.status.busy = true ∧
     (∀ i, decodeWord s.latch.cmd = .ok i → dimensionOk i s.latch.ops = true →
       ∀ q ∈ (footprint i s.latch.ops).write.toList ++ (footprint i s.latch.ops).reads,
         ¬ Expect.overlap 0x3008 (widthBytes .byte) q.start q.len) ∧
     Expect.unobservedClear s 0x3008 1 ∧ Expect.clear s 0x3008 1 ∧ 0x3008 + 1 ≤ s.params.memBytes) := by
  refine ⟨by decide, by decide, by decide, fun i hi _ => ?_, by decide, by decide, by decide⟩
  obtain rfl : Instr.matvec = i := by
    have h : decodeWord (matvecBusy 32 0x3000).latch.cmd = .ok .matvec := by decide
    exact Except.ok.inj (h.symm.trans hi)
  decide

/-- A read beside a running command's write region, and one with no command running. -/
theorem witness_MemoryReadReturnsWhatMemoryHolds :
    route (matvecBusy 32 0x3000).params 0x3008 .word = .memory ∧
    (∀ q ∈ (footprint .matvec (matvecBusy 32 0x3000).latch.ops).write, ¬ Expect.overlap 0x3008 4 q.start q.len) ∧
    route (idle Operands.reset []).params 0xFFFF .byte = .memory ∧ (idle Operands.reset []).status.busy = false := by
  decide

theorem witness_StepKeepsTheParameters : ∃ t, step locateBusy = .next t ∧ true = true :=
  exists_of_reaches (P := fun _ => true) (by decide)

/-- A dropped `CMD` write sets `OVR`; a write of `STATUS` clears it. -/
theorem witness_OverrunHasOneCause :
    (locateBusy.status.ovr = false ∧
      ∃ t, step (withAgenda locateBusy [.host (.write 0x4000000C .word 0#32)]) = .next t ∧ t.status.ovr = true) ∧
    let s := { locateBusy with status := { locateBusy.status with ovr := true } }
    s.status.ovr = true ∧ ∃ t, step (withAgenda s [.host (.write 0x40000008 .word 0x10#32)]) = .next t ∧ (!t.status.ovr) = true :=
  ⟨⟨by decide, exists_of_reaches (P := fun t => t.status.ovr) (by decide)⟩,
    by decide, exists_of_reaches (P := fun t => !t.status.ovr) (by decide)⟩

/-- An acceptance sets `BUSY`; the engine's turn and a reset clear it. -/
theorem witness_BusyHasOneStartAndTwoEnds :
    (∃ t, step (withAgenda (idle Operands.reset []) [.host (.write 0x4000000C .word 1#32)]) = .next t ∧ t.status.busy = true) ∧
    locateBusy.status.busy = true ∧ (∃ t, step locateBusy = .next t ∧ (!t.status.busy) = true) ∧
    ∃ t, step (withAgenda locateBusy [.host (.reset true)]) = .next t ∧ (!t.status.busy) = true :=
  ⟨exists_of_reaches (P := fun t => t.status.busy) (by decide), by decide,
    exists_of_reaches (P := fun t => !t.status.busy) (by decide), exists_of_reaches (P := fun t => !t.status.busy) (by decide)⟩

/-- `DONE` set by a completion and cleared by a `STATUS` write and an acceptance; `ECODE` and `RCODE` changed by a completion;
`RCODE` changed by a host write that touches the last successful command. -/
theorem witness_FlagsChangeOnlyForTheirCauses :
    (locateBusy.status.done = false ∧ ∃ t, step locateBusy = .next t ∧ (t.status.done && t.status.rcode) = true) ∧
    (let s := { idle Operands.reset [] with status := { Status.reset with done := true } }
     s.status.done = true ∧
     (∃ t, step (withAgenda s [.host (.write 0x40000008 .word 0x2#32)]) = .next t ∧ (!t.status.done) = true) ∧
     (∃ t, step (withAgenda s [.host (.write 0x4000000C .word 0#32)]) = .next t ∧ (!t.status.done) = true) ∧
     ∃ t, step (withAgenda s [.host (.reset true)]) = .next t ∧ (!t.status.done) = true) ∧
    (∃ t, step (matvecBusy 31 0x3000) = .next t ∧ (t.status.ecode != (matvecBusy 31 0x3000).status.ecode) = true) ∧
    (let s := { idle Operands.reset [] with
       unobserved := [earlier], status := { Status.reset with rcode := !Config.freeFlag 0 }
       agenda := [.host (.write 0 .byte 7#32)] }
     ∃ t, step s = .next t ∧ t.status.rcode ≠ s.status.rcode) := by
  refine ⟨⟨by decide, exists_of_reaches (P := fun t => t.status.done && t.status.rcode) (by decide)⟩,
    ⟨by decide, exists_of_reaches (P := fun t => !t.status.done) (by decide),
      exists_of_reaches (P := fun t => !t.status.done) (by decide), exists_of_reaches (P := fun t => !t.status.done) (by decide)⟩,
    exists_of_reaches (P := fun t => t.status.ecode != (matvecBusy 31 0x3000).status.ecode) (by decide), ?_⟩
  obtain ⟨t, ht, _, _, h⟩ := hostWrite_touches_one (s := { idle Operands.reset [] with
    unobserved := [earlier], status := { Status.reset with rcode := !Config.freeFlag 0 } })
    (a := 0) (w := .byte) (l := earlier) 7#32 (by decide) rfl
  exact ⟨t, ht, h ▸ freeFlag_ne 0⟩

/-- An acceptance, and a reset. -/
theorem witness_LatchChangesOnlyAtAcceptanceOrReset :
    (∃ t, step (withAgenda (idle Operands.reset []) [.host (.write 0x4000000C .word 1#32)]) = .next t ∧
      (t.latch != Latch.reset) = true) ∧
    ∃ t, step (withAgenda locateBusy [.host (.reset true)]) = .next t ∧ (t.latch != locateBusy.latch) = true :=
  ⟨exists_of_reaches (P := fun t => t.latch != Latch.reset) (by decide),
    exists_of_reaches (P := fun t => t.latch != locateBusy.latch) (by decide)⟩

/-- A running UNPACK with a byte of memory listed, and an earlier command. -/
theorem witness_StepKeepsTheMachineInvariant :
    (unpackBusy 32 0x200 128).Inv ∧ ∃ t, step (unpackBusy 32 0x200 128) = .next t ∧ true = true :=
  ⟨⟨by decide, by decide, by decide, by decide, by decide, by decide, by decide⟩,
    exists_of_reaches (P := fun _ => true) (by decide)⟩

theorem witness_DecodeTableHoldsTheBitPairs : 0 < 4 ∧ 3 < 4 := by decide

theorem witness_CodesHaveTheirOwnBits :
    byteOff 0 = byteOff 0 ∧ group 0 = group 0 ∧ 127 < 128 ∧ 128 < 129 ∧ 31 < packedBytes 1 ∧ 63 < packedBytes 129 := by decide

theorem witness_PackedByteHoldsFourCodes : 0 < 32 ∧ 31 < 32 := by decide

theorem witness_AlignedColumnFillsWholeBlocks : 128 % 128 = 0 ∧ 0 < 128 ∧ 127 < 128 ∧ 256 % 128 = 0 ∧ 128 < 256 := by decide

/-- A half unit: 0x00000000 and 0x00000001 are equally near, and the even one is taken. The largest finite pattern. The
magnitude at the threshold of overflow, and the one below. -/
theorem witness_RoundingIsNearestTiesToEven :
    (0 < 2 ∧ isFinite 0x00000001#32 = true ∧ isFinite (roundFloat false 1 2) = true) ∧
    (0 < 1 ∧ isFinite 0x7F7FFFFF#32 = true ∧ isFinite (roundFloat true (fMag 0x7F7FFFFF#32) 1) = true) ∧
    (isFinite (roundFloat true ((2 ^ 25 - 1) * 2 ^ 252) 1) = false ∧
      isFinite (roundFloat true ((2 ^ 25 - 1) * 2 ^ 252 - 1) 1) = true) ∧
    fVal 0x3F800000#32 + fVal 0x80000001#32 ≠ 0 ∧ feq0 0x00000001#32 = false := by decide

/-- A NaN on each side; opposite zeros, two −0.0, and a number and its negation; infinities alike and opposite; an infinity
with a finite number, with a zero and with an infinity; a number and a zero divided by a zero. -/
theorem witness_FloatSpecialCasesHold :
    (isNaN 0x7F800001#32 = true ∧ isNaN 0xFFFFFFFF#32 = true) ∧
    (isFinite 0x00000000#32 = true ∧ isFinite 0x80000000#32 = true ∧ fVal 0x00000000#32 + fVal 0x80000000#32 = 0) ∧
    fVal 0x80000000#32 + fVal 0x80000000#32 = 0 ∧
    (isFinite 0x3F800000#32 = true ∧ isFinite 0xBF800000#32 = true ∧ fVal 0x3F800000#32 + fVal 0xBF800000#32 = 0) ∧
    (isInf 0x7F800000#32 = true ∧ isInf 0xFF800000#32 = true) ∧ isFinite 0x7F7FFFFF#32 = true ∧
    (feq0 0x80000000#32 = true ∧ isFinite 0x80000000#32 = true ∧ feq0 0x00000000#32 = true) ∧
    (isNaN 0x00000001#32 = false ∧ feq0 0x00000001#32 = false ∧ isNaN 0xFF800000#32 = false ∧ feq0 0xFF800000#32 = false) :=
  ⟨by decide, by decide, by decide, by decide, by decide, by decide, by decide, by decide⟩

theorem witness_ContributionTableHolds :
    isNaN 0x7F800000#32 = false ∧ isFinite 0x80000000#32 = true ∧ isInf 0xFF800000#32 = true ∧
    isNaN 0x7F800001#32 = true := by decide

/-- A −0.0 input with a finite scale, and a +0.0 input with an infinite one. -/
theorem witness_ZeroInputColumnIsSkippable :
    feq0 (vecElem (writeCells [] (wordsAt 0x2000 [0x3F800000, 0x80000000])) (mat 1 2 32 2 1 0x3F800000).sa 1) = true ∧
    isFinite (mat 1 2 32 2 1 0x3F800000).scale = true ∧
    feq0 (vecElem [] (mat 1 2 32 2 1 0x7F800000).sa 0) = true ∧ isFinite (mat 1 2 32 2 1 0x7F800000).scale = false := by
  decide

theorem witness_ZeroActScaleGivesSignedZero : feq0 0x00000000#32 = true ∧ feq0 0x80000000#32 = true := by decide

theorem witness_IntegerSumIsOrderFree :
    [1, 0].Perm (List.range 2) ∧ 2 ≤ 5592405 ∧
    ∀ j, j < 2 → -128 ≤ (fun _ => (-128 : Int)) j ∧ (fun _ => (-128 : Int)) j ≤ 127 := by decide

theorem witness_CorrectionRestoresTheTernaryDot :
    2 ≤ 5592405 ∧ (∀ j : Nat, j < 2 → -128 ≤ (127 : Int) ∧ (127 : Int) ≤ 127) ∧
    ∀ j, j < 2 → (fun k => BitVec.ofNat 2 (2 * k)) j ≠ 3#2 := by decide

/-- Q20 and Q21 on the first two rows of a column. -/
theorem witness_FusedColumnEqualsFloatColumn :
    let o : Operands := { mat 2 1 32 2 1 0x3F000000 with actScale := 0x3F800000#32, actSum := 3#32 }
    let o' : Operands := mat 2 1 32 2 1 0x3F000000
    let m : Memory := writeCells [] (bytesAt 0x1000 [0xBF, 0x7F] ++ bytesAt 0x2000 [0x0A, 0xF9])
    let m' : Memory := writeCells [] (bytesAt 0x1000 [0xBF, 0x7F] ++ wordsAt 0x2000 [0x41200000, 0xC0E00000])
    o'.rowsN = o.rowsN ∧ o.rowsN ≤ 131072 ∧ o.rowsN = 2 ∧
    (∀ r, r < 2 → codeAt m o.pa (r + o.rowsN * 0) ≠ 3#2 ∧
      codeAt m' o'.pa (r + o.rowsN * 0) = codeAt m o.pa (r + o.rowsN * 0) ∧
      vecElem m' o'.sa r = i2f (qvecElem m o.sa r)) ∧
    o.actSum.toInt = ((List.range o.rowsN).map (qvecElem m o.sa)).sum ∧
    o'.scale = scaleFactor o.scale o.actScale := by decide

end Sys2Proof.Tests
end

section
/-! PROOFS of the statements of spec/00_scope.md: the step and its parameters (O41, O5), the float primitives off the finite
rounding (O60), and the finite rounding (O51). -/

namespace Sys2Proof.Machine

/-! ### The step -/

@[simp] theorem hostReadReg_params (s : State) (off : Nat) : (hostReadReg s off).params = s.params := by
  rw [hostReadReg_eq]

@[simp] theorem hostWriteReg_params (s : State) (off : Nat) (v : Word) : (hostWriteReg s off v).params = s.params := by
  unfold hostWriteReg
  split
  · rfl
  · split
    · rfl
    · exact writeReg_params ..

@[simp] theorem hostWriteMem_params (s : State) (a : Nat) (w : Width) (v : Word) :
    (hostWriteMem s a w v).params = s.params := by
  rw [hostWriteMem_frame]

/-- No step of the host changes a parameter (R33). -/
theorem hostStep_params {h : HostStep} {s t : State} (hs : hostStep h s = .next t) : t.params = s.params := by
  obtain ⟨_, _, rfl⟩ | ⟨_, _, _, rfl⟩ | ⟨_, _, _, rfl⟩ | ⟨_, _, _, _, rfl⟩ | ⟨_, _, rfl⟩ | ⟨_, _, rfl⟩ :=
    hostStep_cases hs <;> simp

theorem exec_params {i : Instr} {s t : State} (h : exec i s = .next t) : t.params = s.params := by
  obtain ⟨_, rfl⟩ | ⟨_, _, rfl⟩ := exec_cases h <;> simp

theorem engineTurn_params {s t : State} (h : engineTurn s = .next t) : t.params = s.params := by
  obtain ⟨_, rfl⟩ | ⟨_, ⟨_, _, he⟩ | ⟨_, rfl⟩⟩ := engineTurn_cases h
  · rfl
  · exact exec_params he
  · rfl

/-- Settles O41, by what a step can do. -/
theorem stepKeepsTheParameters : Obligations.StepKeepsTheParameters := by
  intro s t h
  obtain ⟨_, _, he⟩ | ⟨_, _, _, hh⟩ := step_cases h
  · exact (engineTurn_params he).trans rfl
  · exact (hostStep_params hh).trans rfl

/-- An idle engine, and one held in reset, does nothing (R245, R260). -/
theorem engineTurn_of_idle_or_held {s : State} (h : s.status.busy = false ∨ s.resetHeld = true) :
    engineTurn s = .next s := by
  unfold engineTurn
  rcases h with h | h <;> simp [h]

/-- Settles O5: the clauses are the branches of `step` and the idle branch of `engineTurn`. -/
theorem stepFollowsTheAgenda : Obligations.StepFollowsTheAgenda := by
  intro s rest
  refine ⟨fun h ha => ?_, fun ha => ?_, fun ha => ?_, engineTurn_of_idle_or_held⟩ <;> simp only [step, ha]

/-! ### Zeros and infinities as packed patterns -/

theorem eq_fPack_of_feq0 {x : Word} (h : feq0 x = true) : x = fPack (fSign x) 0 := by
  simp only [feq0, Bool.and_eq_true, beq_iff_eq] at h
  obtain ⟨he, hf⟩ := h
  have hx := fPack_fields x
  rw [he, hf] at hx
  exact hx.symm

theorem eq_fInf_of_isInf {x : Word} (h : isInf x = true) : x = fInf (fSign x) := by
  simp only [isInf, Bool.and_eq_true, beq_iff_eq] at h
  obtain ⟨he, hf⟩ := h
  have hx := fPack_fields x
  rw [he, hf] at hx
  exact hx.symm

theorem fInf_eq_infinity (s : Bool) : fInf s = Expect.infinity s := by cases s <;> rfl

theorem fPack_zero_eq_zero (s : Bool) : fPack s 0 = Expect.zero s := by cases s <;> rfl

theorem isNaN_of_isInf {x : Word} (h : isInf x = true) : isNaN x = false := by
  rw [eq_fInf_of_isInf h]
  cases fSign x <;> decide

theorem feq0_of_isInf {x : Word} (h : isInf x = true) : feq0 x = false := by
  rw [eq_fInf_of_isInf h]
  cases fSign x <;> decide

theorem isFinite_of_feq0 {x : Word} (h : feq0 x = true) : isFinite x = true := by
  rw [eq_fPack_of_feq0 h]
  cases fSign x <;> decide

theorem feq0_iff {x : Word} : feq0 x = true ↔ x = 0x00000000#32 ∨ x = 0x80000000#32 := by
  constructor
  · intro h
    rw [eq_fPack_of_feq0 h]
    cases fSign x <;> decide
  · rintro (rfl | rfl) <;> decide

/-- A pattern is -0.0 exactly when it is a negative zero. -/
theorem eq_negZero_iff {x : Word} : x = 0x80000000#32 ↔ fSign x = true ∧ feq0 x = true := by
  constructor
  · rintro rfl
    decide
  · rintro ⟨hs, h⟩
    rw [eq_fPack_of_feq0 h, hs]
    rfl

/-- Infinities of one sign are one pattern. -/
theorem eq_iff_fSign_eq_of_isInf {a b : Word} (ha : isInf a = true) (hb : isInf b = true) :
    a = b ↔ fSign a = fSign b := by
  constructor
  · rintro rfl
    rfl
  · intro h
    rw [eq_fInf_of_isInf ha, eq_fInf_of_isInf hb, h]

/-- Two negative numbers whose sum is zero are both -0.0. -/
theorem feq0_of_fVal_add_eq_zero {a b : Word} (ha : fSign a = true) (hb : fSign b = true) (h : fVal a + fVal b = 0) :
    feq0 a = true ∧ feq0 b = true := by
  simp only [fVal, ha, hb, if_true] at h
  exact ⟨fMag_eq_zero.1 (by omega), fMag_eq_zero.1 (by omega)⟩

/-! ### The primitives on operands outside the finite rounding -/

theorem primitives_of_isNaN {a b : Word} (h : isNaN a = true ∨ isNaN b = true) :
    fadd a b = canonicalNaN ∧ fmul a b = canonicalNaN ∧ fdiv a b = canonicalNaN := by
  have hn : (isNaN a || isNaN b) = true := by simpa using h
  simp [fadd, fmul, fdiv, hn]

theorem fadd_of_fVal_add_eq_zero {a b : Word} (ha : isFinite a = true) (hb : isFinite b = true)
    (h : fVal a + fVal b = 0) :
    fadd a b = if a = 0x80000000#32 ∧ b = 0x80000000#32 then 0x80000000#32 else 0x00000000#32 := by
  obtain ⟨han, hai⟩ := isFinite_iff.1 ha
  obtain ⟨hbn, hbi⟩ := isFinite_iff.1 hb
  have hadd : fadd a b = fPack (fSign a && fSign b) 0 := by simp [fadd, han, hai, hbn, hbi, h]
  rw [hadd]
  cases hs : fSign a && fSign b with
  | true =>
    obtain ⟨hsa, hsb⟩ := Bool.and_eq_true_iff.1 hs
    obtain ⟨hza, hzb⟩ := feq0_of_fVal_add_eq_zero hsa hsb h
    rw [if_pos ⟨eq_negZero_iff.2 ⟨hsa, hza⟩, eq_negZero_iff.2 ⟨hsb, hzb⟩⟩]
    rfl
  | false =>
    rw [if_neg]
    · rfl
    · rintro ⟨rfl, rfl⟩
      exact absurd hs (by decide)

theorem fadd_fdiv_of_isInf_isInf {a b : Word} (ha : isInf a = true) (hb : isInf b = true) :
    fadd a b = (if a = b then a else canonicalNaN) ∧ fdiv a b = canonicalNaN := by
  simp only [fadd, fdiv, isNaN_of_isInf ha, isNaN_of_isInf hb, ha, hb, eq_iff_fSign_eq_of_isInf ha hb]
  by_cases h : fSign a = fSign b <;> simp [h]

theorem fadd_fdiv_of_isInf_isFinite {a b : Word} (ha : isInf a = true) (hb : isFinite b = true) :
    fadd a b = a ∧ fadd b a = a ∧ fdiv a b = fInf (fSign a != fSign b) ∧ fdiv b a = fPack (fSign a != fSign b) 0 := by
  obtain ⟨hbn, hbi⟩ := isFinite_iff.1 hb
  simp [fadd, fdiv, isNaN_of_isInf ha, ha, hbn, hbi, bne_comm (a := fSign b)]

theorem fmul_of_isInf_feq0 {a b : Word} (ha : isInf a = true) (hb : feq0 b = true) :
    fmul a b = canonicalNaN ∧ fmul b a = canonicalNaN := by
  obtain ⟨hbn, hbi⟩ := isFinite_iff.1 (isFinite_of_feq0 hb)
  simp [fmul, ha, hb]

theorem fmul_of_isInf_ne_zero {a b : Word} (ha : isInf a = true) (hb : isNaN b = false) (h0 : feq0 b = false) :
    fmul a b = fInf (fSign a != fSign b) ∧ fmul b a = fInf (fSign a != fSign b) := by
  simp [fmul, isNaN_of_isInf ha, feq0_of_isInf ha, ha, hb, h0, bne_comm (a := fSign b)]

theorem fdiv_of_feq0 {a b : Word} (ha : isFinite a = true) (hb : feq0 b = true) :
    fdiv a b = if feq0 a then canonicalNaN else fInf (fSign a != fSign b) := by
  obtain ⟨han, hai⟩ := isFinite_iff.1 ha
  obtain ⟨hbn, hbi⟩ := isFinite_iff.1 (isFinite_of_feq0 hb)
  simp [fdiv, han, hai, hbn, hbi, hb]

/-- Settles O60, a clause by the lemma of each class of operands. -/
theorem floatSpecialCasesHold : Obligations.FloatSpecialCasesHold := by
  unfold Obligations.FloatSpecialCasesHold
  simp only [← fInf_eq_infinity, ← fPack_zero_eq_zero]
  exact ⟨fun _ _ => primitives_of_isNaN, fun _ _ => fadd_of_fVal_add_eq_zero, fun _ _ => fadd_fdiv_of_isInf_isInf,
    fun _ _ => fadd_fdiv_of_isInf_isFinite, fun _ _ => fmul_of_isInf_feq0, fun _ _ => fmul_of_isInf_ne_zero,
    fun _ _ => fdiv_of_feq0, fun _ => feq0_iff⟩

/-! ### Rounding to nearest, ties to even -/

/-- `roundDiv` is the quotient or the next number, by the remainder: in each case the doubled remainder says which is nearer. -/
theorem roundDiv_cases (num : Nat) {den : Nat} (hd : 0 < den) :
    ∃ q r, num = q * den + r ∧ r < den ∧
      (roundDiv num den = q ∧ 2 * r ≤ den ∧ (2 * r = den → q % 2 = 0) ∨
        roundDiv num den = q + 1 ∧ den ≤ 2 * r ∧ (2 * r = den → (q + 1) % 2 = 0)) := by
  refine ⟨num / den, num % den, (Nat.div_add_mod' num den).symm, Nat.mod_lt _ hd, ?_⟩
  simp only [roundDiv]
  split_ifs <;> omega

/-- No whole number is nearer to `num / den` than `roundDiv num den`, and another one is equally near only when that one is
even. -/
theorem roundDiv_nearest (num : Nat) {den : Nat} (hd : 0 < den) (n : Nat) :
    let near := ((roundDiv num den * den : Nat) - (num : Int)).natAbs
    let other := ((n * den : Nat) - (num : Int)).natAbs
    near ≤ other ∧ (near = other → n ≠ roundDiv num den → roundDiv num den % 2 = 0) := by
  obtain ⟨q, r, hnum, hr, hround⟩ := roundDiv_cases num hd
  have hq : (q + 1) * den = q * den + den := Nat.succ_mul ..
  -- `num` lies between `q` and `q + 1` times `den`, and any other `n` is a whole `den` or more beyond one of them
  have hn : n = q ∨ n = q + 1 ∨ n * den + den ≤ q * den ∨ (q + 1) * den + den ≤ n * den := by
    rcases Nat.lt_trichotomy n q with h | h | h
    · have := Nat.mul_le_mul_right den h
      rw [Nat.succ_mul] at this
      exact .inr (.inr (.inl this))
    · exact .inl h
    · rcases Nat.eq_or_lt_of_le h with h | h
      · exact .inr (.inl h.symm)
      · have := Nat.mul_le_mul_right den h
        rw [Nat.succ_mul] at this
        exact .inr (.inr (.inr this))
  rcases hround with ⟨hR, hle, htie⟩ | ⟨hR, hle, htie⟩
  all_goals
    rw [hR]
    rcases hn with rfl | rfl | hn | hn <;> constructor <;> omega

/-- Below an even number, `roundDiv` stays exactly below the half before it: the half itself is a tie and goes up. -/
theorem roundDiv_lt_iff_of_even (num : Nat) {den : Nat} (hd : 0 < den) {m : Nat} (hm : m % 2 = 0) :
    roundDiv num den < m ↔ 2 * num + den < 2 * (m * den) := by
  obtain ⟨q, r, rfl, hr, hround⟩ := roundDiv_cases num hd
  have hq : (q + 1) * den = q * den + den := Nat.succ_mul ..
  rcases Nat.lt_trichotomy m (q + 1) with h | rfl | h
  · have := Nat.mul_le_mul_right den (Nat.le_of_lt_succ h)
    omega
  · omega
  · have := Nat.mul_le_mul_right den h
    rw [Nat.succ_mul] at this
    omega

theorem le_roundDiv {num den n : Nat} (hd : 0 < den) (h : n * den ≤ num) : n ≤ roundDiv num den := by
  obtain ⟨q, r, rfl, hr, hround⟩ := roundDiv_cases num hd
  have hn : n ≤ q := Nat.le_of_lt_succ (Nat.lt_of_mul_lt_mul_right (a := den) (by rw [Nat.succ_mul]; omega))
  omega

theorem roundDiv_le {num den n : Nat} (hd : 0 < den) (h : num < n * den) : roundDiv num den ≤ n := by
  obtain ⟨q, r, rfl, hr, hround⟩ := roundDiv_cases num hd
  have hn : q < n := Nat.lt_of_mul_lt_mul_right (a := den) (by omega)
  omega

/-! ### The unit in the last place and the mantissa of a rounded value -/

/-- The exponent of the unit in the last place to which `roundMag` rounds `num / den`: a unit is `2 ^ ulpExp` units of
2^-149. -/
def ulpExp (num den : Nat) : Nat := Nat.log2 (num / den) - 23

/-- The rounded magnitude `num / den`, in units in the last place. -/
def mantissa (num den : Nat) : Nat := roundDiv num (den * 2 ^ ulpExp num den)

theorem roundMag_eq (num den : Nat) :
    roundMag num den = min (ulpExp num den * 2 ^ 23 + mantissa num den) 0x7F800000 := rfl

/-- At most 24 bits stand before the last place. -/
theorem lt_ulp (num : Nat) {den : Nat} (hd : 0 < den) : num < 2 ^ 24 * (den * 2 ^ ulpExp num den) := by
  have hlog : num / den < 2 ^ (24 + ulpExp num den) :=
    Nat.lt_of_lt_of_le Nat.lt_log2_self (Nat.pow_le_pow_right (by norm_num) (by unfold ulpExp; omega))
  calc num < 2 ^ (24 + ulpExp num den) * den := (Nat.div_lt_iff_lt_mul hd).1 hlog
    _ = 2 ^ 24 * (den * 2 ^ ulpExp num den) := by ring

/-- Above the subnormals' last place, 24 bits stand before it. -/
theorem ulp_le {num den : Nat} (hd : 0 < den) (h : ulpExp num den ≠ 0) : 2 ^ 23 * (den * 2 ^ ulpExp num den) ≤ num := by
  have hq : num / den ≠ 0 := by
    intro h0
    simp [ulpExp, h0] at h
  have hlog : 2 ^ (23 + ulpExp num den) ≤ num / den :=
    Nat.le_trans (Nat.pow_le_pow_right (by norm_num) (by unfold ulpExp at h ⊢; omega)) (Nat.log2_self_le hq)
  calc 2 ^ 23 * (den * 2 ^ ulpExp num den) = 2 ^ (23 + ulpExp num den) * den := by ring
    _ ≤ num := (Nat.le_div_iff_mul_le hd).1 hlog

theorem ulp_pos (num : Nat) {den : Nat} (hd : 0 < den) : 0 < den * 2 ^ ulpExp num den := by positivity

theorem mantissa_le (num : Nat) {den : Nat} (hd : 0 < den) : mantissa num den ≤ 2 ^ 24 :=
  roundDiv_le (ulp_pos num hd) (lt_ulp num hd)

theorem le_mantissa {num den : Nat} (hd : 0 < den) (h : ulpExp num den ≠ 0) : 2 ^ 23 ≤ mantissa num den :=
  le_roundDiv (ulp_pos num hd) (ulp_le hd h)

/-! ### When a rounded value is finite -/

theorem isFinite_roundFloat_iff (s : Bool) (num den : Nat) :
    isFinite (roundFloat s num den) = true ↔ ulpExp num den * 2 ^ 23 + mantissa num den < 0x7F800000 := by
  have hle := roundMag_le num den
  rw [isFinite, roundFloat, fExp_fPack (by omega), bne_iff_ne]
  rw [roundMag_eq] at hle ⊢
  omega

theorem roundFloat_of_not_isFinite {s : Bool} {num den : Nat} (h : isFinite (roundFloat s num den) = false) :
    roundFloat s num den = fInf s := by
  have hlow := (isFinite_roundFloat_iff s num den).not.1 (by simp [h])
  rw [roundFloat, roundMag_eq, Nat.min_eq_right (by omega), fInf]

/-- A rounded value is finite exactly below the largest finite magnitude plus half its last place, which is `2 ^ 253`. -/
theorem isFinite_roundFloat_iff_lt (s : Bool) (num : Nat) {den : Nat} (hd : 0 < den) :
    isFinite (roundFloat s num den) = true ↔ num < (2 ^ 25 - 1) * 2 ^ 252 * den := by
  rw [isFinite_roundFloat_iff]
  have hm := mantissa_le num hd
  rcases Nat.lt_trichotomy (ulpExp num den) 253 with h | h | h
  · have hlt := lt_ulp num hd
    have hpow : den * 2 ^ ulpExp num den ≤ den * 2 ^ 252 :=
      Nat.mul_le_mul_left _ (Nat.pow_le_pow_right (by norm_num) (by omega))
    omega
  · have htie := roundDiv_lt_iff_of_even num (ulp_pos num hd) (m := 2 ^ 24) (by norm_num)
    rw [← mantissa, h] at htie
    rw [h]
    omega
  · have hsh : ulpExp num den ≠ 0 := by omega
    have hge := ulp_le hd hsh
    have hm' := le_mantissa hd hsh
    have hpow : den * 2 ^ 254 ≤ den * 2 ^ ulpExp num den :=
      Nat.mul_le_mul_left _ (Nat.pow_le_pow_right (by norm_num) (by omega))
    omega

/-! ### A finite rounded value is the nearest pattern -/

/-- The pattern with mantissa `m` at the last place `2 ^ sh`: a mantissa of `2 ^ 24` carries into the exponent. -/
theorem fMag_fPack {s : Bool} {sh m : Nat} (hm : m ≤ 2 ^ 24) (hsh : sh = 0 ∨ 2 ^ 23 ≤ m)
    (hfit : sh * 2 ^ 23 + m < 2 ^ 31) : fMag (fPack s (sh * 2 ^ 23 + m)) = m * 2 ^ sh := by
  unfold fMag
  rw [fExp_fPack hfit, fFrac_fPack hfit]
  rcases Nat.lt_or_ge m (2 ^ 23) with hlt | hge
  · obtain rfl : sh = 0 := by omega
    rw [if_pos (by omega)]
    omega
  rw [if_neg (by omega)]
  rcases Nat.eq_or_lt_of_le hm with rfl | hlt
  · have he : (sh * 2 ^ 23 + 2 ^ 24) / 2 ^ 23 - 1 = sh + 1 := by omega
    have hf : (sh * 2 ^ 23 + 2 ^ 24) % 2 ^ 23 = 0 := by omega
    rw [he, hf]
    ring
  · have he : (sh * 2 ^ 23 + m) / 2 ^ 23 - 1 = sh := by omega
    have hf : 2 ^ 23 + (sh * 2 ^ 23 + m) % 2 ^ 23 = m := by omega
    rw [he, hf]

section
variable {s : Bool} {num den : Nat} (hd : 0 < den) (hf : isFinite (roundFloat s num den) = true)
include hf

theorem roundFloat_of_isFinite :
    roundFloat s num den = fPack s (ulpExp num den * 2 ^ 23 + mantissa num den) := by
  have hlow := (isFinite_roundFloat_iff s num den).1 hf
  rw [roundFloat, roundMag_eq, Nat.min_eq_left (by omega)]

theorem fFrac_roundFloat_mod_two : fFrac (roundFloat s num den) % 2 = mantissa num den % 2 := by
  have hlow := (isFinite_roundFloat_iff s num den).1 hf
  rw [roundFloat_of_isFinite hf, fFrac_fPack (by omega)]
  omega

include hd

theorem fMag_roundFloat : fMag (roundFloat s num den) = mantissa num den * 2 ^ ulpExp num den := by
  have hlow := (isFinite_roundFloat_iff s num den).1 hf
  rw [roundFloat_of_isFinite hf]
  exact fMag_fPack (mantissa_le num hd) (or_iff_not_imp_left.2 (le_mantissa hd)) (by omega)

end

/-- A pattern's magnitude is at most 24 bits at some last place. -/
theorem fMag_eq_mul_pow (y : Word) : ∃ m k, m < 2 ^ 24 ∧ fMag y = m * 2 ^ k := by
  have hy := fFrac_lt y
  unfold fMag
  split
  · exact ⟨fFrac y, 0, by omega, by simp⟩
  · exact ⟨_, _, by omega, rfl⟩

/-- Every pattern is, at the last place `2 ^ sh`, a whole number of units, or below the least 24-bit number of them. -/
theorem fMag_multiple_or_lt (y : Word) (sh : Nat) :
    (∃ n, fMag y = n * 2 ^ sh) ∨ sh ≠ 0 ∧ fMag y < 2 ^ 23 * 2 ^ sh := by
  obtain ⟨m, k, hm, hy⟩ := fMag_eq_mul_pow y
  rcases Nat.lt_or_ge k sh with h | h
  · refine .inr ⟨by omega, ?_⟩
    calc fMag y = m * 2 ^ k := hy
      _ < 2 ^ 24 * 2 ^ k := Nat.mul_lt_mul_of_pos_right hm (by positivity)
      _ = 2 ^ 23 * 2 ^ (k + 1) := by ring
      _ ≤ 2 ^ 23 * 2 ^ sh := Nat.mul_le_mul_left _ (Nat.pow_le_pow_right (by norm_num) h)
  · refine .inl ⟨m * 2 ^ (k - sh), ?_⟩
    rw [hy, Nat.mul_assoc, ← Nat.pow_add, Nat.sub_add_cancel h]

/-- No pattern is nearer to `num / den` than its finite rounding, and another one is equally near only when the rounding's
fraction is even. -/
theorem roundFloat_nearest {s : Bool} {num den : Nat} (hd : 0 < den) (hf : isFinite (roundFloat s num den) = true)
    (y : Word) :
    let near := ((fMag (roundFloat s num den) * den : Nat) - (num : Int)).natAbs
    let other := ((fMag y * den : Nat) - (num : Int)).natAbs
    near ≤ other ∧ (near = other → fMag y ≠ fMag (roundFloat s num den) → fFrac (roundFloat s num den) % 2 = 0) := by
  have hround : ∀ n, n * 2 ^ ulpExp num den * den = n * (den * 2 ^ ulpExp num den) := fun n => by ring
  rw [fMag_roundFloat hd hf, fFrac_roundFloat_mod_two hf, hround]
  rcases fMag_multiple_or_lt y (ulpExp num den) with ⟨n, hn⟩ | ⟨hsh, hlt⟩
  · obtain ⟨hle, htie⟩ := roundDiv_nearest num (ulp_pos num hd) n
    rw [hn, hround]
    refine ⟨hle, fun he hne => htie he fun hnm => hne ?_⟩
    rw [hnm, mantissa]
  · obtain ⟨hle, -⟩ := roundDiv_nearest num (ulp_pos num hd) (2 ^ 23)
    have hnum := ulp_le hd hsh
    have hlt' : fMag y * den < 2 ^ 23 * (den * 2 ^ ulpExp num den) :=
      hround _ ▸ Nat.mul_lt_mul_of_pos_right hlt hd
    rw [← mantissa] at hle
    constructor <;> omega

/-! ### The primitives on finite operands -/

theorem fadd_of_isFinite {a b : Word} (ha : isFinite a = true) (hb : isFinite b = true) (h : fVal a + fVal b ≠ 0) :
    fadd a b = roundFloat (decide (fVal a + fVal b < 0)) (fVal a + fVal b).natAbs 1 := by
  obtain ⟨han, hai⟩ := isFinite_iff.1 ha
  obtain ⟨hbn, hbi⟩ := isFinite_iff.1 hb
  simp [fadd, han, hai, hbn, hbi, h]

theorem fmul_of_isFinite {a b : Word} (ha : isFinite a = true) (hb : isFinite b = true) :
    fmul a b = roundFloat (fSign a != fSign b) (fMag a * fMag b) (2 ^ 149) := by
  obtain ⟨han, hai⟩ := isFinite_iff.1 ha
  obtain ⟨hbn, hbi⟩ := isFinite_iff.1 hb
  simp [fmul, han, hai, hbn, hbi]

theorem fdiv_of_isFinite {a b : Word} (ha : isFinite a = true) (hb : isFinite b = true) (h0 : feq0 b = false) :
    fdiv a b = roundFloat (fSign a != fSign b) (fMag a * 2 ^ 149) (fMag b) := by
  obtain ⟨han, hai⟩ := isFinite_iff.1 ha
  obtain ⟨hbn, hbi⟩ := isFinite_iff.1 hb
  simp [fdiv, han, hai, hbn, hbi, h0]

/-- Settles O51: rounding is the nearest whole number of last places, and a pattern off that grid lies below its least
24-bit point. -/
theorem roundingIsNearestTiesToEven : Obligations.RoundingIsNearestTiesToEven := by
  unfold Obligations.RoundingIsNearestTiesToEven
  simp only [← fInf_eq_infinity]
  exact ⟨fun s num _ hd => ⟨fSign_roundFloat .., isFinite_roundFloat_iff_lt s num hd, roundFloat_of_not_isFinite⟩,
    fun _ _ _ y hd _ hf => roundFloat_nearest hd hf y, fun _ _ => fadd_of_isFinite, fun _ _ => fmul_of_isFinite,
    fun _ _ => fdiv_of_isFinite, fun _ => rfl⟩

end Sys2Proof.Machine
end

section
/-! PROOFS of the machine's invariant (O46, O45): reset meets it, and each operation a step is made of keeps it. -/

namespace Sys2Proof.Machine

/-- Settles O46: memory lists nothing and every register has its reset value. -/
theorem resetMeetsTheMachineInvariant : Obligations.ResetMeetsTheMachineInvariant := fun p =>
  { memCanonical := rfl
    memInside := fun _ hc => absurd hc List.not_mem_nil
    resultIsCode := by simp [State.resetWith]
    busyClean := fun h => nomatch h
    rcodeOnSuccess := fun h => nomatch h
    heldAtReset := fun h => nomatch h
    breachWhileBusy := fun h => nomatch h }

namespace State.Inv

variable {s : State}

/-- The invariant does not speak of the events still to come. -/
theorem withAgenda (h : s.Inv) (rest : List Event) : State.Inv { s with agenda := rest } :=
  ⟨h.memCanonical, h.memInside, h.resultIsCode, h.busyClean, h.rcodeOnSuccess, h.heldAtReset, h.breachWhileBusy⟩

/-! ### The host -/

theorem hostReadReg (h : s.Inv) (off : Nat) : (hostReadReg s off).Inv := by
  rw [hostReadReg_eq]
  refine ⟨h.memCanonical, h.memInside, h.resultIsCode, h.busyClean, h.rcodeOnSuccess, fun hr => ?_, h.breachWhileBusy⟩
  obtain ⟨hie, hst, hops, hres, hl, hu⟩ := h.heldAtReset hr
  exact ⟨hie, hst, hops, hres, hl, by simp [hu]⟩

theorem hostReadMem (h : s.Inv) (a : Nat) (w : Width) : (hostReadMem s a w).Inv :=
  ⟨h.memCanonical, h.memInside, h.resultIsCode, h.busyClean, h.rcodeOnSuccess, h.heldAtReset, h.breachWhileBusy⟩

/-- A register write with reset released: `STATUS` and `CMD` are the registers whose write touches the flags. -/
theorem writeReg (h : s.Inv) (hr : s.resetHeld = false) (r : Reg) (v : Word) : (writeReg s r v).Inv where
  memCanonical := by simpa using h.memCanonical
  memInside := by simpa using h.memInside
  resultIsCode := by simpa using h.resultIsCode
  busyClean := by
    rw [writeReg_status]
    split_ifs with _ _ hb
    · intro hb
      obtain ⟨hd, hrc, he⟩ := h.busyClean hb
      exact ⟨by simp [hd], hrc, he⟩
    · exact h.busyClean
    · exact fun _ => ⟨rfl, rfl, rfl⟩
    · exact h.busyClean
  rcodeOnSuccess := by
    rw [writeReg_status]
    split_ifs
    · exact h.rcodeOnSuccess
    · exact h.rcodeOnSuccess
    · exact fun _ => rfl
    · exact h.rcodeOnSuccess
  heldAtReset := by simp [hr]
  breachWhileBusy := by
    rw [writeReg_breached, writeReg_status]
    intro hbr
    have hb := h.breachWhileBusy (by split_ifs at hbr; exact hbr)
    split_ifs <;> exact hb

theorem hostWriteReg (h : s.Inv) (off : Nat) (v : Word) : (hostWriteReg s off v).Inv := by
  unfold Machine.hostWriteReg
  split_ifs with hr
  · exact h
  · split
    · exact h
    · exact h.writeReg (by simpa using hr) ..

theorem resetStep (h : s.Inv) (level : Bool) : (resetStep s level).Inv where
  memCanonical := writeCells_wf _ h.memCanonical
  memInside := writeCells_below h.memInside fun _ hc => (freeCells_inside hc).1
  resultIsCode := by simp
  busyClean := fun hb => nomatch hb
  rcodeOnSuccess := fun hr => nomatch hr
  heldAtReset := fun _ => ⟨rfl, rfl, rfl, rfl, rfl, rfl⟩
  breachWhileBusy := fun hb => nomatch hb

/-! ### A broken duty -/

/-- A broken duty keeps the invariant: with a command unobserved reset is not held, and `RCODE` is freed only after a
success with the engine idle. -/
theorem breakDuty (h : s.Inv) {l : Launch} (hl : l ∈ s.unobserved) : (breakDuty s l).Inv where
  memCanonical := writeCells_wf _ h.memCanonical
  memInside := writeCells_below h.memInside fun _ hc => (launch_freeCells_inside hc).1
  resultIsCode := by
    rw [breakDuty_result]
    split_ifs
    · exact toNat_zeroExtend_code _
    · exact h.resultIsCode
  busyClean := by
    intro hb
    obtain ⟨hd, hrc, he⟩ := h.busyClean hb
    have hnot : s.rcodeIsOf l = false := by
      have hb' : s.status.busy = true := hb
      simp [State.rcodeIsOf, hb']
    exact ⟨hd, by simp [hnot, hrc], he⟩
  rcodeOnSuccess := by
    simp only [breakDuty_status]
    split_ifs with hr
    · simp only [State.rcodeIsOf, Bool.and_eq_true, beq_iff_eq] at hr
      exact fun _ => hr.2
    · exact h.rcodeOnSuccess
  heldAtReset := by
    intro hr
    obtain ⟨-, -, -, -, -, hu⟩ := h.heldAtReset hr
    exact absurd (hu ▸ hl) List.not_mem_nil
  breachWhileBusy := h.breachWhileBusy

theorem breakTouched (h : s.Inv) (q : Region) : (breakTouched s q).Inv :=
  (breakTouched_induction (P := fun t => t.Inv ∧ t.unobserved = s.unobserved)
    (fun _ hl _ ⟨ht, hu⟩ => ⟨ht.breakDuty (hu ▸ (mem_touchedLaunches.1 hl).1), hu⟩) ⟨h, rfl⟩).1

/-- A host write of memory lists no address at or above `MEM_BYTES`, and records a breach only for a running command. -/
theorem hostWriteMem (h : s.Inv) {a : Nat} {w : Width} (ha : a + widthBytes w ≤ s.params.memBytes) (v : Word) :
    (hostWriteMem s a w v).Inv := by
  rw [hostWriteMem_eq]
  refine State.Inv.breakTouched (s := { s with mem := _, breached := _ }) ⟨writeCells_wf _ h.memCanonical, writeCells_below h.memInside fun c hc => ?_, h.resultIsCode,
    h.busyClean, h.rcodeOnSuccess, h.heldAtReset, fun hb => ?_⟩ _
  · obtain ⟨k, hk, rfl⟩ := mem_cellsOfWord.1 hc
    exact lt_of_lt_of_le (Nat.add_lt_add_left hk a) ha
  · by_contra hidle
    simp only [Bool.not_eq_true] at hidle
    have hbr : s.breached = false := by simpa [hidle] using mt h.breachWhileBusy
    simp [hbr, runningFootprint_idle hidle, Footprint.touchedBy, Footprint.all] at hb

/-! ### The engine -/

theorem breakEarlier (h : s.Inv) (i : Instr) : (breakEarlier i s).Inv := by
  obtain hs | ⟨q, _, hs⟩ := breakEarlier_cases i s
  · rwa [hs]
  · rw [hs]
    exact h.breakTouched q

theorem completeError (h : s.Inv) (hr : s.resetHeld = false) {c : ECode} : (completeError s c).Inv :=
  ⟨h.memCanonical, h.memInside, h.resultIsCode, by simp, by simp, by simp [hr], by simp⟩

/-- A completion with code 0 keeps the invariant when its effect stays inside memory and updates `RESULT` with a code. -/
theorem completeOk (h : s.Inv) (hr : s.resetHeld = false) {i : Instr} {e : Effect}
    (hw : ∀ c ∈ e.writes, c.1 < s.params.memBytes) (hc : ∀ x ∈ e.result, x.toNat < 4) : (completeOk i s e).Inv where
  memCanonical := writeCells_wf _ h.memCanonical
  memInside := writeCells_below h.memInside hw
  resultIsCode := by
    cases he : e.result with
    | none => simpa [he] using h.resultIsCode
    | some x => simpa [he] using hc x he
  busyClean := fun hb => nomatch hb
  rcodeOnSuccess := fun _ => rfl
  heldAtReset := by simp [hr]
  breachWhileBusy := fun hb => nomatch hb

end State.Inv

/-- A command that updates `RESULT` leaves its bits 31:2 zero, after a breach too (R46, log 15). -/
theorem effectDue_result_isCode {i : Instr} {s : State} {o : Operands} {m : Memory} :
    ∀ x ∈ (effectDue i s (effectOf i o m)).result, x.toNat < 4 := by
  intro x hx
  by_cases hi : i = .locate
  · subst hi
    unfold effectDue at hx
    split at hx <;> cases hx <;> exact toNat_zeroExtend_code _
  · rw [effectDue_result hi] at hx
    cases hx

namespace State.Inv

variable {s t : State}

/-- A successful command writes inside its write region, and that lies inside memory (R226). -/
theorem succeededState (h : s.Inv) (hr : s.resetHeld = false) {i : Instr}
    (hok : checkCode i s.params.memBytes s.latch.ops = .ok) : (succeededState i s (effectOf i)).Inv := by
  refine (h.breakEarlier i).completeOk (by simpa using hr) (fun c hc => ?_) effectDue_result_isCode
  rw [← breakEarlier_latch i s] at hc
  obtain ⟨q, hq, hcov⟩ := effectDue_writes_inside hc
  rw [breakEarlier_latch] at hq
  have hfit := write_fits_of_ok hok q hq
  simp only [Region.covers, decide_eq_true_eq] at hcov
  rw [breakEarlier_params]
  omega

theorem exec (h : s.Inv) (hr : s.resetHeld = false) {i : Instr} (he : exec i s = .next t) : t.Inv := by
  obtain ⟨_, rfl⟩ | ⟨hok, _, rfl⟩ := exec_cases he
  · exact h.completeError hr
  · exact h.succeededState hr hok

theorem engineTurn (h : s.Inv) (he : engineTurn s = .next t) : t.Inv := by
  obtain ⟨_, rfl⟩ | ⟨⟨_, hr⟩, ⟨i, _, hi⟩ | ⟨_, rfl⟩⟩ := engineTurn_cases he
  · exact h
  · exact h.exec hr hi
  · exact h.completeError hr

theorem hostStep (h : s.Inv) {e : HostStep} (he : hostStep e s = .next t) : t.Inv := by
  obtain ⟨off, _, rfl⟩ | ⟨off, v, _, rfl⟩ | ⟨a, w, _, rfl⟩ | ⟨a, w, v, ha, rfl⟩ | ⟨level, _, rfl⟩ | ⟨_, _, rfl⟩ :=
    hostStep_cases he
  · exact h.hostReadReg off
  · exact h.hostWriteReg off v
  · exact h.hostReadMem a w
  · exact h.hostWriteMem ha v
  · exact h.resetStep level
  · exact h

end State.Inv

/-- Settles O45: the step is the engine's turn or one step of the host, and each keeps the invariant. -/
theorem stepKeepsTheMachineInvariant : Obligations.StepKeepsTheMachineInvariant := by
  intro s t h hs
  obtain ⟨rest, _, he⟩ | ⟨e, rest, _, he⟩ := step_cases hs
  · exact (h.withAgenda rest).engineTurn he
  · exact (h.withAgenda rest).hostStep he

end Sys2Proof.Machine
end

section
/-! PROOFS about the register window (spec/10_state.md): the routing of a word access, what each register reads, and what a
host write of each register does (O9 to O18). -/

namespace Sys2Proof.Machine

/-! ### Word accesses at offsets of the window -/

/-- A 32-bit access at a multiple of 4 below 256 reaches the window (R48). -/
theorem route_wordOffset (p : Params) {off : Nat} (hlt : off < 256) (h4 : off % 4 = 0) :
    route p (p.regBase + off) .word = .register off := by
  unfold route
  rw [if_pos (by simp [Region.overlaps, widthBytes]; omega),
    if_pos ⟨rfl, Nat.le_add_right .., by rw [Nat.add_sub_cancel_left, h4]⟩, Nat.add_sub_cancel_left]

theorem hostStep_read_wordOffset (s : State) {off : Nat} (hlt : off < 256) (h4 : off % 4 = 0) :
    hostStep (.read (s.params.regBase + off) .word) s = .next (hostReadReg s off) := by
  simp only [hostStep, route_wordOffset _ hlt h4]

theorem hostStep_write_wordOffset (s : State) {off : Nat} (hlt : off < 256) (h4 : off % 4 = 0) (v : Word) :
    hostStep (.write (s.params.regBase + off) .word v) s = .next (hostWriteReg s off v) := by
  simp only [hostStep, route_wordOffset _ hlt h4]

theorem hostStep_read_reg (s : State) (r : Reg) :
    hostStep (.read (s.params.regBase + regOffset r) .word) s = .next (hostReadReg s (regOffset r)) := by
  simp only [hostStep, route_regOffset]

/-- With reset released a host write at a register's offset is `x[NAME] <- v` (R10, R32). -/
theorem hostStep_write_reg {s : State} (hr : s.resetHeld = false) (r : Reg) (v : Word) :
    hostStep (.write (s.params.regBase + regOffset r) .word v) s = .next (writeReg s r v) := by
  simp only [hostStep, route_regOffset, hostWriteReg_released hr]

/-- `regAt` answers a register only at its own offset (R32). -/
theorem regOffset_of_regAt {off : Nat} {r : Reg} (h : regAt off = some r) : regOffset r = off := by
  unfold regAt at h
  split at h <;> cases h <;> rfl

/-- Every offset from 0x44 on is reserved (R32, R47). -/
theorem regAt_reserved {off : Nat} (h : 0x44 ≤ off) : regAt off = none := by
  by_contra hne
  obtain ⟨r, hr⟩ := Option.ne_none_iff_exists'.1 hne
  have hle : regOffset r ≤ 0x40 := by cases r <;> decide
  have := regOffset_of_regAt hr
  omega

/-- The register map of the statements is the model's. -/
theorem eq_regOffset_of_mem_registerMap {off : Nat} {r : Reg} (h : (off, r) ∈ Expect.registerMap) : off = regOffset r :=
  (by decide : ∀ p ∈ Expect.registerMap, p.1 = regOffset p.2) _ h

/-! ### The words of `CTRL` and `STATUS` -/

theorem ctrlWord_eq_ite (ie : Bool) : ctrlWord ie = if ie then 1#32 else 0#32 := by cases ie <;> rfl

/-- `CTRL` reads bit 0 of what was written to it (R34). -/
theorem ctrlWord_getLsbD_zero (v : Word) : ctrlWord (v.getLsbD 0) = v &&& 1#32 := by
  rw [BitVec.and_one_eq_setWidth_ofBool_getLsbD]
  cases v.getLsbD 0 <;> rfl

/-- Bits 31:1 of `CTRL` read 0 (R34). -/
theorem ctrlWord_reserved (ie : Bool) : (ctrlWord ie).extractLsb' 1 31 = 0#31 := by cases ie <;> rfl

/-- Settles O12: a status has four flags and one of six codes. -/
theorem statusWordHasItsFields : Obligations.StatusWordHasItsFields := by
  rintro ⟨busy, done, rcode, ovr, ecode⟩
  cases ecode <;> revert busy done rcode ovr <;> decide

/-- A host write of `STATUS`, as R36 words it. -/
theorem Status.hostWrite_eq_ite (f : Status) (v : Word) :
    f.hostWrite v = { f with done := if v.getLsbD 1 then false else f.done
                             ovr := if v.getLsbD 4 then false else f.ovr } := by
  unfold Status.hostWrite
  cases v.getLsbD 1 <;> cases v.getLsbD 4 <;> simp

/-! ### Reads -/

/-- Settles O9: the value is `readReg`'s, the rest is what a register read changes. -/
theorem registerReadReturnsTheRegister : Obligations.RegisterReadReturnsTheRegister := by
  intro s off r hmem
  obtain rfl := eq_regOffset_of_mem_registerMap hmem
  rw [hostStep_read_reg, hostReadReg_eq]
  simp only [regAt_regOffset, Option.map_some, Option.getD_some, Option.some.injEq]
  cases r
  case ctrl => simp only [readReg, ctrlWord_eq_ite]
  all_goals rfl

/-- A host write of `ID` is ignored, with reset asserted or not (R33). -/
theorem hostWriteReg_id (s : State) (v : Word) : hostWriteReg s (regOffset .id) v = s := by
  simp [hostWriteReg, writeReg]

/-- Settles O10: `ID` is the parameter, which nothing changes. -/
theorem idReadsImplIdAndNeverChanges : Obligations.IdReadsImplIdAndNeverChanges := by
  intro s
  refine ⟨⟨_, hostStep_read_reg s .id, ?_⟩, fun v => ?_, fun i t h => by rw [exec_params h]⟩
  · rw [hostReadReg_eq, regAt_regOffset]
    rfl
  · have h := hostStep_write_wordOffset s (off := regOffset .id) (by decide) (by decide) v
    rwa [hostWriteReg_id] at h

/-! ### Writes -/

/-- Settles O11: the write keeps bit 0, and the read shows it. -/
theorem ctrlKeepsOnlyBitZero : Obligations.CtrlKeepsOnlyBitZero := by
  intro s v hr
  refine ⟨_, hostStep_write_reg hr .ctrl v, rfl, _, hostStep_read_reg (writeReg s .ctrl v) .ctrl, ?_⟩
  rw [hostReadReg_eq, regAt_regOffset]
  exact ctrlWord_getLsbD_zero v

/-- Settles O13: the write is `Status.hostWrite`, in the words of R36. -/
theorem statusWriteOnlyClears : Obligations.StatusWriteOnlyClears := by
  intro s v hr
  rw [← Status.hostWrite_eq_ite]
  exact hostStep_write_reg hr .status v

/-- A write of an operand register changes the operands and, for `SCALE`, the record of unobserved commands (R58, log 6). -/
theorem writeReg_operand {r : Reg} (hr : r ∈ Expect.operandRegs) (s : State) (v : Word) :
    writeReg s r v = { s with ops := (writeReg s r v).ops, unobserved := (writeReg s r v).unobserved } := by
  cases r <;> first | rfl | exact absurd hr (by decide)

theorem readReg_writeReg_operand {r : Reg} (hr : r ∈ Expect.operandRegs) (s : State) (v : Word) :
    readReg (writeReg s r v) r = v := by
  cases r <;> first | rfl | exact absurd hr (by decide)

/-- A write of an operand register shows in no other register. -/
theorem readReg_writeReg_operand_other {r q : Reg} (hr : r ∈ Expect.operandRegs) (hq : q ≠ r) (s : State) (v : Word) :
    readReg (writeReg s r v) q = readReg s q := by
  rw [writeReg_operand hr]
  cases q
  case id | ctrl | status | cmd | result => rfl
  all_goals cases r <;> first | rfl | exact absurd rfl hq | exact absurd hr (by decide)

/-- Settles O14, by what a write of an operand register changes and what the registers read after it. -/
theorem operandRegisterKeepsWhatIsWritten : Obligations.OperandRegisterKeepsWhatIsWritten := fun s r v hheld hr =>
  ⟨_, hostStep_write_reg hheld r v, writeReg_operand hr s v, writeReg_unobserved s r v, readReg_writeReg_operand hr s v,
    fun _ hq => readReg_writeReg_operand_other hr hq s v⟩

/-- A write of `CTRL` looks at bit 0 only (R34). -/
theorem writeReg_ctrl_congr {u v : Word} (h : u &&& 1#32 = v &&& 1#32) (s : State) :
    writeReg s .ctrl v = writeReg s .ctrl u := by
  have h0 : u.getLsbD 0 = v.getLsbD 0 := by simpa using congrArg (·.getLsbD 0) h
  simp only [writeReg, h0]

/-- A write of `STATUS` looks at bits 1 and 4 only (R36). -/
theorem writeReg_status_congr {w v : Word} (h : w &&& 0x12#32 = v &&& 0x12#32) (s : State) :
    writeReg s .status v = writeReg s .status w := by
  have h1 : w.getLsbD 1 = v.getLsbD 1 := by simpa using congrArg (·.getLsbD 1) h
  have h4 : w.getLsbD 4 = v.getLsbD 4 := by simpa using congrArg (·.getLsbD 4) h
  simp only [writeReg, Status.hostWrite, h1, h4]

/-- A write at an offset from 0x44 on is ignored (R47). -/
theorem hostWriteReg_reserved {off : Nat} (h : 0x44 ≤ off) (s : State) (v : Word) : hostWriteReg s off v = s := by
  simp [hostWriteReg, regAt_reserved h]

/-- A write of `RESULT` is ignored (R46). -/
theorem hostWriteReg_result (s : State) (v : Word) : hostWriteReg s (regOffset .result) v = s := by
  simp [hostWriteReg, writeReg]

/-- Settles O15: no register lies at a reserved offset. -/
theorem reservedOffsetReadsZeroIgnoresWrites : Obligations.ReservedOffsetReadsZeroIgnoresWrites := by
  refine ⟨fun s off hlo hhi h4 => ?_, fun s v => ?_⟩
  · obtain ⟨-, -, -, -, -, h5, h16, -⟩ := statusWordHasItsFields s.status
    refine ⟨?_, fun v => ?_, ctrlWord_reserved s.ie, h5, h16, fun v u w hu hw =>
      ⟨writeReg_ctrl_congr hu s, writeReg_status_congr hw s⟩⟩
    · rw [hostStep_read_wordOffset s (by omega) h4, hostReadReg_eq]
      simp [regAt_reserved hlo]
    · rw [hostStep_write_wordOffset s (by omega) h4, hostWriteReg_reserved hlo]
  · have h := hostStep_write_wordOffset s (off := regOffset .result) (by decide) (by decide) v
    rwa [hostWriteReg_result] at h

/-- An access that meets the window in another shape than a word at a multiple of 4 is badly shaped (R48, log 10). -/
theorem route_badShape {p : Params} {a : Nat} {w : Width} (h : Expect.overlap a (widthBytes w) p.regBase 256)
    (hs : ¬ (w = .word ∧ p.regBase ≤ a ∧ (a - p.regBase) % 4 = 0)) : route p a w = .badShape := by
  unfold route
  rw [if_pos (by simpa [Region.overlaps] using h), if_neg hs]

/-- Settles O16: the routing finds the bad shape, whatever the access would do. -/
theorem misshapenWindowAccessIsRefused : Obligations.MisshapenWindowAccessIsRefused := by
  intro s a w h hs
  have hroute := route_badShape h hs
  exact ⟨by simp only [hostStep, hroute], fun v => by simp only [hostStep, hroute]⟩

/-! ### `CMD` and the command it starts -/

theorem writeCmd_idle {s : State} (h : s.status.busy = false) (v : Word) : writeCmd s v = accept s v := by
  simp [writeCmd, h]

theorem writeCmd_busy {s : State} (h : s.status.busy = true) (v : Word) :
    writeCmd s v = { s with status := s.status.overrun } := by
  simp [writeCmd, h]

/-- Settles O17: a `CMD` write with the engine idle is an acceptance. -/
theorem acceptanceLatchesTheOperands : Obligations.AcceptanceLatchesTheOperands := by
  intro s v hr hb
  refine (hostStep_write_reg hr .cmd v).trans (congrArg _ ?_)
  exact writeCmd_idle hb v

/-- Settles O18: a `CMD` write with the engine busy is an overrun. -/
theorem cmdWriteWhileBusyIsDropped : Obligations.CmdWriteWhileBusyIsDropped := by
  intro s v hr hb
  refine (hostStep_write_reg hr .cmd v).trans (congrArg _ ?_)
  exact writeCmd_busy hb v

/-- The engine's turn on a running command whose word is legal (R56). -/
theorem engineTurn_of_running {s : State} {i : Instr} (hb : s.status.busy = true) (hr : s.resetHeld = false)
    (hi : decodeWord s.latch.cmd = .ok i) : engineTurn s = exec i s := by
  simp [engineTurn, engineStep, hb, hr, hi]

/-- Settles O6: both agendas give the engine its turn. -/
theorem engineStepRunsTheLatchedCommand : Obligations.EngineStepRunsTheLatchedCommand := by
  intro s i rest hb hr hi
  refine ⟨fun ha => ?_, fun ha => ?_⟩ <;> simp only [step, ha]
  · exact engineTurn_of_running hb hr hi
  · exact engineTurn_of_running (s := { s with agenda := rest }) hb hr hi

theorem decodeWord_encode (i : Instr) : decodeWord (encode i) = .ok i := by cases i <;> rfl

@[simp] theorem tableWord_toNat (w : Word) : tableWord 32 w.toNat = w := by
  rw [tableWord, Nat.mod_eq_of_lt w.isLt, BitVec.ofNat_toNat, BitVec.setWidth_eq]

/-- Settles O7: the word laid in the latch is the encoded command, and the engine's turn comes next. -/
theorem fetchedWordRunsNext : Obligations.FetchedWordRunsNext := by
  intro s i
  simp only [step, State.withFetchWord, tableWord_toNat]
  exact engineTurn_of_running rfl rfl (decodeWord_encode i)

end Sys2Proof.Machine
end

section
/-! PROOFS of what changes the flags and the latch (R35, R36, R49, R50, R55 to R57): the causes a step has, said once
(`StepCause`), and the statements that read them off (O42, O43, O44, O59). -/

namespace Sys2Proof.Machine

/-- What one step does to the flags and the latch, each with the event that does it. -/
inductive StepCause (s t : State) : Prop where
  /-- An idle or held engine, a host read, a host write of any other register, a lost register write, a level that is no
  event. -/
  | unchanged (status : t.status = s.status) (latch : t.latch = s.latch)
  /-- The completion step (R56). -/
  | completed (next : Expect.engineNext s) (busy : s.status.busy = true) (busy' : t.status.busy = false)
      (done' : t.status.done = true) (ovr : t.status.ovr = s.status.ovr) (latch : t.latch = s.latch)
  /-- A host write of `STATUS` (R36). -/
  | statusWrite (v : Word) (rest : List Event)
      (agenda : s.agenda = .host (.write (s.params.regBase + 0x08) .word v) :: rest)
      (status : t.status = s.status.hostWrite v) (latch : t.latch = s.latch)
  /-- A `CMD` write with the engine idle (R55). -/
  | accepted (v : Word) (rest : List Event)
      (agenda : s.agenda = .host (.write (s.params.regBase + 0x0C) .word v) :: rest) (idle : s.status.busy = false)
      (status : t.status = s.status.accepted) (latch : t.latch = { cmd := v, ops := s.ops })
  /-- A `CMD` write with the engine busy (R57). -/
  | overrun (v : Word) (rest : List Event)
      (agenda : s.agenda = .host (.write (s.params.regBase + 0x0C) .word v) :: rest) (busy : s.status.busy = true)
      (status : t.status = s.status.overrun) (latch : t.latch = s.latch)
  /-- A host write of memory, which may free `RCODE` (R86). -/
  | memoryWrite (a : Nat) (w : Width) (v : Word) (rest : List Event) (agenda : s.agenda = .host (.write a w v) :: rest)
      (route : route s.params a w = .memory) (busy : t.status.busy = s.status.busy)
      (done : t.status.done = s.status.done) (ovr : t.status.ovr = s.status.ovr)
      (ecode : t.status.ecode = s.status.ecode) (latch : t.latch = s.latch)
      (rcode : t.status.rcode = s.status.rcode ∨ ∃ l ∈ touchedLaunches s ⟨a, widthBytes w⟩, s.rcodeIsOf l = true)
  /-- The reset input asserted or released (R260). -/
  | reset (level : Bool) (rest : List Event) (agenda : s.agenda = .host (.reset level) :: rest)
      (event : level = true ∨ s.resetHeld = true) (status : t.status = Status.reset)

/-! ### Each event has one of the causes -/

/-- Everything a step of the host can do when it answers a next state, with the event that does it. -/
theorem hostStep_event_cases {h : HostStep} {s t : State} (hs : hostStep h s = .next t) :
    (∃ off, t = hostReadReg s off) ∨ (∃ a w, t = hostReadMem s a w) ∨
    (∃ off v, h = .write (s.params.regBase + off) .word v ∧ t = hostWriteReg s off v) ∨
    (∃ a w v, h = .write a w v ∧ route s.params a w = .memory ∧ t = hostWriteMem s a w v) ∨
    (∃ level, h = .reset level ∧ t = resetInput s level) := by
  cases h with
  | read a w =>
    simp only [hostStep] at hs
    split at hs <;> cases hs
    · exact .inl ⟨_, rfl⟩
    · exact .inr (.inl ⟨_, _, rfl⟩)
  | write a w v =>
    simp only [hostStep] at hs
    split at hs <;> cases hs
    · rename_i off hr
      obtain ⟨rfl, rfl, -⟩ := route_register hr
      exact .inr (.inr (.inl ⟨off, v, rfl, rfl⟩))
    · rename_i hr
      exact .inr (.inr (.inr (.inl ⟨a, w, v, rfl, hr, rfl⟩)))
  | reset level =>
    cases hs
    exact .inr (.inr (.inr (.inr ⟨level, rfl, rfl⟩)))

/-- Every completion, with an error code or with code 0, ends the command and sets `DONE` (R56). -/
theorem exec_flags {i : Instr} {s t : State} (h : exec i s = .next t) :
    t.status.busy = false ∧ t.status.done = true ∧ t.status.ovr = s.status.ovr ∧ t.latch = s.latch := by
  obtain ⟨_, rfl⟩ | ⟨_, _, rfl⟩ := exec_cases h <;> simp

theorem engineTurn_cause {s t : State} {rest : List Event} (hn : Expect.engineNext s)
    (h : engineTurn { s with agenda := rest } = .next t) : StepCause s t := by
  obtain ⟨_, rfl⟩ | ⟨⟨hb, _⟩, ⟨i, _, hi⟩ | ⟨_, rfl⟩⟩ := engineTurn_cases h
  · exact .unchanged rfl rfl
  · obtain ⟨hbusy, hdone, hovr, hlatch⟩ := exec_flags hi
    exact .completed hn hb hbusy hdone hovr hlatch
  · exact .completed hn hb rfl rfl rfl rfl

/-- A register write, at the register's offset. -/
theorem writeReg_cause {s : State} {r : Reg} {v : Word} {rest : List Event}
    (ha : s.agenda = .host (.write (s.params.regBase + regOffset r) .word v) :: rest) :
    StepCause s (writeReg { s with agenda := rest } r v) := by
  by_cases hs : r = .status
  · subst hs
    exact .statusWrite v rest ha rfl rfl
  by_cases hc : r = .cmd
  · subst hc
    cases hb : s.status.busy
    · have he : writeReg { s with agenda := rest } .cmd v = accept { s with agenda := rest } v :=
        writeCmd_idle (s := { s with agenda := rest }) hb v
      exact .accepted v rest ha hb (by rw [he]; rfl) (by rw [he]; rfl)
    · have he : writeReg { s with agenda := rest } .cmd v = _ := writeCmd_busy (s := { s with agenda := rest }) hb v
      exact .overrun v rest ha hb (by rw [he]) (by rw [he])
  · exact .unchanged (by rw [writeReg_status, if_neg hs, if_neg hc]) (writeReg_latch v hc)

theorem hostWriteReg_cause {s : State} {off : Nat} {v : Word} {rest : List Event}
    (ha : s.agenda = .host (.write (s.params.regBase + off) .word v) :: rest) :
    StepCause s (hostWriteReg { s with agenda := rest } off v) := by
  unfold hostWriteReg
  split
  · exact .unchanged rfl rfl
  · split
    · exact .unchanged rfl rfl
    · rename_i r hr
      exact writeReg_cause (by rw [regOffset_of_regAt hr, ha])

theorem hostWriteMem_cause {s : State} {a : Nat} {w : Width} {v : Word} {rest : List Event}
    (ha : s.agenda = .host (.write a w v) :: rest) (hr : route s.params a w = .memory) :
    StepCause s (hostWriteMem { s with agenda := rest } a w v) := by
  have hf := hostWriteMem_frame { s with agenda := rest } a w v
  refine .memoryWrite a w v rest ha hr (congrArg (·.status.busy) hf :) (congrArg (·.status.done) hf :)
    (congrArg (·.status.ovr) hf :) (congrArg (·.status.ecode) hf :) (congrArg State.latch hf :) ?_
  rw [hostWriteMem_eq]
  exact breakTouched_rcode ..

theorem hostStep_cause {s t : State} {h : HostStep} {rest : List Event} (ha : s.agenda = .host h :: rest)
    (hs : hostStep h { s with agenda := rest } = .next t) : StepCause s t := by
  obtain ⟨off, rfl⟩ | ⟨a, w, rfl⟩ | ⟨off, v, rfl, rfl⟩ | ⟨a, w, v, rfl, hr, rfl⟩ | ⟨level, rfl, rfl⟩ :=
    hostStep_event_cases hs
  · rw [hostReadReg_eq]
    exact .unchanged rfl rfl
  · exact .unchanged rfl rfl
  · exact hostWriteReg_cause ha
  · exact hostWriteMem_cause ha hr
  · unfold resetInput
    split_ifs with hl
    · exact .reset level rest ha (by simpa using hl) rfl
    · exact .unchanged rfl rfl

/-- Every step changes the flags and the latch for one of the causes. -/
theorem step_cause {s t : State} (h : step s = .next t) : StepCause s t := by
  obtain ⟨rest, ha, he⟩ | ⟨e, rest, ha, he⟩ := step_cases h
  · exact engineTurn_cause (ha.imp (·.1) fun ha => ⟨rest, ha⟩) he
  · exact hostStep_cause ha he

/-! ### The statements -/

/-- The touched commands are unobserved ones with a region that meets the access, in the statements' words. -/
theorem touches_of_mem_touchedLaunches {s : State} {q : Region} {l : Launch} (h : l ∈ touchedLaunches s q) :
    l ∈ s.unobserved ∧ Expect.touches l q.start q.len := by
  obtain ⟨hl, r, hr, ho⟩ := mem_touchedLaunches.1 h
  exact ⟨hl, r, hr, by simpa [Region.overlaps] using ho⟩

/-- Settles O42: only a dropped `CMD` write sets `OVR`, only a `STATUS` write or a reset clears it. -/
theorem overrunHasOneCause : Obligations.OverrunHasOneCause := by
  intro s t h
  cases step_cause h with
  | unchanged hf => simp +contextual [hf]
  | completed _ _ _ _ hovr => simp +contextual [hovr]
  | statusWrite v rest ha hf =>
    refine ⟨fun h0 h1 => by simp [hf, h0] at h1, fun h1 h0 => ⟨_, rest, ha, .inr ⟨v, ?_, rfl⟩⟩⟩
    simpa [hf, h1] using h0
  | accepted _ _ _ _ hf => simp +contextual [hf]
  | overrun v rest ha hb hf => exact ⟨fun _ _ => ⟨hb, v, rest, ha⟩, fun _ h0 => by simp [hf] at h0⟩
  | memoryWrite _ _ _ _ _ _ _ _ hovr => simp +contextual [hovr]
  | reset level rest ha hl hf =>
    exact ⟨fun _ h1 => by simp [hf, Status.reset] at h1, fun _ _ => ⟨_, rest, ha, .inl ⟨level, rfl, hl⟩⟩⟩

/-- Settles O43: only an acceptance sets `BUSY`, only the completion or a reset clears it. -/
theorem busyHasOneStartAndTwoEnds : Obligations.BusyHasOneStartAndTwoEnds := by
  intro s t h
  cases step_cause h with
  | unchanged hf => simp +contextual [hf]
  | completed hn _ hb' hd' => exact ⟨fun _ h1 => by simp [hb'] at h1, fun _ _ => .inl ⟨hn, hd'⟩⟩
  | statusWrite _ _ _ hf => simp +contextual [hf]
  | accepted v rest ha hb hf hl =>
    exact ⟨fun _ h1 => ⟨hb, h1, v, rest, ha, by rw [hl], by rw [hl]⟩, fun h1 _ => by simp [hb] at h1⟩
  | overrun _ _ _ _ hf => simp +contextual [hf]
  | memoryWrite _ _ _ _ _ _ hb => simp +contextual [hb]
  | reset level rest ha hl hf =>
    exact ⟨fun _ h1 => by simp [hf, Status.reset] at h1, fun _ _ => .inr ⟨level, rest, ha, hl⟩⟩

/-- Settles O44: of the causes only an acceptance and a reset do not keep the latch. -/
theorem latchChangesOnlyAtAcceptanceOrReset : Obligations.LatchChangesOnlyAtAcceptanceOrReset := by
  intro s t h hne
  cases step_cause h with
  | accepted v rest ha hb hf => exact .inl ⟨hb, by rw [hf]; rfl, v, rest, ha⟩
  | reset level rest ha hl => exact .inr ⟨level, rest, ha, hl⟩
  | unchanged | completed | statusWrite | overrun | memoryWrite => contradiction

/-- Settles O59: each cause sets or clears what its rule says. -/
theorem flagsChangeOnlyForTheirCauses : Obligations.FlagsChangeOnlyForTheirCauses := by
  intro s t h
  cases step_cause h with
  | unchanged hf => simp +contextual [hf]
  | completed hn hb hb' hd' =>
    have hc : Expect.completion s t := ⟨hn, hb, hb', hd'⟩
    exact ⟨fun _ _ => hc, fun _ h0 => by simp [hd'] at h0, fun _ => .inl hc, fun _ => .inl hc⟩
  | statusWrite v rest ha hf =>
    refine ⟨fun h0 h1 => by simp [hf, h0] at h1, fun h1 h0 => .inr (.inr ⟨v, rest, ?_, ha⟩), by simp [hf], by simp [hf]⟩
    simpa [hf, h1] using h0
  | accepted v rest ha hb hf hl =>
    have hacc : Expect.acceptance s t := ⟨hb, by rw [hf]; rfl, v, rest, ha, by rw [hl], by rw [hl]⟩
    exact ⟨fun _ h1 => by simp [hf] at h1, fun _ _ => .inl hacc, fun _ => .inr (.inl hacc), fun _ => .inr (.inl hacc)⟩
  | overrun _ _ _ _ hf => simp +contextual [hf]
  | memoryWrite a w v rest ha hr _ hd _ he _ hrc =>
    refine ⟨by simp +contextual [hd], by simp +contextual [hd], fun hne => absurd he hne, fun hne => ?_⟩
    obtain ⟨l, hl, hof⟩ := hrc.resolve_left hne
    simp only [State.rcodeIsOf, Bool.and_eq_true, Bool.not_eq_true', beq_iff_eq] at hof
    obtain ⟨⟨hlast, hidle⟩, hok⟩ := hof
    obtain ⟨hmem, htouch⟩ := touches_of_mem_touchedLaunches hl
    exact .inr (.inr (.inr ⟨hidle, hok, a, w, v, rest, ha, hr, l, hmem, htouch, hlast⟩))
  | reset level rest ha hl hf =>
    have hreset : Expect.resetEvent s := ⟨level, rest, ha, hl⟩
    exact ⟨fun _ h1 => by simp [hf, Status.reset] at h1, fun _ _ => .inr (.inl hreset), fun _ => .inr (.inr hreset),
      fun _ => .inr (.inr (.inl hreset))⟩

end Sys2Proof.Machine
end

section
/-! PROOFS about reset (O21), and about what a command writes and reads of the registers (O35, O19). -/

namespace Sys2Proof.Machine

/-! ### Reset -/

/-- A block that holds the reset values of R60 reads 0 in every register but `ID`. -/
theorem readReg_of_reset {s : State} (hie : s.ie = false) (hst : s.status = Status.reset) (hops : s.ops = Operands.reset)
    (hres : s.result = 0#32) (r : Reg) : readReg s r = if r = .id then s.params.implId else 0#32 := by
  cases r <;> simp only [readReg, hie, hst, hops, hres] <;> rfl

theorem readReg_resetStep (s : State) (level : Bool) (r : Reg) :
    readReg (resetStep s level) r = if r = .id then s.params.implId else 0#32 :=
  readReg_of_reset (s := resetStep s level) rfl rfl rfl rfl r

/-- No command is abandoned by the reset of an idle block, so no byte changes (R261). -/
theorem resetStep_mem_idle {s : State} (h : s.status.busy = false) (level : Bool) : (resetStep s level).mem = s.mem := by
  simp [h, freeCells]

theorem resetInput_eq_ite (s : State) (level : Bool) :
    resetInput s level = if level = true ∨ s.resetHeld = true then resetStep s level else s := by
  simp [resetInput]

/-- Only a level of the reset input ends an asserted reset. -/
theorem step_held {s t : State} (hr : s.resetHeld = true) (h : step s = .next t) :
    t.resetHeld = true ∨ ∃ rest, s.agenda = .host (.reset false) :: rest ∧ t = resetStep { s with agenda := rest } false := by
  obtain ⟨rest, _, he⟩ | ⟨e, rest, ha, he⟩ := step_cases h
  · rw [engineTurn_of_idle_or_held (s := { s with agenda := rest }) (.inr hr)] at he
    cases he
    exact .inl hr
  · obtain ⟨off, rfl⟩ | ⟨a, w, rfl⟩ | ⟨off, v, _, rfl⟩ | ⟨a, w, v, _, _, rfl⟩ | ⟨level, rfl, rfl⟩ :=
      hostStep_event_cases he
    · rw [hostReadReg_eq]
      exact .inl hr
    · exact .inl hr
    · exact .inl (by rw [hostWriteReg_held (s := { s with agenda := rest }) hr]; exact hr)
    · rw [hostWriteMem_frame]
      exact .inl hr
    · rw [resetInput_eq_ite, if_pos (.inr hr)]
      cases level
      · exact .inr ⟨rest, ha, rfl⟩
      · exact .inl rfl

/-- A step from an asserted reset leaves the block at its reset values: the invariant says so while it stays asserted, and
the release gives them again. -/
theorem step_held_values {s t : State} (hr : s.resetHeld = true) (hinv : s.Inv) (h : step s = .next t) :
    (t.ie = false ∧ t.status = Status.reset ∧ t.ops = Operands.reset ∧ t.result = 0#32 ∧ t.latch = Latch.reset) ∧
      (t.resetHeld = true ∨ ∃ rest, s.agenda = .host (.reset false) :: rest) := by
  obtain hheld | ⟨rest, ha, rfl⟩ := step_held hr h
  · obtain ⟨hie, hst, hops, hres, hl, -⟩ := (stepKeepsTheMachineInvariant s t hinv h).heldAtReset hheld
    exact ⟨⟨hie, hst, hops, hres, hl⟩, .inl hheld⟩
  · exact ⟨⟨rfl, rfl, rfl, rfl, rfl⟩, .inr ⟨rest, ha⟩⟩

/-- Settles O21: the reset operation, the state after reset, and the steps while reset is asserted. -/
theorem resetGivesTheResetValues : Obligations.ResetGivesTheResetValues := by
  refine ⟨readReg_resetStep, fun p => readReg_of_reset (s := State.resetWith p) rfl rfl rfl rfl, fun s level => ?_,
    fun p => ⟨rfl, rfl, rfl, rfl, rfl⟩, fun s hr => ⟨fun off v hlt h4 => ?_, engineTurn_of_idle_or_held (.inr hr), ?_⟩⟩
  · exact ⟨congrArg _ (resetInput_eq_ite s level), rfl, rfl, rfl, rfl, fun hb => resetStep_mem_idle hb level⟩
  · rw [hostStep_write_wordOffset s hlt h4, hostWriteReg_held hr]
  · intro hinv t h
    obtain ⟨⟨hie, hst, hops, hres, hl⟩, hheld⟩ := step_held_values hr hinv h
    refine ⟨fun r => ?_, hl, by simp [State.irq, hie], hheld⟩
    rw [readReg_of_reset hie hst hops hres, stepKeepsTheParameters s t h]

/-! ### What a command writes -/

/-- Breaking earlier duties changes no operand register but `SCALE`. -/
theorem breakEarlier_ops (i : Instr) (s : State) :
    (breakEarlier i s).ops = { s.ops with scale := (breakEarlier i s).ops.scale } :=
  congrArg State.ops (breakEarlier_frame i s)

/-- A touched command is one whose duty the command `i` breaks, in the statements' words. -/
theorem broken_of_mem_touchedLaunches {i : Instr} {s : State} {q : Region} {l : Launch}
    (hq : (footprint i s.latch.ops).write = some q) (hl : l ∈ touchedLaunches s q) : Expect.broken i s l :=
  ⟨(touches_of_mem_touchedLaunches hl).1, q, by simp [hq], (touches_of_mem_touchedLaunches hl).2⟩

/-- `RESULT` changes with the earlier duties only for a broken LOCATE whose code still stands (R86). -/
theorem breakEarlier_result (i : Instr) (s : State) : (breakEarlier i s).result = s.result ∨
    ∃ l, Expect.broken i s l ∧ l.instr = .locate ∧ l.registerKept = true := by
  obtain hs | ⟨q, hq, hs⟩ := breakEarlier_cases i s
  · exact .inl (by rw [hs])
  · rw [hs]
    exact (breakTouched_result s q).imp_right fun ⟨_, l, hl, hk⟩ => ⟨l, broken_of_mem_touchedLaunches hq hl, hk⟩

/-- `SCALE` changes with the earlier duties only for a broken LDSCALE whose value still stands (R86). -/
theorem breakEarlier_scale (i : Instr) (s : State) : (breakEarlier i s).ops.scale = s.ops.scale ∨
    ∃ l, Expect.broken i s l ∧ l.instr = .ldscale ∧ l.registerKept = true := by
  obtain hs | ⟨q, hq, hs⟩ := breakEarlier_cases i s
  · exact .inl (by rw [hs])
  · rw [hs]
    exact (breakTouched_scale s q).imp_right fun ⟨l, hl, hk⟩ => ⟨l, broken_of_mem_touchedLaunches hq hl, hk⟩

/-- A successful command but LOCATE leaves `RESULT` as the broken duties left it (R46). -/
theorem succeededState_result {i : Instr} (hi : i ≠ .locate) (s : State) :
    (succeededState i s (effectOf i)).result = (breakEarlier i s).result := by
  simp [succeededState, effectDue_result hi]

/-- A successful command but LDSCALE leaves `SCALE` as the broken duties left it (R42). -/
theorem succeededState_scale {i : Instr} (hi : i ≠ .ldscale) (s : State) :
    (succeededState i s (effectOf i)).ops.scale = (breakEarlier i s).ops.scale := by
  simp [succeededState, effectDue_scale hi]

theorem succeededState_ops (i : Instr) (s : State) (e : Operands → Memory → Effect) :
    (succeededState i s e).ops = { s.ops with scale := (succeededState i s e).ops.scale } := by
  simp only [succeededState, completeOk_ops]
  rw [breakEarlier_ops]

/-- Settles O35: a completion with an error code writes no register, and one with code 0 writes its own and those of the
duties it breaks. -/
theorem commandWritesOnlyItsOwnRegister : Obligations.CommandWritesOnlyItsOwnRegister := by
  intro i s t h
  obtain ⟨_, rfl⟩ | ⟨_, _, rfl⟩ := exec_cases h
  · simp
  · refine ⟨fun hne => ⟨by simp, ?_⟩, succeededState_ops .., fun hne => ⟨by simp, ?_⟩, by simp⟩
    · by_cases hi : i = .locate
      · exact .inl hi
      · exact .inr ((breakEarlier_result i s).resolve_left (succeededState_result hi s ▸ hne))
    · by_cases hi : i = .ldscale
      · exact .inl hi
      · refine .inr ((breakEarlier_scale i s).resolve_left fun hs => hne ?_)
        rw [succeededState_ops, succeededState_scale hi, hs]

/-! ### What a command reads of the registers -/

/-- The states differ at most in the operand registers and in the record of unobserved commands, where a host write of
`SCALE` replaces an LDSCALE's value. -/
def OperandsDiffer (s u : State) : Prop :=
  ∃ (o : Operands) (f : Launch → Launch), (f = id ∨ f = Launch.scaleReplaced) ∧
    u = { s with ops := o, unobserved := s.unobserved.map f }

/-- A write of an operand register makes such a difference. -/
theorem operandsDiffer_writeReg {r : Reg} (hr : r ∈ Expect.operandRegs) (s : State) (v : Word) :
    OperandsDiffer s (writeReg s r v) := by
  rw [writeReg_operand hr, writeReg_unobserved]
  split
  · exact ⟨_, _, .inr rfl, rfl⟩
  · exact ⟨_, _, .inl rfl, by rw [List.map_id]⟩

/-- Only an LDSCALE's value is replaced, so a broken duty frees the same beside `SCALE`. -/
theorem breakDuty_scaleReplaced (s : State) (l : Launch) :
    breakDuty s l.scaleReplaced = { breakDuty s l with ops := (breakDuty s l.scaleReplaced).ops } := by
  have hres : (breakDuty s l.scaleReplaced).result = (breakDuty s l).result := by
    by_cases hi : l.instr = .locate <;> simp [Launch.scaleReplaced, hi]
  calc breakDuty s l.scaleReplaced
    _ = { breakDuty s l with ops := (breakDuty s l.scaleReplaced).ops, result := (breakDuty s l.scaleReplaced).result } := rfl
    _ = _ := by rw [hres]

/-- Breaking the duty of a command does the same beside the operand registers, whether or not the host has written `SCALE`
since. -/
theorem breakDuty_operands (s : State) (l : Launch) (o : Operands) (ls : List Launch) {f : Launch → Launch}
    (hf : f = id ∨ f = Launch.scaleReplaced) :
    ∃ o', breakDuty { s with ops := o, unobserved := ls } (f l) = { breakDuty s l with ops := o', unobserved := ls } := by
  obtain rfl | rfl := hf
  · exact ⟨_, rfl⟩
  · exact ⟨_, breakDuty_scaleReplaced _ l⟩

theorem foldl_breakDuty_operands {f : Launch → Launch} (hf : f = id ∨ f = Launch.scaleReplaced) (us ls : List Launch) :
    ∀ (s : State) (o : Operands), ∃ o', (ls.map f).foldl breakDuty { s with ops := o, unobserved := us } =
      { ls.foldl breakDuty s with ops := o', unobserved := us } := by
  induction ls with
  | nil => exact fun s o => ⟨o, rfl⟩
  | cons l rest ih =>
    intro s o
    obtain ⟨o', hl⟩ := breakDuty_operands s l o us hf
    rw [List.map_cons, List.foldl_cons, List.foldl_cons, hl]
    exact ih _ o'

theorem OperandsDiffer.breakTouched {s u : State} (h : OperandsDiffer s u) (q : Region) :
    OperandsDiffer (breakTouched s q) (breakTouched u q) := by
  obtain ⟨o, f, hf, rfl⟩ := h
  have htouch : touchedLaunches { s with ops := o, unobserved := s.unobserved.map f } q = (touchedLaunches s q).map f := by
    have hcomp : (fun l => Launch.touchedBy l q) ∘ f = fun l => l.touchedBy q := by obtain rfl | rfl := hf <;> rfl
    simp only [touchedLaunches, List.filter_map, hcomp]
  obtain ⟨o', hfold⟩ := foldl_breakDuty_operands hf (s.unobserved.map f) (touchedLaunches s q) s o
  refine ⟨o', f, hf, ?_⟩
  have hu : (Machine.breakTouched s q).unobserved = s.unobserved := by rw [breakTouched_frame]
  rw [hu, Machine.breakTouched, htouch, hfold]
  rfl

theorem OperandsDiffer.breakEarlier {s u : State} (h : OperandsDiffer s u) (i : Instr) :
    OperandsDiffer (breakEarlier i s) (breakEarlier i u) := by
  have hl : u.latch = s.latch := by obtain ⟨_, _, _, rfl⟩ := h; rfl
  unfold Machine.breakEarlier
  rw [hl]
  split
  · exact h
  · exact h.breakTouched _

/-- The effect due reads the latch, the memory and the duty, not the operand registers (R58). -/
theorem OperandsDiffer.succeededState {s u : State} (h : OperandsDiffer s u) (i : Instr) (e : Operands → Memory → Effect) :
    (succeededState i u e).mem = (succeededState i s e).mem ∧
    (succeededState i u e).status = (succeededState i s e).status ∧
    (succeededState i u e).result = (succeededState i s e).result := by
  have hl : u.latch = s.latch := by obtain ⟨_, _, _, rfl⟩ := h; rfl
  obtain ⟨o, f, _, hu⟩ := h.breakEarlier i
  unfold Machine.succeededState
  rw [hl, hu]
  exact ⟨rfl, rfl, rfl⟩

/-- LDSCALE updates `SCALE`, with a free value after a breach (R86, R150). -/
theorem effectDue_ldscale_scale (s : State) (o : Operands) (m : Memory) :
    ∃ x, (effectDue .ldscale s (effectOf .ldscale o m)).scale = some x := by
  unfold effectDue
  split <;> exact ⟨_, rfl⟩

/-- A successful LDSCALE's value does not depend on what `SCALE` held (R42, R58). -/
theorem OperandsDiffer.succeededState_ldscale {s u : State} (h : OperandsDiffer s u) :
    (Machine.succeededState .ldscale u (effectOf .ldscale)).ops.scale =
      (Machine.succeededState .ldscale s (effectOf .ldscale)).ops.scale := by
  obtain ⟨_, _, _, rfl⟩ := h
  obtain ⟨x, hx⟩ := effectDue_ldscale_scale s s.latch.ops s.mem
  simp only [Machine.succeededState, breakEarlier_ldscale, completeOk_ops, hx, Option.getD_some]
  exact congrArg (Option.getD · _) hx

/-- Settles O19: the checks and the effect read the latch, which an operand write leaves alone. -/
theorem runningCommandIgnoresRegisterWrites : Obligations.RunningCommandIgnoresRegisterWrites := by
  intro s r v i t _ hr h
  have hl : (writeReg s r v).latch = s.latch := writeReg_latch v (by rintro rfl; exact absurd hr (by decide))
  have hst : (writeReg s r v).status = s.status := (congrArg State.status (writeReg_operand hr s v) :)
  have hd := operandsDiffer_writeReg hr s v
  refine ⟨readReg_writeReg_operand hr s v, hl, ?_⟩
  rw [exec_eq_complete]
  obtain ⟨hc, rfl⟩ | ⟨hc, hw, rfl⟩ := exec_cases h
  · refine ⟨_, complete_of_error (by simpa [hl] using hc), by simp, by simp [hl, hst], by simp, ?_⟩
    rintro - hok
    exact absurd hok hc
  · obtain ⟨hmem, hstatus, hresult⟩ := hd.succeededState i (effectOf i)
    refine ⟨_, complete_of_ok (by simpa [hl] using hc) (by simpa [hl] using hw), hmem, hstatus, hresult, ?_⟩
    rintro rfl -
    exact hd.succeededState_ldscale

end Sys2Proof.Machine
end

section
/-! PROOFS of the statements of spec/20_memory.md about the engine: what a command writes (O33), what its outcome depends on
(O34), when it is refused (O36), and that a broken duty does not keep it from completing (O37). -/

namespace Sys2Proof.Machine

/-! ### Regions -/

@[simp] theorem Region.covers_iff {r : Region} {a : Nat} : r.covers a = true ↔ r.start ≤ a ∧ a < r.start + r.len := by
  simp [Region.covers]

@[simp] theorem Region.overlaps_iff {r q : Region} : r.overlaps q = true ↔ Expect.overlap r.start r.len q.start q.len := by
  simp [Region.overlaps]

theorem Footprint.mem_all {f : Footprint} {q : Region} : q ∈ f.all ↔ q ∈ f.reads ∨ f.write = some q := by
  simp [Footprint.all, or_comm]

/-- Regions that share a byte overlap (R227). -/
theorem overlap_of_covers {r q : Region} {a : Nat} (hr : r.covers a = true) (hq : q.covers a = true) :
    Expect.overlap r.start r.len q.start q.len := by
  simp only [Region.covers_iff] at hr hq
  exact ⟨by omega, by omega⟩

/-- A command whose checks pass reads no byte it writes (R227). -/
theorem not_covers_of_ok {i : Instr} {n : Nat} {o : Operands} (hok : checkCode i n o = .ok) {w q : Region}
    (hw : (footprint i o).write = some w) (hq : q ∈ (footprint i o).reads) {a : Nat} (ha : q.covers a = true) :
    w.covers a = false := by
  obtain ⟨-, -, -, hself⟩ := checkCode_eq_ok.1 hok
  by_contra hc
  have hov : w.overlaps q = true := Region.overlaps_iff.2 (overlap_of_covers (by simpa using hc) ha)
  have : (footprint i o).selfOverlaps = true := by simpa [Footprint.selfOverlaps, hw] using ⟨q, hq, by simpa using hov⟩
  simp [this] at hself

/-! ### The refused commands -/

/-- The completion step refuses exactly the commands whose checks pass and whose regions cover the window (R82). -/
theorem complete_eq_refused_iff {i : Instr} {s : State} {e : Operands → Memory → Effect} :
    complete i s e = .refused .regionCoversWindow ↔
      checkCode i s.params.memBytes s.latch.ops = .ok ∧ (footprint i s.latch.ops).coversWindow s.params = true := by
  by_cases hc : checkCode i s.params.memBytes s.latch.ops = .ok
  · cases hw : (footprint i s.latch.ops).coversWindow s.params
    · simp [complete_of_ok hc hw]
    · simp [complete, hc, hw]
  · simp [complete_of_error hc, hc]

theorem coversWindow_iff {f : Footprint} {p : Params} : f.coversWindow p = true ↔
    ∃ q, (q ∈ f.reads ∨ f.write = some q) ∧ Expect.overlap q.start q.len p.regBase 256 := by
  simp [Footprint.coversWindow, Footprint.mem_all]

/-- Settles O36: the completion step refuses in one branch, and its test is the statement's. -/
theorem regionOverTheWindowIsRefused : Obligations.RegionOverTheWindowIsRefused := by
  intro i s
  rw [exec_eq_complete, complete_eq_refused_iff, coversWindow_iff]

/-! ### What a command writes -/

/-- Memory changes with the earlier duties only where a broken command's bytes still stand (R86). -/
theorem breakEarlier_mem (i : Instr) (s : State) (a : Nat) : readByte (breakEarlier i s).mem a = readByte s.mem a ∨
    ∃ l, Expect.broken i s l ∧ Expect.standing l a := by
  obtain hs | ⟨q, hq, hs⟩ := breakEarlier_cases i s
  · exact .inl (by rw [hs])
  · rw [hs]
    refine (breakTouched_mem s q a).imp_right fun ⟨l, hl, ⟨w, hw, hc⟩, hr⟩ => ?_
    exact ⟨l, broken_of_mem_touchedLaunches hq hl, ⟨w, Option.mem_toList.2 hw, hc⟩, hr⟩

/-- A successful command changes a byte only in its write region or where a command it breaks still stands (R86, R88). -/
theorem succeededState_mem (i : Instr) (s : State) (a : Nat) :
    readByte (succeededState i s (effectOf i)).mem a = readByte s.mem a ∨
    (∃ q, (footprint i s.latch.ops).write = some q ∧ q.covers a = true) ∨
    ∃ l, Expect.broken i s l ∧ Expect.standing l a := by
  by_cases hw : ∃ q, (footprint i s.latch.ops).write = some q ∧ q.covers a = true
  · exact .inr (.inl hw)
  refine (breakEarlier_mem i s a).imp (fun hm => Eq.trans ?_ hm) .inr
  refine readByte_writeCells_other _ fun c hc he => hw ?_
  obtain ⟨q, hq, hcov⟩ := effectDue_writes_inside (s := breakEarlier i s) (by simpa only [breakEarlier_latch] using hc)
  rw [breakEarlier_latch] at hq
  exact ⟨q, hq, he ▸ hcov⟩

/-- Settles O33: a completion with an error code writes no byte, and one with code 0 only those of `succeededState_mem`, of
which the write region meets no read region. -/
theorem engineWritesOnlyItsWriteRegion : Obligations.EngineWritesOnlyItsWriteRegion := by
  intro i s t a h
  obtain ⟨_, rfl⟩ | ⟨hok, _, rfl⟩ := exec_cases h
  · simp
  · refine ⟨fun hne => ⟨by simp, (succeededState_mem i s a).resolve_left hne⟩, fun q hq hcov hstand => ?_⟩
    obtain hm | ⟨w, hw, hc⟩ | ⟨l, hb, hl⟩ := succeededState_mem i s a
    · exact hm
    · simp [not_covers_of_ok hok hw hq hcov] at hc
    · exact absurd hl (hstand l hb)

/-! ### What a command reads -/

/-- The two memories hold the same bytes in the region. -/
def AgreeIn (q : Region) (m m' : Memory) : Prop := ∀ a, q.covers a = true → readByte m a = readByte m' a

/-- A used index lies in the packed bytes (R106, R108). -/
theorem byteOff_lt_packedBytes {idx n : Nat} (h : idx < n) : byteOff idx < packedBytes n := by
  unfold byteOff packedBytes
  omega

/-- `r + rows*c` is a used index (R111). -/
theorem columnIndex_lt {r c rows cols : Nat} (hr : r < rows) (hc : c < cols) : r + rows * c < rows * cols :=
  calc r + rows * c
    _ < rows * (c + 1) := by rw [Nat.mul_add_one]; omega
    _ ≤ rows * cols := Nat.mul_le_mul_left _ hc

theorem floatSum_congr {n : Nat} {code code' : Nat → Code} {x x' : Nat → Word} (hc : ∀ j < n, code j = code' j)
    (hx : ∀ j < n, x j = x' j) : floatSum n code x = floatSum n code' x' :=
  List.foldl_ext _ _ _ fun acc j hj => by rw [hc j (List.mem_range.1 hj), hx j (List.mem_range.1 hj)]

theorem intSum_congr {n : Nat} {code code' : Nat → Code} {q q' : Nat → Int} (hc : ∀ j < n, code j = code' j)
    (hq : ∀ j < n, q j = q' j) : intSum n code q = intSum n code' q' :=
  List.foldl_ext _ _ _ fun acc j hj => by rw [hc j (List.mem_range.1 hj), hq j (List.mem_range.1 hj)]

theorem dstCells_congr {da n : Nat} {f g : Nat → Word} (h : ∀ k < n, f k = g k) : dstCells da n f = dstCells da n g :=
  List.flatMap_congr fun k hk => by rw [h k (List.mem_range.1 hk)]

section Agree

variable {m m' : Memory}

theorem codeAt_congr {pa n idx : Nat} (h : AgreeIn ⟨pa, packedBytes n⟩ m m') (hi : idx < n) :
    codeAt m pa idx = codeAt m' pa idx := by
  unfold codeAt
  rw [h _ (by simpa using byteOff_lt_packedBytes hi)]

theorem readWord_congr {a : Nat} (h : AgreeIn ⟨a, 4⟩ m m') : readWord m a = readWord m' a := by
  unfold readWord
  rw [h a (by simp), h (a + 1) (by simp), h (a + 2) (by simp), h (a + 3) (by simp)]

theorem vecElem_congr {sa n k : Nat} (h : AgreeIn ⟨sa, 4 * n⟩ m m') (hk : k < n) : vecElem m sa k = vecElem m' sa k :=
  readWord_congr fun a ha => h a (by simp only [Region.covers_iff] at ha ⊢; omega)

theorem qvecElem_congr {sa n k : Nat} (h : AgreeIn ⟨sa, n⟩ m m') (hk : k < n) : qvecElem m sa k = qvecElem m' sa k := by
  unfold qvecElem
  rw [h (sa + k) (by simpa using hk)]

theorem usesReserved_congr {o : Operands} (h : AgreeIn ⟨o.pa, packedBytes o.elems⟩ m m') :
    usesReserved m o = usesReserved m' o := by
  rw [Bool.eq_iff_iff]
  simp only [usesReserved, List.any_eq_true]
  exact exists_congr fun idx => and_congr_right fun hidx => by rw [codeAt_congr h (List.mem_range.1 hidx)]

theorem unpackCode_congr {o : Operands} (h : AgreeIn ⟨o.pa + 32 * o.idx, 32⟩ m m') (j : Nat) :
    unpackCode o m j = unpackCode o m' j := by
  unfold unpackCode
  rw [h _ (by simp; omega)]

section Matvec

variable {o : Operands} (hp : AgreeIn ⟨o.pa, packedBytes o.elems⟩ m m')
include hp

theorem columnCode_congr {r c : Nat} (hr : r < o.rowsN) (hc : c < o.colsN) :
    codeAt m o.pa (r + o.rowsN * c) = codeAt m' o.pa (r + o.rowsN * c) := codeAt_congr hp (columnIndex_lt hr hc)

theorem matvecElem_congr (hs : AgreeIn ⟨o.sa, 4 * o.colsN⟩ m m') {r : Nat} (hr : r < o.rowsN) :
    matvecElem o m r = matvecElem o m' r :=
  floatSum_congr (fun _ hc => columnCode_congr hp hr hc) fun _ hc => by rw [scaledElem, vecElem_congr hs hc, scaledElem]

theorem matvecTElem_congr (hs : AgreeIn ⟨o.sa, 4 * o.rowsN⟩ m m') {c : Nat} (hc : c < o.colsN) :
    matvecTElem o m c = matvecTElem o m' c :=
  congrArg (fmul o.scale) (floatSum_congr (fun _ hr => columnCode_congr hp hr hc) fun _ hr => vecElem_congr hs hr)

theorem matvecI8Elem_congr (hs : AgreeIn ⟨o.sa, o.rowsN⟩ m m') {c : Nat} (hc : c < o.colsN) :
    matvecI8Elem o m c = matvecI8Elem o m' c :=
  congrArg (rescale o) (intSum_congr (fun _ hr => columnCode_congr hp hr hc) fun _ hr => qvecElem_congr hs hr)

theorem matvecTI8Elem_congr (hs : AgreeIn ⟨o.sa, o.colsN⟩ m m') {r : Nat} (hr : r < o.rowsN) :
    matvecTI8Elem o m r = matvecTI8Elem o m' r :=
  congrArg (rescale o) (intSum_congr (fun _ hc => columnCode_congr hp hr hc) fun _ hc => qvecElem_congr hs hc)

end Matvec

end Agree

/-- The effect of a command is a function of its operands and of the bytes of its read regions (R80, R81). -/
theorem effectOf_congr {i : Instr} {o : Operands} {m m' : Memory} (h : ∀ q ∈ (footprint i o).reads, AgreeIn q m m') :
    effectOf i o m = effectOf i o m' := by
  cases i <;> simp only [footprint, List.mem_cons, List.not_mem_nil, or_false, forall_eq_or_imp, forall_eq] at h
  case nop => rfl
  case locate =>
    have hk : locateCode o m = locateCode o m' := by
      unfold locateCode codeAt
      rw [h _ (by simp)]
    simp only [effectOf, effectLocate, hk]
  case unpack =>
    have hk : unpackCode o m = unpackCode o m' := funext (unpackCode_congr h)
    simp only [effectOf, effectUnpack, hk]
  case ldscale =>
    have hs : trailingScale o m = trailingScale o m' := readWord_congr h
    simp only [effectOf, effectLdscale, hs]
  case matvec =>
    obtain ⟨hp, hs⟩ := h
    simp only [effectOf, effectMatvec, usesReserved_congr hp, dstCells_congr fun _ hk => matvecElem_congr hp hs hk]
  case matvecT =>
    obtain ⟨hp, hs⟩ := h
    simp only [effectOf, effectMatvecT, usesReserved_congr hp, dstCells_congr fun _ hk => matvecTElem_congr hp hs hk]
  case matvecI8 =>
    obtain ⟨hp, hs⟩ := h
    simp only [effectOf, effectMatvecI8, usesReserved_congr hp, dstCells_congr fun _ hk => matvecI8Elem_congr hp hs hk]
  case matvecTI8 =>
    obtain ⟨hp, hs⟩ := h
    simp only [effectOf, effectMatvecTI8, usesReserved_congr hp, dstCells_congr fun _ hk => matvecTI8Elem_congr hp hs hk]

/-- What the broken duties leave in memory agrees on the read regions with what it held, when what the command reads stands. -/
theorem breakEarlier_agreeIn_reads {i : Instr} {s : State} (hr : Expect.readsStand i s) :
    ∀ q ∈ (footprint i s.latch.ops).reads, AgreeIn q (breakEarlier i s).mem s.mem := fun q hq a ha =>
  (breakEarlier_mem i s a).resolve_right fun ⟨l, hb, hl⟩ => hr l hb q hq a ha hl

theorem breakEarlier_wf (i : Instr) {s : State} (hw : s.mem.wf = true) : (breakEarlier i s).mem.wf = true := by
  obtain hs | ⟨q, _, hs⟩ := breakEarlier_cases i s
  · rwa [hs]
  · rw [hs]
    exact breakTouched_induction (P := fun t => t.mem.wf = true) (fun _ _ _ ht => writeCells_wf _ ht) hw

/-- With its duty kept and what it reads standing, a command has the effect it computes from the memory it found (R80). -/
theorem succeededState_of_readsStand {i : Instr} {s : State} (hb : s.breached = false) (hr : Expect.readsStand i s) :
    succeededState i s (effectOf i) = completeOk i (breakEarlier i s) (effectOf i s.latch.ops s.mem) := by
  have hkept : (breakEarlier i s).breached = false := by simpa using hb
  simp only [succeededState, effectDue_kept hkept, effectOf_congr (breakEarlier_agreeIn_reads hr)]

/-- Settles O34: the checks read the latch and `MEM_BYTES`, and both states perform the one effect of `effectOf_congr`, which
writes the whole write region. -/
theorem outcomeIsAFunctionOfLatchAndReadRegions : Obligations.OutcomeIsAFunctionOfLatchAndReadRegions := by
  intro i s s' t t' hl hp hb hb' hr hr' hw hw' hagree h h'
  have hcode : checkCode i s'.params.memBytes s'.latch.ops = checkCode i s.params.memBytes s.latch.ops := by rw [hl, hp]
  obtain ⟨hc, rfl⟩ | ⟨hc, -, rfl⟩ := exec_cases h <;> obtain ⟨hc', rfl⟩ | ⟨hc', -, rfl⟩ := exec_cases h'
  · simp [hcode, hc]
  · exact absurd (hcode ▸ hc') hc
  · exact absurd (hcode ▸ hc) hc'
  · have heff : effectOf i s'.latch.ops s'.mem = effectOf i s.latch.ops s.mem := by
      rw [← hl]
      exact (effectOf_congr hagree).symm
    rw [succeededState_of_readsStand hb hr, succeededState_of_readsStand hb' hr', heff]
    refine ⟨by simp, by simp, fun _ => ⟨fun q hq a ha => ?_, ?_, ?_⟩⟩
    · exact readByte_writeCells_written (breakEarlier_wf i hw) (breakEarlier_wf i hw') (effectOf_writes_cover hq ha)
    · rintro rfl
      rfl
    · rintro rfl
      rfl

/-! ### A broken duty -/

/-- A command whose checks pass and whose regions keep clear of the window succeeds, its duty broken or not (R86). -/
theorem exec_of_ok {i : Instr} {s : State} (hc : checkCode i s.params.memBytes s.latch.ops = .ok)
    (hw : (footprint i s.latch.ops).coversWindow s.params = false) : exec i s = .next (succeededState i s (effectOf i)) :=
  (exec_eq_complete i s).trans (complete_of_ok hc hw)

/-- The flags of a success are fixed but for `RCODE` (R56). -/
theorem succeededState_status (i : Instr) (s : State) (e : Operands → Memory → Effect) :
    (succeededState i s e).status = s.status.completed .ok (succeededState i s e).status.rcode := by
  simp [succeededState, Status.completed]

/-- Settles O37: what the command leaves alone is O33 and O35, and its own outcome is by O34 that of the same state with no
earlier command, where nothing is broken. -/
theorem breachedCommandStillCompletes : Obligations.BreachedCommandStillCompletes := by
  intro i s hc hw
  have ht := exec_of_ok hc hw
  obtain ⟨hres, hops, hscale, -⟩ := commandWritesOnlyItsOwnRegister i s _ ht
  refine ⟨_, ht, by simp, by simp, by simp, by simp, by simp, by simp, by simp, by simp, fun hne => (hres hne).2, hops,
    fun hne => (hscale fun he => hne (by rw [he])).2, fun a hout hstand => ?_, fun hb hr hm => ?_⟩
  · obtain hm | ⟨q, hq, hcov⟩ | ⟨l, hl, hstood⟩ := succeededState_mem i s a
    · exact hm
    · simp [hout q hq] at hcov
    · exact absurd hstood (hstand l hl)
  · have hu := exec_of_ok (s := { s with unobserved := [] }) hc hw
    obtain ⟨-, hrc, hown⟩ := outcomeIsAFunctionOfLatchAndReadRegions i s { s with unobserved := [] } _ _ rfl rfl hb hb hr
      (fun l hl => absurd hl.1 List.not_mem_nil) hm hm (fun _ _ _ _ => rfl) ht hu
    refine ⟨_, hu, ?_, (hown (by simp)).1⟩
    rw [succeededState_status, hrc]
    exact (succeededState_status i { s with unobserved := [] } _).symm

end Sys2Proof.Machine
end

section
/-! PROOFS of the statements of spec/20_memory.md about the host's memory accesses: what a write does to memory and to the
duties of R86 (O38), that it reads back (O39), and what a read returns (O40). -/

namespace Sys2Proof.Machine

/-! ### Routing and the running command's regions -/

theorem route_eq_memory {p : Params} {a : Nat} {w : Width} (hc : a + widthBytes w ≤ p.regBase ∨ p.regBase + 256 ≤ a)
    (hm : a + widthBytes w ≤ p.memBytes) : route p a w = .memory := by
  unfold route
  rw [if_neg (by simp; omega), if_pos hm]

/-- The regions of the running command are those of the latched command whose dimension checks pass; else there are none (R81). -/
theorem runningFootprint_cases (s : State) :
    runningFootprint s = { reads := [], write := none } ∨
    ∃ i, s.status.busy = true ∧ decodeWord s.latch.cmd = .ok i ∧ dimensionOk i s.latch.ops = true ∧
      runningFootprint s = footprint i s.latch.ops := by
  unfold runningFootprint
  split_ifs with hb
  · split
    · rename_i i hi
      split_ifs with hd
      · exact .inr ⟨i, hb, hi, hd, rfl⟩
      · exact .inl rfl
    · exact .inl rfl
  · exact .inl rfl

theorem runningFootprint_eq {s : State} {i : Instr} (hb : s.status.busy = true) (hi : decodeWord s.latch.cmd = .ok i)
    (hd : dimensionOk i s.latch.ops = true) : runningFootprint s = footprint i s.latch.ops := by
  simp [runningFootprint, hb, hi, hd]

theorem touchedBy_iff {f : Footprint} {access : Region} : f.touchedBy access = true ↔
    ∃ q, (q ∈ f.reads ∨ f.write = some q) ∧ Expect.overlap access.start access.len q.start q.len := by
  simp [Footprint.touchedBy, Footprint.mem_all]

/-! ### The bytes of an access -/

theorem widthBytes_pos (w : Width) : 0 < widthBytes w := by cases w <;> decide

/-- The byte of a word at an offset, as a number (R11). -/
theorem byteOfWord_eq_ofNat (v : Word) (k : Nat) : byteOfWord v k = BitVec.ofNat 8 (v.toNat / 2 ^ (8 * k)) := by
  rw [← Nat.shiftRight_eq_div_pow]
  rfl

theorem loadBytes_congr {n : Nat} {f g : Nat → Byte} (hn : 0 < n) (h : ∀ k < n, f k = g k) : loadBytes n f = loadBytes n g := by
  have hk (k : Nat) : (if k < n then f k else 0#8) = if k < n then g k else 0#8 := by
    split_ifs with hlt
    · exact h k hlt
    · rfl
  simp only [loadBytes, h 0 hn, hk]

theorem toNat_append_byte {n : Nat} (x : BitVec n) (b : Byte) : (x ++ b).toNat = 2 ^ 8 * x.toNat + b.toNat := by
  rw [BitVec.toNat_append, ← Nat.shiftLeft_add_eq_or_of_lt b.isLt, Nat.shiftLeft_eq, Nat.mul_comm]

theorem toNat_wordOfBytes (b0 b1 b2 b3 : Byte) :
    (wordOfBytes b0 b1 b2 b3).toNat = b0.toNat + 2 ^ 8 * b1.toNat + 2 ^ 16 * b2.toNat + 2 ^ 24 * b3.toNat := by
  simp only [wordOfBytes, toNat_append_byte]
  omega

/-- Narrow accesses are zero-extended (log 9). -/
theorem loadBytes_one (f : Nat → Byte) : loadBytes 1 f = 0#24 ++ f 0 :=
  congrArg (· ++ f 0) (by decide : 0#8 ++ 0#8 ++ 0#8 = 0#24)

theorem loadBytes_two (f : Nat → Byte) : loadBytes 2 f = 0#16 ++ f 1 ++ f 0 :=
  congrArg (· ++ f 1 ++ f 0) (by decide : 0#8 ++ 0#8 = 0#16)

/-- The bytes of a word, put together again as far as the access reaches, are its low bits (R72, R115). -/
theorem loadBytes_byteOfWord (v : Word) (w : Width) :
    loadBytes (widthBytes w) (byteOfWord v) = BitVec.ofNat 32 (v.toNat % 2 ^ (8 * widthBytes w)) := by
  refine BitVec.eq_of_toNat_eq ?_
  cases w <;> simp [loadBytes, widthBytes, toNat_wordOfBytes, byteOfWord_eq_ofNat] <;> omega

/-- A write of the host leaves the bytes outside the access alone (R16). -/
theorem readByte_writeCells_cellsOfWord_other {m : Memory} {a b n : Nat} {v : Word} (h : b < a ∨ a + n ≤ b) :
    readByte (writeCells m (cellsOfWord a n v)) b = readByte m b := by
  refine readByte_writeCells_other _ fun c hc => ?_
  obtain ⟨k, hk, rfl⟩ := mem_cellsOfWord.1 hc
  simp only
  omega

/-- A write of the host stores its value little-endian (R72, R115). -/
theorem readByte_writeCells_cellsOfWord {m : Memory} (hm : m.wf = true) {a k n : Nat} {v : Word} (hk : k < n) :
    readByte (writeCells m (cellsOfWord a n v)) (a + k) = byteOfWord v k := by
  refine readByte_writeCells_mem _ hm ?_ (mem_cellsOfWord.2 ⟨k, hk, rfl⟩)
  simp only [cellsOfWord, List.map_map]
  exact List.nodup_range.map fun x y h => by simpa using h

/-! ### Host writes -/

theorem hostStep_write_memory {s : State} {a : Nat} {w : Width} (h : route s.params a w = .memory) (v : Word) :
    hostStep (.write a w v) s = .next (hostWriteMem s a w v) := by
  simp only [hostStep, h]

theorem hostStep_read_memory {s : State} {a : Nat} {w : Width} (h : route s.params a w = .memory) :
    hostStep (.read a w) s = .next (hostReadMem s a w) := by
  simp only [hostStep, h]

/-- A byte reads as the access left it but where a touched command's bytes stand (R86). -/
theorem hostWriteMem_mem {s : State} {a : Nat} {w : Width} {b : Nat} (v : Word)
    (h : ∀ l ∈ s.unobserved, Expect.touches l a (widthBytes w) → ¬ Expect.standing l b) :
    readByte (hostWriteMem s a w v).mem b = readByte (writeCells s.mem (cellsOfWord a (widthBytes w) v)) b := by
  refine (breakTouched_mem _ _ b).resolve_right fun ⟨l, hl, ⟨q, hq, hc⟩, hr⟩ => ?_
  obtain ⟨hmem, htouch⟩ := touches_of_mem_touchedLaunches hl
  exact h l hmem htouch ⟨⟨q, Option.mem_toList.2 hq, hc⟩, hr⟩

/-- `RCODE` changes with a memory write only for a touched command that completed last, with none running (R35, R86). -/
theorem hostWriteMem_rcode {s : State} {a : Nat} {w : Width} {v : Word}
    (hne : (hostWriteMem s a w v).status.rcode ≠ s.status.rcode) : s.status.busy = false ∧ s.status.ecode = .ok ∧
      ∃ l ∈ s.unobserved, Expect.touches l a (widthBytes w) ∧ l.lastSucceeded = true := by
  obtain ⟨l, hl, hof⟩ := (breakTouched_rcode _ _).resolve_left hne
  simp only [State.rcodeIsOf, Bool.and_eq_true, Bool.not_eq_true', beq_iff_eq] at hof
  obtain ⟨⟨hlast, hidle⟩, hok⟩ := hof
  obtain ⟨hmem, htouch⟩ := touches_of_mem_touchedLaunches hl
  exact ⟨hidle, hok, l, hmem, htouch, hlast⟩

/-- Settles O38: the frame is the host write's own, the rest is what breaking the touched duties can change. -/
theorem hostWriteBreaksTheDutiesItTouches : Obligations.HostWriteBreaksTheDutiesItTouches := by
  intro s a w v hm hroute
  have hf := hostWriteMem_frame s a w v
  have hbr : (hostWriteMem s a w v).breached = _ := (congrArg State.breached hf :)
  refine ⟨_, hostStep_write_memory hroute v, ?_, (congrArg State.latch hf :), (congrArg (·.status.busy) hf :),
    (congrArg (·.status.done) hf :), (congrArg (·.status.ovr) hf :), (congrArg (·.status.ecode) hf :),
    fun i hb hi hd => ?_, fun hne => ?_, fun hne => ?_, hostWriteMem_rcode, fun b hb hstand => ?_, fun k hk hstand => ?_⟩
  · rw [hbr]
    exact hf
  · rw [hbr, Bool.or_eq_true, runningFootprint_eq hb hi hd, touchedBy_iff]
  · obtain ⟨-, l, hl, hkept⟩ := (breakTouched_result _ _).resolve_left hne
    obtain ⟨hmem, htouch⟩ := touches_of_mem_touchedLaunches hl
    exact ⟨l, hmem, htouch, hkept⟩
  · obtain ⟨l, hl, hkept⟩ := (breakTouched_scale _ _).resolve_left hne
    obtain ⟨hmem, htouch⟩ := touches_of_mem_touchedLaunches hl
    exact ⟨l, hmem, htouch, hkept⟩
  · rw [hostWriteMem_mem v hstand, readByte_writeCells_cellsOfWord_other hb]
  · rw [hostWriteMem_mem v hstand, readByte_writeCells_cellsOfWord hm hk, byteOfWord_eq_ofNat]

/-! ### Host reads -/

/-- A read that meets no write region of a running command returns the bytes memory holds (R85, R87). -/
theorem hostReadMem_outside {s : State} {a : Nat} {w : Width}
    (h : ∀ q, (runningFootprint s).write = some q → ¬ Expect.overlap a (widthBytes w) q.start q.len) :
    hostReadMem s a w = { s with busData := loadBytes (widthBytes w) fun k => readByte s.mem (a + k) } := by
  have hbyte : ∀ k < widthBytes w, hostByte s (a + k) = readByte s.mem (a + k) := by
    intro k hk
    have hout : ¬ (runningFootprint s).write.any (·.covers (a + k)) = true := by
      simp only [Option.any_eq_true, Region.covers_iff, not_exists, not_and]
      intro q hq hle hlt
      exact h q hq ⟨by omega, by omega⟩
    simp only [hostByte, if_neg hout]
  have hdraw : ¬ (runningFootprint s).write.any (·.overlaps ⟨a, widthBytes w⟩) = true := by
    simp only [Option.any_eq_true, Region.overlaps_iff, not_exists, not_and]
    exact fun q hq hlt hgt => h q hq ⟨hgt, hlt⟩
  simp only [hostReadMem, loadBytes_congr (widthBytes_pos w) hbyte, if_neg hdraw]

/-- Settles O40: outside the write region the read is that of the bytes, put together for each width. -/
theorem memoryReadReturnsWhatMemoryHolds : Obligations.MemoryReadReturnsWhatMemoryHolds := by
  intro s a w hroute h
  have hout : ∀ q, (runningFootprint s).write = some q → ¬ Expect.overlap a (widthBytes w) q.start q.len := by
    intro q hq
    obtain hn | ⟨i, hb, hi, -, hf⟩ := runningFootprint_cases s
    · rw [hn] at hq
      cases hq
    · exact h hb i q hi (hf ▸ hq)
  rw [hostStep_read_memory hroute, hostReadMem_outside hout]
  cases w
  case byte => simp only [widthBytes, loadBytes_one, Nat.add_zero]
  case half => simp only [widthBytes, loadBytes_two, Nat.add_zero]
  case word => rfl

/-- Settles O39: the write breaks no duty, so it is a plain one, and the read back meets no write region. -/
theorem hostWriteReadsBackLittleEndian : Obligations.HostWriteReadsBackLittleEndian := by
  intro s a w v hm hrun hun hclear hfit
  have hroute := route_eq_memory hclear hfit
  have hfoot : ∀ q, (q ∈ (runningFootprint s).reads ∨ (runningFootprint s).write = some q) →
      ¬ Expect.overlap a (widthBytes w) q.start q.len := by
    obtain hn | ⟨i, hb, hi, hd, hf⟩ := runningFootprint_cases s
    · simp [hn]
    · rw [hf]
      exact fun q hq => hrun hb i hi hd q (by simpa [or_comm] using hq)
  have huntouched : touchedLaunches s ⟨a, widthBytes w⟩ = [] :=
    List.eq_nil_iff_forall_not_mem.2 fun l hl =>
      have ⟨hmem, htouch⟩ := touches_of_mem_touchedLaunches hl
      hun l hmem htouch
  have hkept : (runningFootprint s).touchedBy ⟨a, widthBytes w⟩ = false := by
    rw [Bool.eq_false_iff, ne_eq, touchedBy_iff]
    exact fun ⟨q, hq, ho⟩ => hfoot q hq ho
  have hplain := hostWriteMem_untouched v huntouched
  rw [hkept, Bool.or_false] at hplain
  have hbyte : ∀ k < widthBytes w, readByte (hostWriteMem s a w v).mem (a + k) = byteOfWord v k := fun k hk => by
    rw [hplain]
    exact readByte_writeCells_cellsOfWord hm hk
  refine ⟨_, hostStep_write_memory hroute v, ?_, fun k hk => ?_, fun b hb => ?_, _, hostStep_read_memory ?_, ?_⟩
  · rw [hplain]
  · rw [hbyte k hk, byteOfWord_eq_ofNat]
  · rw [hplain]
    exact readByte_writeCells_cellsOfWord_other hb
  · rwa [hostWriteMem_params]
  · rw [hostReadMem_outside]
    · exact (loadBytes_congr (widthBytes_pos w) hbyte).trans (loadBytes_byteOfWord v w)
    · rw [hplain]
      exact fun q hq => hfoot q (.inr hq)

end Sys2Proof.Machine
end

section
/-! PROOFS of the statements of spec/30_encoding.md: the command word (O1, O2, O4) and the packed codes (O48, O49, O50). -/

namespace Sys2Proof.Machine

/-! ### The fields of a command word -/

@[simp] theorem fieldsOf_op_toNat (w : Word) : (fieldsOf w).op.toNat = w.toNat % 256 := by
  simp [fieldsOf]

@[simp] theorem fieldsOf_rsv_toNat (w : Word) : (fieldsOf w).rsv.toNat = w.toNat / 256 := by
  have := w.isLt
  simp only [fieldsOf, BitVec.extractLsb'_toNat, Nat.shiftRight_eq_div_pow]
  omega

/-- `RSV` is zero exactly when the word is a byte (R100). -/
theorem fieldsOf_rsv_eq_zero_iff {w : Word} : (fieldsOf w).rsv = 0#24 ↔ w.toNat / 256 = 0 := by
  rw [← BitVec.toNat_inj, fieldsOf_rsv_toNat, BitVec.toNat_zero]

/-- The one command format holds of every command (R100 to R102). -/
theorem encode_format (i : Instr) : Laws.Encoding.Statement i := by
  cases i
  exacts [Laws.Encoding.nop, Laws.Encoding.locate, Laws.Encoding.unpack, Laws.Encoding.ldscale, Laws.Encoding.matvec,
    Laws.Encoding.matvecT, Laws.Encoding.matvecI8, Laws.Encoding.matvecTI8]

theorem instr_wf (i : Instr) : i.wf = true := by
  obtain ⟨hop, hrsv, hmem, -⟩ := encode_format i
  simp [Instr.wf, CmdWord.wf, CmdWord.rsvZero, CmdWord.opAssigned, hop, hrsv, hmem]

/-- A word whose `RSV` is zero and whose `OP` is a command's is the command's word (R101). -/
theorem eq_encode_of_fields {w : Word} {i : Instr} (hrsv : (fieldsOf w).rsv = 0#24) (hop : (fieldsOf w).op = opcodeOf i) :
    w = encode i := by
  obtain ⟨-, -, -, hnum⟩ := encode_format i
  have hbyte := congrArg BitVec.toNat hop
  rw [fieldsOf_op_toNat] at hbyte
  rw [fieldsOf_rsv_eq_zero_iff] at hrsv
  exact BitVec.eq_of_toNat_eq (by omega)

/-! ### The decoder -/

/-- An `OP` is that of the command it decodes to, or unassigned (R101, R103). -/
theorem decodeOp_cases (op : BitVec 8) :
    (∃ i, op = opcodeOf i ∧ decodeOp op = .ok i) ∨ decodeOp op = .error .unassignedOp := by
  unfold decodeOp
  split
  case h_9 => exact .inr rfl
  all_goals exact .inl ⟨_, BitVec.eq_of_toNat_eq (by assumption), rfl⟩

theorem opcodeOf_assigned (i : Instr) : (opcodeOf i).toNat < 4 ∨ 0x10 ≤ (opcodeOf i).toNat ∧ (opcodeOf i).toNat < 0x14 := by
  cases i <;> decide

/-- The values between and above the two groups of the opcode map are unassigned (R103). -/
theorem decodeOp_unassigned {op : BitVec 8} (h : 4 ≤ op.toNat ∧ op.toNat ≤ 0x0F ∨ 0x14 ≤ op.toNat) :
    decodeOp op = .error .unassignedOp := by
  refine (decodeOp_cases op).resolve_left ?_
  rintro ⟨i, rfl, -⟩
  have := opcodeOf_assigned i
  omega

theorem decodeWord_of_rsv_ne {w : Word} (h : (fieldsOf w).rsv ≠ 0#24) : decodeWord w = .error .reservedBits := if_neg h

theorem decodeWord_of_rsv_zero {w : Word} (h : (fieldsOf w).rsv = 0#24) : decodeWord w = decodeOp (fieldsOf w).op := if_pos h

/-- A word decodes to a command exactly when it is the command's word (R101). -/
theorem decodeWord_eq_ok_iff {w : Word} {i : Instr} : decodeWord w = .ok i ↔ w = encode i := by
  refine ⟨fun h => ?_, fun h => h ▸ decodeWord_encode i⟩
  by_cases hrsv : (fieldsOf w).rsv = 0#24
  · rw [decodeWord_of_rsv_zero hrsv] at h
    obtain ⟨k, hop, hk⟩ | he := decodeOp_cases (fieldsOf w).op
    · cases hk.symm.trans h
      exact eq_encode_of_fields hrsv hop
    · cases he.symm.trans h
  · cases (decodeWord_of_rsv_ne hrsv).symm.trans h

/-- The statements' opcode map lists the commands' words (R101). -/
theorem mem_opcodeMap_iff {w : Word} {i : Instr} : (w, i) ∈ Expect.opcodeMap ↔ w = encode i := by
  cases i <;> simp [Expect.opcodeMap, encode, opcodeOf]

/-- The four bytes of a word, least significant first, decode as the word (R114). -/
theorem decode_bytes (w : Word) :
    decode [w.extractLsb' 0 8, w.extractLsb' 8 8, w.extractLsb' 16 8, w.extractLsb' 24 8] = decodeWord w := by
  refine congrArg decodeWord (BitVec.eq_of_toNat_eq ?_)
  have := w.isLt
  simp only [toNat_wordOfBytes, BitVec.extractLsb'_toNat, Nat.shiftRight_eq_div_pow]
  omega

theorem decodeTableWord_of_ok {w : Word} {i : Instr} (h : decodeWord w = .ok i) : decodeTableWord 32 w.toNat = some i := by
  simp only [decodeTableWord, tableWord_toNat, decode_bytes, h]

/-- Settles O1: both sides say that the word is the command's. -/
theorem commandWordSelectsItsCommand : Obligations.CommandWordSelectsItsCommand := fun _ _ =>
  decodeWord_eq_ok_iff.trans mem_opcodeMap_iff.symm

/-- Settles O2: the decoder looks at `RSV` first, and then `OP` is the whole word. -/
theorem illegalWordIsRejectedByName : Obligations.IllegalWordIsRejectedByName := by
  refine fun w => ⟨fun hrsv => decodeWord_of_rsv_ne (mt fieldsOf_rsv_eq_zero_iff.1 hrsv), fun hrsv hop => ?_⟩
  rw [decodeWord_of_rsv_zero (fieldsOf_rsv_eq_zero_iff.2 hrsv)]
  refine decodeOp_unassigned ?_
  rw [fieldsOf_op_toNat]
  omega

/-- Settles O4: the format makes the word legal, and its bytes decode as the word does. -/
theorem encodedCommandDecodesBack : Obligations.EncodedCommandDecodesBack := fun i =>
  ⟨instr_wf i, decodeWord_encode i, decodeTableWord_of_ok (decodeWord_encode i)⟩

/-! ### The place of a code -/

/-- The index whose code is in group `g` of byte `j` of block `bi` (R106, R110). -/
def indexAt (bi g j : Nat) : Nat := 128 * bi + (j + 32 * g)

theorem indexAt_div {g j : Nat} (hg : g < 4) (hj : j < 32) (bi : Nat) : indexAt bi g j / 128 = bi := by
  unfold indexAt
  omega

theorem byteOff_indexAt {g j : Nat} (hg : g < 4) (hj : j < 32) (bi : Nat) : byteOff (indexAt bi g j) = bi * 32 + j := by
  unfold byteOff indexAt
  omega

theorem group_indexAt {g j : Nat} (hg : g < 4) (hj : j < 32) (bi : Nat) : group (indexAt bi g j) = g := by
  unfold group indexAt
  omega

/-- An index is given back by its byte and its group. -/
theorem indexAt_byteOff_group (i : Nat) : indexAt (byteOff i / 32) (group i) (byteOff i % 32) = i := by
  unfold indexAt byteOff group
  omega

/-- Settles O48: byte and group give the index back, and the index of group 0 lies in the byte. -/
theorem codesHaveTheirOwnBits : Obligations.CodesHaveTheirOwnBits := by
  refine ⟨fun i j hbyte hgroup => ?_, fun _ _ => byteOff_lt_packedBytes, fun n a ha => ⟨indexAt (a / 32) 0 (a % 32), ?_, ?_⟩⟩
  · rw [← indexAt_byteOff_group i, hbyte, hgroup, indexAt_byteOff_group]
  · rw [byteOff_indexAt (by decide) (Nat.mod_lt _ (by decide)), Nat.div_add_mod']
  · rw [indexAt_div (by decide) (Nat.mod_lt _ (by decide))]
    exact Nat.div_lt_of_lt_mul ha

/-! ### The codes of a byte -/

/-- A code is the two bits of its group (R107). -/
theorem codeIn_toNat (b : Byte) (g : Nat) : (codeIn b g).toNat = b.toNat / 2 ^ (6 - 2 * g) % 4 := by
  simp [codeIn, Nat.shiftRight_eq_div_pow]

theorem codeAt_indexAt (m : Memory) (pa bi : Nat) {g j : Nat} (hg : g < 4) (hj : j < 32) :
    codeAt m pa (indexAt bi g j) = codeIn (readByte m (pa + (bi * 32 + j))) g := by
  rw [codeAt, byteOff_indexAt hg hj, group_indexAt hg hj]

/-- The four codes of a byte make it up, group 0 in its highest bits (R107). -/
theorem toNat_eq_codes (b : Byte) : b.toNat = (codeIn b 0).toNat * 2 ^ 6 + (codeIn b 1).toNat * 2 ^ 4 +
    (codeIn b 2).toNat * 2 ^ 2 + (codeIn b 3).toNat := by
  have := b.isLt
  simp only [codeIn_toNat]
  omega

/-- Settles O49: the block offsets `j + 32*g` are group `g` of the byte, and its codes make it up. -/
theorem packedByteHoldsFourCodes : Obligations.PackedByteHoldsFourCodes := by
  intro m pa bi j hj
  have hcode {g : Nat} (hg : g < 4) := codeAt_indexAt m pa bi hg hj
  rw [toNat_eq_codes, ← hcode (by decide : 0 < 4), ← hcode (by decide : 1 < 4), ← hcode (by decide : 2 < 4),
    ← hcode (by decide : 3 < 4)]
  rfl

/-! ### Aligned columns -/

/-- Row `r` of column `c` is in block `r div 128` of the column, when a column is `q` whole blocks (R111). -/
theorem columnIndex_eq_indexAt (q r c : Nat) :
    r + 128 * q * c = indexAt (c * q + r / 128) (r % 128 / 32) (r % 32) := by
  rw [indexAt, Nat.mul_assoc, Nat.mul_comm q c]
  omega

/-- Settles O50: the index is that of its block, group and byte, and the column's blocks start at `c*q`. -/
theorem alignedColumnFillsWholeBlocks : Obligations.AlignedColumnFillsWholeBlocks := by
  intro rows r c haligned hr
  obtain ⟨q, rfl⟩ := Nat.dvd_of_mod_eq_zero haligned
  have hg : r % 128 / 32 < 4 := by omega
  have hj : r % 32 < 32 := Nat.mod_lt _ (by decide)
  have hstart (k : Nat) : k * (128 * q) / 128 = k * q := by
    rw [Nat.mul_left_comm, Nat.mul_div_cancel_left _ (by decide)]
  rw [columnIndex_eq_indexAt, byteOff_indexAt hg hj, group_indexAt hg hj, indexAt_div hg hj, hstart, hstart,
    Nat.mul_div_cancel_left _ (by decide), Nat.add_one_mul]
  exact ⟨rfl, rfl, by omega, by omega⟩

end Sys2Proof.Machine
end

section
/-! PROOFS of the statements of spec/40_codec.md: the codec commands NOP (O23), LOCATE (O24), UNPACK (O25) and LDSCALE (O26),
and the decode table (O47). -/

namespace Sys2Proof.Machine

/-! ### The checks, one at a time -/

theorem Footprint.fits_iff {f : Footprint} {n : Nat} : f.fits n = true ↔ ∀ q ∈ f.all, q.start + q.len ≤ n := by
  simp [Footprint.fits, Region.fits]

theorem Footprint.selfOverlaps_iff {f : Footprint} : f.selfOverlaps = true ↔
    ∃ w, f.write = some w ∧ ∃ q ∈ f.reads, Expect.overlap w.start w.len q.start q.len := by
  simp [Footprint.selfOverlaps]

theorem completeError_eq_failed (s : State) (c : ECode) : completeError s c = Expect.failed s c := by
  simp [completeError, Status.completed, Expect.failed]

section Checks

variable {i : Instr} {s : State}

/-- A command that fails a check completes with the check's code and nothing else (R228). -/
theorem exec_of_checkCode {c : ECode} (hc : checkCode i s.params.memBytes s.latch.ops = c) (hne : c ≠ .ok) :
    exec i s = .next (Expect.failed s c) := by
  subst hc
  rw [exec_eq_complete, complete_of_error hne, completeError_eq_failed]

theorem exec_invalidDimension (hd : ¬ dimensionOk i s.latch.ops = true) :
    exec i s = .next (Expect.failed s .invalidDimension) :=
  exec_of_checkCode (by simp [checkCode, hd]) (by decide)

theorem exec_misaligned (hd : dimensionOk i s.latch.ops = true) (ha : ¬ alignmentOk i s.latch.ops = true) :
    exec i s = .next (Expect.failed s .misaligned) :=
  exec_of_checkCode (by simp [checkCode, hd, ha]) (by decide)

theorem exec_accessFault (hd : dimensionOk i s.latch.ops = true) (ha : alignmentOk i s.latch.ops = true)
    (hf : ¬ (footprint i s.latch.ops).fits s.params.memBytes = true) :
    exec i s = .next (Expect.failed s .accessFault) :=
  exec_of_checkCode (by simp [checkCode, hd, ha, hf]) (by decide)

theorem exec_overlap (hd : dimensionOk i s.latch.ops = true) (ha : alignmentOk i s.latch.ops = true)
    (hf : (footprint i s.latch.ops).fits s.params.memBytes = true) (ho : (footprint i s.latch.ops).selfOverlaps = true) :
    exec i s = .next (Expect.failed s .overlap) :=
  exec_of_checkCode (by simp [checkCode, hd, ha, hf, ho]) (by decide)

end Checks

/-! ### A success in the statements' words -/

/-- The completion step with code 0 of a command whose duty stands unbroken: its flags and the record of unobserved commands,
and beside these what its effect writes (R56). -/
theorem completeOk_eq_succeeded {i : Instr} {s : State} (h : dutyBroken i s = false) (e : Effect) :
    completeOk i s e = { Expect.succeeded i s e.rc with
      mem := writeCells s.mem e.writes
      result := e.result.getD s.result
      ops := { s.ops with scale := e.scale.getD s.ops.scale } } := by
  rw [completeOk, h]
  rfl

theorem dutyBroken_of_kept {s : State} (i : Instr) (h : s.breached = false) : dutyBroken i s = false := by
  simp [dutyBroken, h]

theorem touchedLaunches_of_clear {s : State} {q : Region} (h : Expect.unobservedClear s q.start q.len) :
    touchedLaunches s q = [] :=
  List.eq_nil_iff_forall_not_mem.2 fun l hl =>
    have ⟨hmem, htouch⟩ := touches_of_mem_touchedLaunches hl
    h l hmem htouch

theorem coversWindow_of_clear {f : Footprint} {s : State} (h : ∀ q ∈ f.all, Expect.clear s q.start q.len) :
    f.coversWindow s.params = false := by
  rw [Bool.eq_false_iff, ne_eq, coversWindow_iff]
  rintro ⟨q, hq, hlo, hhi⟩
  have := h q (Footprint.mem_all.2 hq)
  omega

/-- A command whose checks pass, whose regions keep clear of the window and which keeps every duty has its own effect. -/
theorem exec_of_kept {i : Instr} {s : State} {e : Effect} (he : effectOf i s.latch.ops s.mem = e)
    (hc : checkCode i s.params.memBytes s.latch.ops = .ok)
    (hw : ∀ q ∈ (footprint i s.latch.ops).all, Expect.clear s q.start q.len) (hb : s.breached = false)
    (hun : ∀ q ∈ (footprint i s.latch.ops).write, Expect.unobservedClear s q.start q.len) :
    exec i s = .next { Expect.succeeded i s e.rc with
      mem := writeCells s.mem e.writes
      result := e.result.getD s.result
      ops := { s.ops with scale := e.scale.getD s.ops.scale } } := by
  rw [exec_of_ok hc (coversWindow_of_clear hw), succeededState_kept hb fun q hq => touchedLaunches_of_clear (hun q hq), he,
    completeOk_eq_succeeded (dutyBroken_of_kept i hb)]

/-- Such a command, when it writes no register, changes the flags and the record, and in memory what its effect writes. -/
theorem exec_of_kept_memory {i : Instr} {s : State} {e : Effect} (he : effectOf i s.latch.ops s.mem = e)
    (hres : e.result = none) (hscale : e.scale = none) (hc : checkCode i s.params.memBytes s.latch.ops = .ok)
    (hw : ∀ q ∈ (footprint i s.latch.ops).all, Expect.clear s q.start q.len) (hb : s.breached = false)
    (hun : ∀ q ∈ (footprint i s.latch.ops).write, Expect.unobservedClear s q.start q.len) :
    ∃ t, exec i s = .next t ∧ t = { Expect.succeeded i s t.status.rcode with mem := t.mem } ∧
      t.status.rcode = e.rc ∧ t.mem = writeCells s.mem e.writes := by
  refine ⟨_, exec_of_kept he hc hw hb hun, ?_, rfl, rfl⟩
  rw [hres, hscale]
  rfl

/-! ### Codes -/

/-- `byte_off(idx)` as the statements write it (R106). -/
theorem byteOff_eq (idx : Nat) : byteOff idx = 32 * (idx / 128) + idx % 32 := by
  unfold byteOff
  omega

theorem code_eq_three_iff {k : Code} : k = 3#2 ↔ k.toNat = 3 := BitVec.toNat_inj.symm

/-- A code zero-extended is its number (R135, R140). -/
theorem zero_append_code (n : Nat) (k : Code) : 0#n ++ k = BitVec.ofNat (n + 2) k.toNat := by
  refine BitVec.eq_of_toNat_eq ?_
  have hk : k.toNat < 2 ^ (n + 2) := k.isLt.trans_le (Nat.pow_le_pow_right (by decide) (by omega))
  simp [BitVec.toNat_append, Nat.mod_eq_of_lt hk]

/-- The shift and mask take the bit pair of the group (R107). -/
theorem codeIn_eq_extractLsb' (b : Byte) (g : Nat) : codeIn b g = b.extractLsb' (6 - 2 * g) 2 := by
  refine BitVec.eq_of_toNat_eq ?_
  simp [codeIn]

/-- Settles O47: the table lists the four bit pairs. -/
theorem decodeTableHoldsTheBitPairs : Obligations.DecodeTableHoldsTheBitPairs := by
  refine fun b g hg => ⟨?_, codeIn_eq_extractLsb' b g, codeIn_toNat b g⟩
  match g, hg with
  | 0, _ | 1, _ | 2, _ | 3, _ => rfl

/-! ### NOP -/

theorem dutyBroken_nop (s : State) : dutyBroken .nop s = false := by
  simp [dutyBroken, footprint, Footprint.all]

/-- NOP succeeds in every state, with no effect (R132). -/
theorem exec_nop (s : State) : exec .nop s = .next (Expect.succeeded .nop s false) := by
  have hw : (footprint .nop s.latch.ops).coversWindow s.params = false := rfl
  rw [exec_of_ok (checkCode_nop ..) hw, succeededState, breakEarlier_nop, effectDue_nop,
    completeOk_eq_succeeded (dutyBroken_nop s)]
  rfl

/-- Right after reset the operands are 0, which fails the dimension check of every command but NOP (R224). -/
theorem dimensionOk_reset {i : Instr} (hi : i ≠ .nop) : ¬ dimensionOk i State.reset.latch.ops = true := by
  cases i
  case nop => contradiction
  all_goals decide

/-- Settles O23: NOP passes every check and has no effect, and every other command fails its dimension check from reset. -/
theorem nopCompletesWithNoEffect : Obligations.NopCompletesWithNoEffect := by
  have hreset := (fetchedWordRunsNext State.reset .nop).trans (exec_nop _)
  refine ⟨decodeWord_encode .nop, fun s => ⟨exec_nop s, Bool.and_true s.ie⟩, ⟨_, hreset, rfl⟩, fun i hi => ?_⟩
  exact ⟨State.reset, _, exec_invalidDimension (dimensionOk_reset hi), by simp [Expect.failed]⟩

/-! ### LOCATE -/

theorem dimensionOk_locate {o : Operands} :
    dimensionOk .locate o = true ↔ 32 * (o.idx / 128) + o.idx % 32 < o.packedLen.toNat := by
  simp [dimensionOk, byteOff_eq]

theorem all_locate (o : Operands) : (footprint .locate o).all = [⟨o.pa + (32 * (o.idx / 128) + o.idx % 32), 1⟩] := by
  rw [← byteOff_eq]
  rfl

theorem fits_locate {n : Nat} {o : Operands} :
    (footprint .locate o).fits n = true ↔ o.pa + (32 * (o.idx / 128) + o.idx % 32) + 1 ≤ n := by
  rw [Footprint.fits_iff, all_locate, List.forall_mem_singleton]

/-- LOCATE's code is `(b >> (6 - 2*g)) & 3` of its byte (R107, R135). -/
theorem locateCode_toNat (o : Operands) (m : Memory) : (locateCode o m).toNat =
    Expect.codeBits (readByte m (o.pa + (32 * (o.idx / 128) + o.idx % 32))) (o.idx % 128 / 32) := by
  rw [← byteOff_eq]
  exact codeIn_toNat ..

theorem effectOf_locate {o : Operands} {m : Memory} {k : Nat} (hk : (locateCode o m).toNat = k) :
    effectOf .locate o m =
      { rc := decide (k = 3), writes := [], result := some (BitVec.ofNat 32 k), scale := none } := by
  subst hk
  simp only [effectOf, effectLocate, zero_append_code, ← code_eq_three_iff]
  rfl

/-- Settles O24: the byte of the index is LOCATE's one region, and the code in it its effect. -/
theorem locateExecutesAsItsRule : Obligations.LocateExecutesAsItsRule := by
  refine ⟨decodeWord_encode .locate, fun s => ⟨fun hd => ?_, fun hd hf => ?_, fun hd hf hw hb => ?_⟩⟩
  · exact exec_invalidDimension (mt dimensionOk_locate.1 hd)
  · exact exec_accessFault (dimensionOk_locate.2 hd) rfl (mt fits_locate.1 hf.not_ge)
  · refine exec_of_kept (effectOf_locate (locateCode_toNat ..))
      (checkCode_eq_ok.2 ⟨dimensionOk_locate.2 hd, rfl, fits_locate.2 hf, rfl⟩) ?_ hb (fun q hq => nomatch hq)
    rw [all_locate, List.forall_mem_singleton]
    exact hw

/-! ### LDSCALE -/

/-- `N` is the product of the dimensions once these are positive (R108, R112). -/
theorem elems_eq_count {s : State} (hr : 0 < Expect.rows s) (hc : 0 < Expect.cols s) :
    s.latch.ops.elems = Expect.count s :=
  (Int.toNat_mul hr.le hc.le).symm

theorem dimensionOk_ldscale {s : State} : dimensionOk .ldscale s.latch.ops = true ↔
    0 < Expect.rows s ∧ 0 < Expect.cols s ∧ Expect.packedLen (Expect.count s) + 4 ≤ s.latch.ops.packedLen.toNat := by
  rw [dimensionOk, Bool.and_eq_true, Operands.dimsPositive, decide_eq_true_iff, decide_eq_true_iff, and_assoc]
  refine and_congr_right fun hr => and_congr_right fun hc => ?_
  rw [elems_eq_count hr hc]
  rfl

section Ldscale

variable {s : State} (hn : s.latch.ops.elems = Expect.count s)
include hn

theorem all_ldscale :
    (footprint .ldscale s.latch.ops).all = [⟨Expect.pa s + Expect.packedLen (Expect.count s), 4⟩] := by
  rw [← hn]
  rfl

theorem fits_ldscale {n : Nat} : (footprint .ldscale s.latch.ops).fits n = true ↔
    Expect.pa s + Expect.packedLen (Expect.count s) + 4 ≤ n := by
  rw [Footprint.fits_iff, all_ldscale hn, List.forall_mem_singleton]

theorem effectOf_ldscale : effectOf .ldscale s.latch.ops s.mem =
    { rc := false, writes := [], result := none
      scale := some (readWord s.mem (Expect.pa s + Expect.packedLen (Expect.count s))) } := by
  rw [← hn]
  rfl

end Ldscale

/-- Settles O26: the four bytes behind the packed codes are LDSCALE's one region, and their word its effect. -/
theorem ldscaleExecutesAsItsRule : Obligations.LdscaleExecutesAsItsRule := by
  refine ⟨decodeWord_encode .ldscale, fun s => ⟨fun hd => ?_, fun hd hf => ?_, fun hd hf hw hb => ?_⟩⟩
  · exact exec_invalidDimension (mt dimensionOk_ldscale.1 hd)
  · have hn := elems_eq_count hd.1 hd.2.1
    exact exec_accessFault (dimensionOk_ldscale.2 hd) rfl (mt (fits_ldscale hn).1 hf.not_ge)
  · have hn := elems_eq_count hd.1 hd.2.1
    refine exec_of_kept (effectOf_ldscale hn)
      (checkCode_eq_ok.2 ⟨dimensionOk_ldscale.2 hd, rfl, (fits_ldscale hn).2 hf, rfl⟩) ?_ hb (fun q hq => nomatch hq)
    rw [all_ldscale hn, List.forall_mem_singleton]
    exact hw

/-! ### UNPACK -/

theorem dimensionOk_unpack {o : Operands} :
    dimensionOk .unpack o = true ↔ 32 * o.idx + 32 ≤ o.packedLen.toNat ∧ o.dstLen.toNat = 128 := by
  simp [dimensionOk]

theorem forall_mem_all_unpack {o : Operands} {p : Region → Prop} :
    (∀ q ∈ (footprint .unpack o).all, p q) ↔ p ⟨o.pa + 32 * o.idx, 32⟩ ∧ p ⟨o.da, 128⟩ := by
  simp [footprint, Footprint.all, and_comm]

theorem fits_unpack {o : Operands} {n : Nat} :
    (footprint .unpack o).fits n = true ↔ o.pa + 32 * o.idx + 32 ≤ n ∧ o.da + 128 ≤ n := by
  rw [Footprint.fits_iff, forall_mem_all_unpack]

theorem selfOverlaps_unpack {o : Operands} :
    (footprint .unpack o).selfOverlaps = true ↔ Expect.overlap o.da 128 (o.pa + 32 * o.idx) 32 := by
  simp [Footprint.selfOverlaps_iff, footprint]

theorem unpackCode_toNat (o : Operands) (m : Memory) (j : Nat) :
    (unpackCode o m j).toNat = Expect.codeBits (readByte m (o.pa + 32 * o.idx + j % 32)) (j / 32) :=
  codeIn_toNat ..

theorem effectUnpack_rc {o : Operands} {m : Memory} : (effectUnpack o m).rc = true ↔
    ∃ j, j < 128 ∧ Expect.codeBits (readByte m (o.pa + 32 * o.idx + j % 32)) (j / 32) = 3 := by
  simp only [effectUnpack, List.any_eq_true, List.mem_range, beq_iff_eq, code_eq_three_iff, unpackCode_toNat]

/-- Byte `j` of the output is the number of code `j` (R140). -/
theorem readByte_effectUnpack {o : Operands} {m : Memory} (hm : m.wf = true) {j : Nat} (hj : j < 128) :
    readByte (writeCells m (effectUnpack o m).writes) (o.da + j) =
      BitVec.ofNat 8 (Expect.codeBits (readByte m (o.pa + 32 * o.idx + j % 32)) (j / 32)) := by
  rw [← unpackCode_toNat, ← zero_append_code 6]
  refine readByte_writeCells_mem _ hm ?_ (List.mem_map.2 ⟨j, List.mem_range.2 hj, rfl⟩)
  rw [effectUnpack, List.map_map]
  exact List.nodup_range.map (add_right_injective o.da)

theorem readByte_effectUnpack_other {o : Operands} {m : Memory} {a : Nat} (h : a < o.da ∨ o.da + 128 ≤ a) :
    readByte (writeCells m (effectUnpack o m).writes) a = readByte m a := by
  refine readByte_writeCells_other _ fun c hc he => ?_
  obtain ⟨q, hq, hcov⟩ := effectOf_writes_inside (i := .unpack) hc
  cases hq
  simp only [he, Region.covers_iff] at hcov
  omega

/-- Settles O25: a failed check names the code, and on success the 128 codes are the bytes of the write region. -/
theorem unpackExecutesAsItsRule : Obligations.UnpackExecutesAsItsRule := by
  refine ⟨decodeWord_encode .unpack, fun s =>
    ⟨fun hd => ?_, fun hd hf => ?_, fun hd hf ho => ?_, fun hd hf ho hblk hdst hb hun hm => ?_⟩⟩
  · exact exec_invalidDimension (mt dimensionOk_unpack.1 hd)
  · exact exec_accessFault (dimensionOk_unpack.2 hd) rfl (mt fits_unpack.1 hf)
  · exact exec_overlap (dimensionOk_unpack.2 hd) rfl (fits_unpack.2 hf) (selfOverlaps_unpack.2 ho)
  · have hok : checkCode .unpack s.params.memBytes s.latch.ops = .ok :=
      checkCode_eq_ok.2 ⟨dimensionOk_unpack.2 hd, rfl, fits_unpack.2 hf,
        Bool.eq_false_iff.2 (mt selfOverlaps_unpack.1 ho)⟩
    have hwrite : ∀ q ∈ (footprint .unpack s.latch.ops).write, Expect.unobservedClear s q.start q.len := by
      rintro q ⟨⟩
      exact hun
    obtain ⟨t, hexec, hframe, hrc, hmem⟩ :=
      exec_of_kept_memory rfl rfl rfl hok (forall_mem_all_unpack.2 ⟨hblk, hdst⟩) hb hwrite
    refine ⟨t, hexec, hframe, ?_, fun j hj => ?_, fun a ha => ?_⟩
    · rw [hrc]
      exact effectUnpack_rc
    · rw [hmem]
      exact readByte_effectUnpack hm hj
    · rw [hmem]
      exact readByte_effectUnpack_other ha

end Sys2Proof.Machine
end

section
/-! PROOFS of the statements of spec/41_float_matvec.md: the ternary contributions (O52), the running sum of MATVEC (O53,
O54), and the commands MATVEC (O27) and MATVEC_T (O28). -/

namespace Sys2Proof.Machine

/-! ### Ternary contributions -/

theorem isNaN_or_isInf_or_isFinite (x : Word) : isNaN x = true ∨ isInf x = true ∨ isFinite x = true := by
  rw [isFinite_iff]
  cases isNaN x <;> cases isInf x <;> simp

/-- A pattern with the other sign differs in bit 31 alone. -/
theorem fPack_not_fSign (x : Word) : fPack (!fSign x) (fExp x * 2 ^ 23 + fFrac x) = x ^^^ 0x80000000#32 := by
  have hs : fSign (x ^^^ 0x80000000#32) = !fSign x := by
    simp [fSign, BitVec.msb_xor, (by decide : (0x80000000#32).msb = true)]
  have he : fExp (x ^^^ 0x80000000#32) = fExp x := by simp [fExp, BitVec.extractLsb'_xor]
  have hf : fFrac (x ^^^ 0x80000000#32) = fFrac x := by simp [fFrac, BitVec.extractLsb'_xor]
  rw [← hs, ← he, ← hf, fPack_fields]

/-- The zero of a pattern's sign is the pattern's bit 31. -/
theorem fPack_fSign_zero (x : Word) : fPack (fSign x) 0 = x &&& 0x80000000#32 := by
  have hs : fSign (x &&& 0x80000000#32) = fSign x := by
    simp [fSign, BitVec.msb_and, (by decide : (0x80000000#32).msb = true)]
  have hz : feq0 (x &&& 0x80000000#32) = true := by simp [feq0, fExp, fFrac, BitVec.extractLsb'_and]
  rw [eq_fPack_of_feq0 hz, hs]

/-- The code 2 keeps its input, and the code 0 turns its sign (R161). -/
theorem contrib_of_unit_code {x : Word} (hx : isNaN x = false) :
    contrib 2#2 x = x ∧ contrib 0#2 x = x ^^^ 0x80000000#32 := by
  have hpos : fSign 0x3F800000#32 = false := by decide
  have hneg : fSign 0xBF800000#32 = true := by decide
  simp only [contrib, codeMap_two, codeMap_zero]
  rw [fmul_one (by decide) (by decide) hx, fmul_one (by decide) (by decide) hx, hpos, hneg, Bool.false_bne, Bool.true_bne]
  exact ⟨fPack_fields x, fPack_not_fSign x⟩

/-- The codes 1 and 3 stand for the weight +0.0 (R105). -/
theorem contrib_of_zero_code (x : Word) : contrib 1#2 x = fmul 0#32 x ∧ contrib 3#2 x = fmul 0#32 x := by
  simp only [contrib, codeMap_one, codeMap_three, and_self]

/-- Settles O52: a column of the table for each weight, a row for each class of the input. -/
theorem contributionTableHolds : Obligations.ContributionTableHolds := by
  intro x
  obtain ⟨hone, hthree⟩ := contrib_of_zero_code x
  rw [hone, hthree]
  refine ⟨contrib_of_unit_code, fun hx => ?_, fun hx => ?_, fun hx k => (primitives_of_isNaN (.inr hx)).2.1⟩
  · rw [fmul_zero_finite hx, fPack_fSign_zero]
    exact ⟨rfl, rfl⟩
  · have hmul : fmul 0#32 x = canonicalNaN := (fmul_of_isInf_feq0 hx (by decide)).2
    exact ⟨hmul, hmul⟩

/-! ### The running sum -/

/-- What a running sum from +0.0 can be: any pattern but -0.0 and a NaN that is not the canonical one. -/
def IsRunningSum (x : Word) : Prop := x ≠ 0x80000000#32 ∧ (isNaN x = true → x = canonicalNaN)

theorem isRunningSum_zero : IsRunningSum 0x00000000#32 := ⟨by decide, fun h => absurd h (by decide)⟩

theorem isRunningSum_canonicalNaN : IsRunningSum canonicalNaN := ⟨by decide, fun _ => rfl⟩

theorem isRunningSum_of_isInf {x : Word} (h : isInf x = true) : IsRunningSum x := by
  refine ⟨?_, fun hn => absurd hn (by simp [isNaN_of_isInf h])⟩
  rintro rfl
  exact absurd h (by decide)

/-- A whole number of units, not 0, rounds to no zero. -/
theorem feq0_roundFloat {s : Bool} {n : Nat} (hn : n ≠ 0) : feq0 (roundFloat s n 1) = false := by
  by_contra h
  have hz : feq0 (roundFloat s n 1) = true := by simpa using h
  have hmant : 0 < mantissa n 1 := by
    by_cases hulp : ulpExp n 1 = 0
    · exact le_roundDiv (ulp_pos n one_pos) (by rw [hulp]; omega)
    · exact (by decide : 0 < 2 ^ 23).trans_le (le_mantissa one_pos hulp)
  have hmag := fMag_roundFloat one_pos (isFinite_of_feq0 hz)
  rw [fMag_eq_zero.2 hz] at hmag
  exact absurd hmag (by positivity)

theorem isRunningSum_roundFloat {s : Bool} {n : Nat} (hn : n ≠ 0) : IsRunningSum (roundFloat s n 1) := by
  refine ⟨fun h => ?_, fun h => absurd h (by simp [isNaN_roundFloat])⟩
  have hz := (eq_negZero_iff.1 h).2
  exact absurd hz (by simp [feq0_roundFloat hn])

/-- A sum is -0.0 only when both addends are (R162). -/
theorem isRunningSum_fadd {a : Word} (ha : a ≠ 0x80000000#32) (b : Word) : IsRunningSum (fadd a b) := by
  rcases isNaN_or_isInf_or_isFinite a with han | hai | haf
  · rw [(primitives_of_isNaN (.inl han)).1]
    exact isRunningSum_canonicalNaN
  · rcases isNaN_or_isInf_or_isFinite b with hbn | hbi | hbf
    · rw [(primitives_of_isNaN (.inr hbn)).1]
      exact isRunningSum_canonicalNaN
    · rw [(fadd_fdiv_of_isInf_isInf hai hbi).1]
      split
      · exact isRunningSum_of_isInf hai
      · exact isRunningSum_canonicalNaN
    · rw [(fadd_fdiv_of_isInf_isFinite hai hbf).1]
      exact isRunningSum_of_isInf hai
  · rcases isNaN_or_isInf_or_isFinite b with hbn | hbi | hbf
    · rw [(primitives_of_isNaN (.inr hbn)).1]
      exact isRunningSum_canonicalNaN
    · rw [(fadd_fdiv_of_isInf_isFinite hbi haf).2.1]
      exact isRunningSum_of_isInf hbi
    · by_cases hv : fVal a + fVal b = 0
      · rw [fadd_of_fVal_add_eq_zero haf hbf hv, if_neg fun h => ha h.1]
        exact isRunningSum_zero
      · rw [fadd_of_isFinite haf hbf hv]
        exact isRunningSum_roundFloat (Int.natAbs_ne_zero.2 hv)

theorem isRunningSum_floatSum (n : Nat) (code : Nat → Code) (x : Nat → Word) : IsRunningSum (floatSum n code x) :=
  List.foldlRecOn _ _ isRunningSum_zero fun _ hacc _ _ => isRunningSum_fadd hacc.1 _

/-- Settles O53: every row is a running sum. -/
theorem matvecNeverWritesNegativeZero : Obligations.MatvecNeverWritesNegativeZero := fun _ _ _ =>
  (isRunningSum_floatSum ..).1

/-! ### Skipping a zero -/

theorem fVal_of_feq0 {z : Word} (hz : feq0 z = true) : fVal z = 0 := by
  simp [fVal, fMag_eq_zero.2 hz]

/-- A finite pattern that is not zero is its own value rounded. -/
theorem roundFloat_fVal {a : Word} (ha : isFinite a = true) (h0 : fVal a ≠ 0) :
    roundFloat (decide (fVal a < 0)) (fVal a).natAbs 1 = a := by
  have hs : decide (fVal a < 0) = fSign a := by
    unfold fVal at h0 ⊢
    split_ifs at h0 ⊢ with hsign
    · simp only [hsign, decide_eq_true_eq]
      omega
    · simp only [hsign, decide_eq_false_iff_not]
      omega
  have hm : (fVal a).natAbs = fMag a * 1 := by
    unfold fVal
    split <;> omega
  rw [hs, hm, roundFloat_fMag ha _ one_pos, fPack_fields]

/-- Adding a zero to a running sum changes no bit of it (R163). -/
theorem fadd_of_feq0 {a z : Word} (ha : IsRunningSum a) (hz : feq0 z = true) : fadd a z = a := by
  obtain ⟨hne, hcanon⟩ := ha
  have hzf := isFinite_of_feq0 hz
  rcases isNaN_or_isInf_or_isFinite a with han | hai | haf
  · rw [(primitives_of_isNaN (.inl han)).1, hcanon han]
  · exact (fadd_fdiv_of_isInf_isFinite hai hzf).1
  · have hv : fVal a + fVal z = fVal a := by rw [fVal_of_feq0 hz, add_zero]
    by_cases h0 : fVal a = 0
    · have hazero : feq0 a = true := fMag_eq_zero.1 (by unfold fVal at h0; split at h0 <;> omega)
      rw [fadd_of_fVal_add_eq_zero haf hzf (hv.trans h0), if_neg fun h => hne h.1]
      exact ((feq0_iff.1 hazero).resolve_right hne).symm
    · rw [fadd_of_isFinite haf hzf (by rwa [hv]), hv, roundFloat_fVal haf h0]

/-- A finite number by a zero is a zero. -/
theorem feq0_fmul {a b : Word} (ha : isFinite a = true) (hb : feq0 b = true) : feq0 (fmul a b) = true := by
  rw [fmul_of_isFinite ha (isFinite_of_feq0 hb), fMag_eq_zero.2 hb, Nat.mul_zero]
  cases fSign a != fSign b <;> decide

theorem isFinite_codeMap (k : Code) : isFinite (codeMap k) = true := by
  revert k
  decide

/-- The addends left out of a running sum are zeros, so the sum is the same. -/
theorem foldl_fadd_filter {f : Nat → Word} {p : Nat → Bool} (hskip : ∀ j, p j = false → feq0 (f j) = true)
    (js : List Nat) : ∀ {acc : Word}, IsRunningSum acc →
      js.foldl (fun acc j => fadd acc (f j)) acc = (js.filter p).foldl (fun acc j => fadd acc (f j)) acc := by
  induction js with
  | nil => exact fun _ => rfl
  | cons j js ih =>
    intro acc hacc
    cases hp : p j with
    | true =>
      rw [List.filter_cons_of_pos hp]
      exact ih (isRunningSum_fadd hacc.1 _)
    | false =>
      rw [List.filter_cons_of_neg (by simp [hp]), List.foldl_cons, fadd_of_feq0 hacc (hskip j hp)]
      exact ih hacc

/-- Settles O54: the column's contribution is a zero, and a scale that is no number or infinite gives NaN. -/
theorem zeroInputColumnIsSkippable : Obligations.ZeroInputColumnIsSkippable := by
  refine fun o m r c hzero => ⟨fun hscale => foldl_fadd_filter (fun j hj => ?_) _ isRunningSum_zero, fun hscale => ?_⟩
  · obtain rfl : j = c := by simpa using hj
    exact feq0_fmul (isFinite_codeMap _) (feq0_fmul hscale hzero)
  · rcases isNaN_or_isInf_or_isFinite o.scale with hn | hi | hf
    · exact (primitives_of_isNaN (.inl hn)).2.1
    · exact (fmul_of_isInf_feq0 hi hzero).1
    · exact absurd hf (by simp [hscale])

/-! ### The rule of a matvec command -/

/-- The checks of R224 that every matvec command makes, in the words of the statements. -/
theorem matvecDims_iff {s : State} {dst src : Int}
    (hnonneg : 0 < Expect.rows s → 0 < Expect.cols s → 0 ≤ dst ∧ 0 ≤ src) :
    (s.latch.ops.dimsPositive && s.latch.ops.lengthsMatch dst.toNat src.toNat) = true ↔ Expect.dimsHold s dst src := by
  rw [Bool.and_eq_true, Operands.dimsPositive, Operands.lengthsMatch, decide_eq_true_iff, decide_eq_true_iff, and_assoc]
  refine and_congr_right fun hr => and_congr_right fun hc => ?_
  obtain ⟨hdst, hsrc⟩ := hnonneg hr hc
  rw [elems_eq_count hr hc]
  exact and_congr (by omega) (and_congr (by omega) Iff.rfl)

/-- The code at an index is the number the statements read (R106, R107). -/
theorem codeAt_toNat (s : State) (idx : Nat) :
    (codeAt s.mem s.latch.ops.pa idx).toNat = Expect.code s idx := by
  rw [codeAt, codeIn_toNat, byteOff_eq]
  rfl

theorem codeMap_eq_mapBits (k : Code) : codeMap k = Expect.mapBits k.toNat := by
  revert k
  decide

theorem contrib_codeAt (s : State) (idx : Nat) (x : Word) :
    contrib (codeAt s.mem s.latch.ops.pa idx) x = fmul (Expect.mapBits (Expect.code s idx)) x := by
  rw [contrib, codeMap_eq_mapBits, codeAt_toNat]

theorem usesReserved_iff {s : State} (hn : s.latch.ops.elems = Expect.count s) :
    usesReserved s.mem s.latch.ops = true ↔ Expect.reservedUsed s := by
  simp only [usesReserved, List.any_eq_true, List.mem_range, beq_iff_eq, code_eq_three_iff, codeAt_toNat, hn]
  rfl

/-- A matvec command of the model in the words of its rule: its dimension and alignment checks, its regions and its effect. -/
structure MatvecShape (i : Instr) (dst src : State → Int) (srcBytes : State → Nat) (aligned : State → Prop)
    (elem : State → Nat → Word) : Prop where
  dims : ∀ s, dimensionOk i s.latch.ops = true ↔ Expect.dimsHold s (dst s) (src s)
  alignment : ∀ s, alignmentOk i s.latch.ops = true ↔ aligned s
  regions : ∀ s, footprint i s.latch.ops =
    { reads := [⟨Expect.pa s, packedBytes s.latch.ops.elems⟩, ⟨Expect.sa s, srcBytes s⟩]
      write := some ⟨Expect.da s, 4 * (dst s).toNat⟩ }
  effect : ∀ s, effectOf i s.latch.ops s.mem =
    { rc := usesReserved s.mem s.latch.ops, writes := dstCells (Expect.da s) (dst s).toNat (elem s)
      result := none, scale := none }

namespace MatvecShape

variable {i : Instr} {dst src : State → Int} {srcBytes : State → Nat} {aligned : State → Prop} {elem : State → Nat → Word}
  {s : State} (h : MatvecShape i dst src srcBytes aligned elem) (hd : Expect.dimsHold s (dst s) (src s))
include h hd

theorem footprint_eq : footprint i s.latch.ops =
    { reads := [⟨Expect.pa s, Expect.packedLen (Expect.count s)⟩, ⟨Expect.sa s, srcBytes s⟩]
      write := some ⟨Expect.da s, 4 * (dst s).toNat⟩ } := by
  obtain ⟨hr, hc, -⟩ := hd
  rw [h.regions, elems_eq_count hr hc]
  rfl

theorem forall_mem_all {p : Region → Prop} : (∀ q ∈ (footprint i s.latch.ops).all, p q) ↔
    p ⟨Expect.pa s, Expect.packedLen (Expect.count s)⟩ ∧ p ⟨Expect.sa s, srcBytes s⟩ ∧
      p ⟨Expect.da s, 4 * (dst s).toNat⟩ := by
  simp only [h.footprint_eq hd, Footprint.all, Option.toList_some, List.singleton_append, List.forall_mem_cons,
    List.not_mem_nil, false_imp_iff, implies_true, and_true]
  exact and_rotate

theorem fits_iff : (footprint i s.latch.ops).fits s.params.memBytes = true ↔
    Expect.inMemory s (srcBytes s) (dst s).toNat := by
  rw [Footprint.fits_iff, h.forall_mem_all hd]

theorem selfOverlaps_iff : (footprint i s.latch.ops).selfOverlaps = true ↔
    Expect.selfOverlap s (srcBytes s) (dst s).toNat := by
  simp [Footprint.selfOverlaps_iff, h.footprint_eq hd]

/-- A matvec command whose checks pass writes its elements and nothing else. -/
theorem exec_success (ha : aligned s) (hf : Expect.inMemory s (srcBytes s) (dst s).toNat)
    (ho : ¬ Expect.selfOverlap s (srcBytes s) (dst s).toNat) (hw : Expect.allClear s (srcBytes s) (dst s).toNat)
    (hb : s.breached = false) (hun : Expect.unobservedClear s (Expect.da s) (4 * (dst s).toNat)) :
    ∃ t, exec i s = .next t ∧ t = { Expect.succeeded i s t.status.rcode with mem := t.mem } ∧
      t.status.rcode = usesReserved s.mem s.latch.ops ∧
      t.mem = writeCells s.mem (dstCells (Expect.da s) (dst s).toNat (elem s)) := by
  refine exec_of_kept_memory (h.effect s) rfl rfl ?_ ((h.forall_mem_all hd).2 hw) hb ?_
  · exact checkCode_eq_ok.2 ⟨(h.dims s).2 hd, (h.alignment s).2 ha, (h.fits_iff hd).2 hf,
      Bool.eq_false_iff.2 (mt (h.selfOverlaps_iff hd).1 ho)⟩
  · rw [h.footprint_eq hd]
    rintro q ⟨⟩
    exact hun

omit hd

/-- A command of this shape keeps to its rule. -/
theorem matvecRule : Expect.matvecRule i dst src srcBytes aligned elem := by
  refine fun s => ⟨fun hd => ?_, fun hd ha => ?_, fun hd ha hf => ?_, fun hd ha hf ho => ?_,
    fun hd ha hf ho hw hb hun hm => ?_⟩
  · exact exec_invalidDimension (mt (h.dims s).1 hd)
  · exact exec_misaligned ((h.dims s).2 hd) (mt (h.alignment s).1 ha)
  · exact exec_accessFault ((h.dims s).2 hd) ((h.alignment s).2 ha) (mt (h.fits_iff hd).1 hf)
  · exact exec_overlap ((h.dims s).2 hd) ((h.alignment s).2 ha) ((h.fits_iff hd).2 hf) ((h.selfOverlaps_iff hd).2 ho)
  · obtain ⟨t, hexec, hframe, hrc, hmem⟩ := h.exec_success hd ha hf ho hw hb hun
    refine ⟨t, hexec, hframe, ?_, fun k hk => ?_, fun a hout => ?_⟩
    · rw [hrc]
      exact usesReserved_iff (elems_eq_count hd.1 hd.2.1)
    · rw [hmem]
      exact readWord_dstCells hm _ hk
    · rw [hmem]
      refine readByte_writeCells_other _ fun c hc he => ?_
      have := dstCells_inside hc
      omega

end MatvecShape

/-! ### MATVEC and MATVEC_T -/

/-- Settles O27: MATVEC has one output per row and one input per column. -/
theorem matvecExecutesAsItsRule : Obligations.MatvecExecutesAsItsRule := by
  refine ⟨decodeWord_encode .matvec, MatvecShape.matvecRule ⟨fun s => ?_, fun s => ?_, fun s => rfl, fun s => ?_⟩⟩
  · exact matvecDims_iff fun hr hc => ⟨hr.le, hc.le⟩
  · exact decide_eq_true_iff
  · simp only [← contrib_codeAt]
    rfl

/-- Settles O28: MATVEC_T has one output per column and one input per row. -/
theorem matvecTExecutesAsItsRule : Obligations.MatvecTExecutesAsItsRule := by
  refine ⟨decodeWord_encode .matvecT, MatvecShape.matvecRule ⟨fun s => ?_, fun s => ?_, fun s => rfl, fun s => ?_⟩⟩
  · exact matvecDims_iff fun hr hc => ⟨hc.le, hr.le⟩
  · exact decide_eq_true_iff
  · simp only [← contrib_codeAt]
    rfl

end Sys2Proof.Machine
end

section
/-! PROOFS of the statements of spec/42_fused_i8.md: the commands MATVEC_I8 (O29) and MATVEC_T_I8 (O30), the wrapping sum
(O56) and its correction (O57), the zero activation scale (O55), and MATVEC_I8 against MATVEC_T (O58). -/

namespace Sys2Proof.Machine

/-! ### Wrapping -/

/-- The wrapping of R9 as the statements write it. -/
theorem wrap32_eq_wrapped (i : Int) : wrap32 i = Expect.wrapped i := by
  unfold wrap32 Expect.wrapped
  rw [Int.bmod_def]
  split <;> omega

theorem wrap32_natAbs_le (i : Int) : (wrap32 i).natAbs ≤ 2 ^ 31 := by
  rw [wrap32_eq_wrapped]
  unfold Expect.wrapped
  omega

/-- An integer of the int32 range does not wrap. -/
theorem wrap32_of_natAbs_lt {i : Int} (h : i.natAbs < 2 ^ 31) : wrap32 i = i := by
  rw [wrap32_eq_wrapped]
  unfold Expect.wrapped
  omega

/-! ### MATVEC_I8 and MATVEC_T_I8 -/

/-- An output of a fused command is the one the statements compute from the raw codes (R193, R194). -/
theorem rescale_codeAt (s : State) (n : Nat) (idx : Nat → Nat) :
    rescale s.latch.ops (intSum n (fun j => codeAt s.mem s.latch.ops.pa (idx j)) (qvecElem s.mem s.latch.ops.sa)) =
      Expect.fused s n fun j => Expect.code s (idx j) := by
  simp only [rescale, intSum, codeAt_toNat, wrap32_eq_wrapped]
  rfl

/-- Settles O29: MATVEC_I8 has one output per column and one input byte per row. -/
theorem matvecI8ExecutesAsItsRule : Obligations.MatvecI8ExecutesAsItsRule := by
  refine ⟨decodeWord_encode .matvecI8, MatvecShape.matvecRule ⟨fun s => ?_, fun s => ?_, fun s => rfl, fun s => ?_⟩⟩
  · exact matvecDims_iff fun hr hc => ⟨hc.le, hr.le⟩
  · exact decide_eq_true_iff
  · simp only [← rescale_codeAt]
    rfl

/-- Settles O30: MATVEC_T_I8 has one output per row and one input byte per column. -/
theorem matvecTI8ExecutesAsItsRule : Obligations.MatvecTI8ExecutesAsItsRule := by
  refine ⟨decodeWord_encode .matvecTI8, MatvecShape.matvecRule ⟨fun s => ?_, fun s => ?_, fun s => rfl, fun s => ?_⟩⟩
  · exact matvecDims_iff fun hr hc => ⟨hr.le, hc.le⟩
  · exact decide_eq_true_iff
  · simp only [← rescale_codeAt]
    rfl

/-! ### Products -/

theorem fmul_comm (a b : Word) : fmul a b = fmul b a := by
  simp only [fmul, bne_comm (a := fSign a), Bool.or_comm (isNaN a), Bool.or_comm (isInf a), Bool.or_comm (feq0 a),
    Nat.mul_comm (fMag a)]

/-! ### The zero activation scale -/

/-- An int32 converts to a finite number: its magnitude is far below the overflow threshold. -/
theorem isFinite_i2f_wrap32 (i : Int) : isFinite (i2f (wrap32 i)) = true := by
  have hle := wrap32_natAbs_le i
  exact (isFinite_roundFloat_iff_lt _ _ one_pos).2 (by omega)

/-- The product of a converted int32 and +0.0 is the zero of the integer's sign (R192). -/
theorem fmul_i2f_wrap32_zero (i : Int) :
    fmul (i2f (wrap32 i)) 0x00000000#32 = if 0 ≤ wrap32 i then 0x00000000#32 else 0x80000000#32 := by
  rw [fmul_comm, fmul_zero_finite (isFinite_i2f_wrap32 i), i2f, fSign_roundFloat]
  by_cases h : wrap32 i < 0
  · rw [if_neg (by omega), decide_eq_true h]
    rfl
  · rw [if_pos (by omega), decide_eq_false h]
    rfl

theorem scaleFactor_of_feq0 {a : Word} (ws : Word) (h : feq0 a = true) : scaleFactor ws a = 0x00000000#32 := if_pos h

/-- A fused output under the factor +0.0 (R192). -/
theorem rescale_of_feq0 {o : Operands} (h : feq0 o.actScale = true) (sum : Int) :
    rescale o sum = if 0 ≤ wrap32 (sum - o.actSum.toInt) then 0x00000000#32 else 0x80000000#32 := by
  rw [rescale, scaleFactor_of_feq0 _ h, fmul_i2f_wrap32_zero]

/-- Settles O55: a fused output is a rescaled sum, and the factor is +0.0. -/
theorem zeroActScaleGivesSignedZero : Obligations.ZeroActScaleGivesSignedZero := fun _ _ _ h =>
  ⟨scaleFactor_of_feq0 _ h, rescale_of_feq0 h _, rescale_of_feq0 h _⟩

/-! ### The integer sum -/

/-- The exact sum of the raw-code terms, which `intSum` keeps modulo `2 ^ 32` (R193). -/
def rawSum (n : Nat) (code : Nat → Code) (q : Nat → Int) : Int :=
  ((List.range n).map fun j => ((code j).toNat : Int) * q j).sum

/-- A running sum wrapped at each term is the exact sum wrapped once. -/
theorem foldl_wrap32 (f : Nat → Int) (js : List Nat) : ∀ acc : Int,
    js.foldl (fun acc j => wrap32 (acc + f j)) (wrap32 acc) = wrap32 (acc + (js.map f).sum) := by
  induction js with
  | nil => simp
  | cons j js ih =>
    intro acc
    have hstep : wrap32 (wrap32 acc + f j) = wrap32 (acc + f j) := Int.bmod_add_bmod
    rw [List.foldl_cons, hstep, ih, List.map_cons, List.sum_cons, add_assoc]

theorem foldl_wrap32_zero (f : Nat → Int) (js : List Nat) :
    js.foldl (fun acc j => wrap32 (acc + f j)) 0 = wrap32 (js.map f).sum := by
  have h := foldl_wrap32 f js 0
  rwa [zero_add] at h

theorem intSum_eq_wrap32 (n : Nat) (code : Nat → Code) (q : Nat → Int) :
    intSum n code q = wrap32 (rawSum n code q) :=
  foldl_wrap32_zero ..

/-- A sum of `n` terms of magnitude at most `b`. -/
theorem natAbs_sum_range_le {f : Nat → Int} {b n : Nat} (h : ∀ j < n, (f j).natAbs ≤ b) :
    ((List.range n).map f).sum.natAbs ≤ n * b := by
  induction n with
  | zero => simp
  | succ n ih =>
    have hinit := ih fun j hj => h j (Nat.lt_succ_of_lt hj)
    have hlast := h n n.lt_succ_self
    rw [List.sum_range_succ, Nat.succ_mul]
    omega

theorem natAbs_rawTerm_le (k : Code) {x : Int} (hx : -128 ≤ x ∧ x ≤ 127) : ((k.toNat : Int) * x).natAbs ≤ 384 := by
  rw [Int.natAbs_mul, Int.natAbs_natCast]
  exact Nat.mul_le_mul (Nat.le_of_lt_succ k.isLt) (by omega : x.natAbs ≤ 128)

/-- Settles O56: the sum is the exact one wrapped once, an exact sum has no order, and 5,592,405 terms of magnitude at most
384 stay below `2 ^ 31`. -/
theorem integerSumIsOrderFree : Obligations.IntegerSumIsOrderFree := by
  refine fun n code q => ⟨intSum_eq_wrap32 n code q, fun js hjs => ?_, fun hn hq => ?_⟩
  · rw [foldl_wrap32_zero, (hjs.map _).sum_eq]
    exact (intSum_eq_wrap32 n code q).symm
  · have hle : (rawSum n code q).natAbs ≤ n * 384 := natAbs_sum_range_le fun j hj => natAbs_rawTerm_le (code j) (hq j hj)
    rw [intSum_eq_wrap32, wrap32_of_natAbs_lt (by omega)]
    rfl

/-! ### The zero-point correction -/

/-- The ternary value of a code (R105). -/
def ternary (k : Code) : Int := if k = 0#2 then -1 else if k = 2#2 then 1 else 0

/-- The ternary dot product of R190. -/
def ternaryDot (n : Nat) (code : Nat → Code) (q : Nat → Int) : Int :=
  ((List.range n).map fun j => ternary (code j) * q j).sum

/-- A raw code other than 3 is its ternary value plus one (R190). -/
theorem toNat_eq_ternary_add_one {k : Code} (hk : k ≠ 3#2) : (k.toNat : Int) = ternary k + 1 := by
  revert k
  decide

theorem natAbs_ternary_le (k : Code) : (ternary k).natAbs ≤ 1 := by
  revert k
  decide

/-- "`Σ(code_r−1)·q_r = Σcode_r·q_r − Σq_r`" (R190). -/
theorem rawSum_sub_sum {n : Nat} {code : Nat → Code} (q : Nat → Int) (hcode : ∀ j < n, code j ≠ 3#2) :
    rawSum n code q - ((List.range n).map q).sum = ternaryDot n code q := by
  have hterm : ∀ j ∈ List.range n, ((code j).toNat : Int) * q j = ternary (code j) * q j + q j := fun j hj => by
    rw [toNat_eq_ternary_add_one (hcode j (List.mem_range.1 hj)), add_one_mul]
  rw [rawSum, List.map_congr_left hterm, List.sum_map_add, add_sub_cancel_right]
  rfl

theorem natAbs_ternaryDot_le {n : Nat} (code : Nat → Code) {q : Nat → Int} (hq : ∀ j < n, -128 ≤ q j ∧ q j ≤ 127) :
    (ternaryDot n code q).natAbs ≤ n * 128 := by
  refine natAbs_sum_range_le fun j hj => ?_
  have hx := hq j hj
  rw [Int.natAbs_mul]
  exact Nat.mul_le_mul (natAbs_ternary_le (code j)) (by omega : (q j).natAbs ≤ 128)

/-- Settles O57: the correction takes the one that each raw code is above its ternary value, and the dot product of
5,592,405 terms does not wrap. -/
theorem correctionRestoresTheTernaryDot : Obligations.CorrectionRestoresTheTernaryDot := by
  intro n code q hn hq hcode
  have hle := natAbs_ternaryDot_le code hq
  have hsub : wrap32 (wrap32 (rawSum n code q) - ((List.range n).map q).sum) =
      wrap32 (rawSum n code q - ((List.range n).map q).sum) := Int.bmod_sub_bmod
  rw [intSum_eq_wrap32, hsub, rawSum_sub_sum q hcode, wrap32_of_natAbs_lt (by omega)]
  rfl

/-! ### The float sum of small integers -/

theorem floatSum_succ (n : Nat) (code : Nat → Code) (x : Nat → Word) :
    floatSum (n + 1) code x = fadd (floatSum n code x) (contrib (code n) (x n)) := by
  simp only [floatSum, List.range_succ, List.foldl_append, List.foldl_cons, List.foldl_nil]

/-- Turning the sign of a finite number turns its value. -/
theorem fVal_xor_sign {x : Word} (hx : isFinite x = true) :
    isFinite (x ^^^ 0x80000000#32) = true ∧ fVal (x ^^^ 0x80000000#32) = -fVal x := by
  have hexp := fExp_lt x
  have hfrac := fFrac_lt x
  have hlow : fExp x * 2 ^ 23 + fFrac x < 2 ^ 31 := by omega
  have he : fExp (x ^^^ 0x80000000#32) = fExp x := by
    rw [← fPack_not_fSign, fExp_fPack hlow]
    omega
  have hf : fFrac (x ^^^ 0x80000000#32) = fFrac x := by
    rw [← fPack_not_fSign, fFrac_fPack hlow]
    omega
  have hs : fSign (x ^^^ 0x80000000#32) = !fSign x := by rw [← fPack_not_fSign, fSign_fPack hlow]
  constructor
  · rw [isFinite, he]
    exact hx
  · rw [fVal, fVal, fMag, he, hf, hs, ← fMag]
    cases fSign x <;> simp

/-- The contribution of a finite input has the value of the ternary product (R161). -/
theorem fVal_contrib (k : Code) {x : Word} (hx : isFinite x = true) :
    isFinite (contrib k x) = true ∧ fVal (contrib k x) = ternary k * fVal x := by
  obtain ⟨hone, hthree⟩ := contrib_of_zero_code x
  obtain ⟨htwo, hzero⟩ := contrib_of_unit_code (isFinite_iff.1 hx).1
  have hz : feq0 (fmul 0#32 x) = true := by
    rw [fmul_comm]
    exact feq0_fmul hx (by decide)
  match k with
  | 0#2 =>
    rw [hzero, (by decide : ternary 0#2 = -1), neg_one_mul]
    exact fVal_xor_sign hx
  | 1#2 =>
    rw [hone, fVal_of_feq0 hz, (by decide : ternary 1#2 = 0), zero_mul]
    exact ⟨isFinite_of_feq0 hz, rfl⟩
  | 2#2 =>
    rw [htwo, (by decide : ternary 2#2 = 1), one_mul]
    exact ⟨hx, rfl⟩
  | 3#2 =>
    rw [hthree, fVal_of_feq0 hz, (by decide : ternary 3#2 = 0), zero_mul]
    exact ⟨isFinite_of_feq0 hz, rfl⟩

theorem i2f_zero : i2f 0 = 0x00000000#32 := by decide

/-- A converted integer is never -0.0: only 0 converts to a zero, the positive one. -/
theorem i2f_ne_negZero (i : Int) : i2f i ≠ 0x80000000#32 := by
  by_cases h : i = 0
  · subst h
    decide
  · refine (isRunningSum_roundFloat ?_).1
    exact Nat.mul_ne_zero (Int.natAbs_ne_zero.2 h) (by positivity)

/-- Adding to an exact integer a number of an integer's value gives the integer sum, -0.0 counting as 0. -/
theorem fadd_i2f {a b : Int} {y : Word} (ha : a.natAbs ≤ 2 ^ 24) (hy : isFinite y = true) (hv : fVal y = b * 2 ^ 149) :
    fadd (i2f a) y = i2f (a + b) := by
  obtain ⟨haf, hav⟩ := fVal_i2f ha
  have hsum : fVal (i2f a) + fVal y = (a + b) * 2 ^ 149 := by rw [hav, hv, add_mul]
  by_cases h0 : a + b = 0
  · rw [fadd_of_fVal_add_eq_zero haf hy (by rw [hsum, h0, zero_mul]), if_neg fun h => i2f_ne_negZero a h.1, h0, i2f_zero]
  · have hneg : decide ((a + b) * 2 ^ 149 < 0) = decide (a + b < 0) := decide_eq_decide.2 (by omega)
    rw [fadd_of_isFinite haf hy (by omega), hsum, hneg, Int.natAbs_mul]
    rfl

/-- The float sum of ternary products of int8 inputs is the converted dot product: up to 131,072 of them every partial sum
stays within `2 ^ 24` (R206). -/
theorem floatSum_i2f {n : Nat} (code : Nat → Code) {q : Nat → Int} (hn : n ≤ 131072)
    (hq : ∀ j < n, -128 ≤ q j ∧ q j ≤ 127) : floatSum n code (fun j => i2f (q j)) = i2f (ternaryDot n code q) := by
  induction n with
  | zero => exact i2f_zero.symm
  | succ n ih =>
    have hinit : ∀ j < n, -128 ≤ q j ∧ q j ≤ 127 := fun j hj => hq j (Nat.lt_succ_of_lt hj)
    have hle := natAbs_ternaryDot_le code hinit
    have hlast := hq n n.lt_succ_self
    obtain ⟨hxf, hxv⟩ := fVal_i2f (i := q n) (by omega)
    obtain ⟨hyf, hyv⟩ := fVal_contrib (code n) hxf
    rw [floatSum_succ, ih (by omega) hinit, fadd_i2f (by omega) hyf (by rw [hyv, hxv, mul_assoc]), ternaryDot, ternaryDot,
      List.sum_range_succ]

theorem qvecElem_int8 (m : Memory) (sa k : Nat) : -128 ≤ qvecElem m sa k ∧ qvecElem m sa k ≤ 127 :=
  ⟨BitVec.le_toInt _, Int.le_of_lt_add_one BitVec.toInt_lt⟩

/-- Settles O58: both columns are the converted dot product times the factor. -/
theorem fusedColumnEqualsFloatColumn : Obligations.FusedColumnEqualsFloatColumn := by
  intro o o' m m' c hrows hle hrow hsum hscale
  choose hcode hsame hvec using hrow
  have hq : ∀ r < o.rowsN, -128 ≤ qvecElem m o.sa r ∧ qvecElem m o.sa r ≤ 127 := fun r _ => qvecElem_int8 ..
  have hfused := correctionRestoresTheTernaryDot o.rowsN (fun r => codeAt m o.pa (r + o.rowsN * c)) (qvecElem m o.sa)
    (by omega) hq hcode
  have hfloat : floatSum o.rowsN (fun r => codeAt m' o'.pa (r + o.rowsN * c)) (vecElem m' o'.sa) =
      floatSum o.rowsN (fun r => codeAt m o.pa (r + o.rowsN * c)) fun r => i2f (qvecElem m o.sa r) :=
    floatSum_congr hsame hvec
  rw [matvecI8Elem, rescale, hsum, hfused, matvecTElem, hrows, hscale, hfloat, floatSum_i2f _ hle hq, fmul_comm]
  rfl

end Sys2Proof.Machine
end

section
/-! PROOFS of the statements of spec/60_exceptions.md: the illegal word (O3), the interrupt (O20), a command that fails
(O31), and the code it completes with (O32). -/

namespace Sys2Proof.Machine

/-! ### The code of a completion -/

/-- A command completes with the code of its checks (R56, R222). -/
theorem exec_ecode {i : Instr} {s t : State} (h : exec i s = .next t) :
    t.status.ecode = checkCode i s.params.memBytes s.latch.ops := by
  obtain ⟨-, rfl⟩ | ⟨hok, -, rfl⟩ := exec_cases h
  · simp
  · simp [hok]

/-- Settles O32: the code is that of the checks, which take the latch and MEM_BYTES only. -/
theorem errorCodeDependsOnTheLatchAlone : Obligations.ErrorCodeDependsOnTheLatchAlone := by
  intro i s s' t t' hops hmem h h'
  rw [exec_ecode h, exec_ecode h', hops, hmem]

/-- Settles O31: a code other than 0 is that of a failed check, and no check takes memory. -/
theorem failedCommandChangesOnlyStatus : Obligations.FailedCommandChangesOnlyStatus := by
  intro i s t h hne
  obtain ⟨hc, rfl⟩ | ⟨-, -, rfl⟩ := exec_cases h
  · rw [completeError_eq_failed]
    exact ⟨rfl, rfl, rfl, rfl, rfl, fun m => exec_of_checkCode (s := { s with mem := m }) rfl hc⟩
  · exact absurd (succeededState_ecode ..) hne

/-! ### The illegal word -/

/-- The engine's turn on a running command whose word is illegal (R103, R223). -/
theorem engineTurn_of_illegal {s : State} {e : DecodeReject} (hb : s.status.busy = true) (hr : s.resetHeld = false)
    (he : decodeWord s.latch.cmd = .error e) : engineTurn s = .next (Expect.failed s .illegalCmd) := by
  simp [engineTurn, engineStep, hb, hr, he, completeError_eq_failed]

/-- Settles O3: the decoder accepts the eight words only, and the code of a word it accepts is that of its checks. -/
theorem illegalWordCompletesWithIllegalCmd : Obligations.IllegalWordCompletesWithIllegalCmd := by
  intro s hb hr
  refine ⟨fun hill => ?_, fun i t hmem h => ?_⟩
  · cases hd : decodeWord s.latch.cmd with
    | ok i => exact absurd ((commandWordSelectsItsCommand _ _).1 hd) (hill i)
    | error e => exact engineTurn_of_illegal hb hr hd
  · rw [engineTurn_of_running hb hr ((commandWordSelectsItsCommand _ _).2 hmem)] at h
    exact exec_ecode h ▸ checkCode_ne_illegal

/-! ### The interrupt -/

theorem irq_iff (s : State) : s.irq = true ↔ s.ie = true ∧ s.status.done = true := Bool.and_eq_true_iff

/-- With the enable clear no interrupt is asserted (R232). -/
theorem irq_of_disabled {s : State} (h : s.ie = false) : s.irq = false := by simp [State.irq, h]

/-- With `DONE` clear no interrupt is asserted (R232). -/
theorem irq_of_not_done {s : State} (h : s.status.done = false) : s.irq = false := by simp [State.irq, h]

/-- With `DONE` set the interrupt follows the enable (R232). -/
theorem irq_of_done {s : State} (h : s.status.done = true) : s.irq = s.ie := by simp [State.irq, h]

theorem exec_ie {i : Instr} {s t : State} (h : exec i s = .next t) : t.ie = s.ie := by
  obtain ⟨-, rfl⟩ | ⟨-, -, rfl⟩ := exec_cases h <;> simp

/-- A host write of `STATUS` with bit 1 set clears `DONE` (R36). -/
theorem hostWrite_done_of_bit {v : Word} (h : v.getLsbD 1 = true) (f : Status) : (f.hostWrite v).done = false := by
  simp [Status.hostWrite, h]

/-- Settles O20: each cause sets or clears `DONE` or the enable. -/
theorem interruptIsEnableAndDone : Obligations.InterruptIsEnableAndDone := by
  intro s
  refine ⟨irq_iff s, fun i t h => ?completion, fun v hv => ?status, fun v hv => ?disable, fun v hb => ?acceptance,
    fun level => irq_of_disabled (resetStep_ie s level), fun v hd hv => ?enable⟩
  case completion =>
    obtain ⟨-, hdone, -⟩ := exec_flags h
    exact (irq_of_done hdone).trans (exec_ie h)
  case status => exact irq_of_not_done (hostWrite_done_of_bit hv s.status)
  case disable => exact irq_of_disabled (s := writeReg s .ctrl v) hv
  case acceptance => exact irq_of_not_done (by simp [writeReg_status, hb])
  case enable => exact (irq_of_done (s := writeReg s .ctrl v) hd).trans hv

end Sys2Proof.Machine
end

section
/-! PROOFS of the statements of spec/70_reset_and_hazards.md: the engine's turn ends the running command (O8), and reset
abandons it (O22). -/

namespace Sys2Proof.Machine

/-! ### The engine's turn -/

/-- With no host step before it, a step is the engine's turn on the state whose agenda has moved on (R16, R272). -/
theorem step_of_engineNext {s : State} (h : Expect.engineNext s) :
    ∃ rest, step s = engineTurn { s with agenda := rest } := by
  obtain ha | ⟨rest, ha⟩ := h
  · exact ⟨[], by simp only [step, ha]; rw [← ha]⟩
  · exact ⟨rest, by simp only [step, ha]⟩

/-- Every command answers a next state, whatever its checks say, but for a region over the window (R56, R82). -/
theorem exec_refused_or_next (i : Instr) (s : State) :
    exec i s = .refused .regionCoversWindow ∨ ∃ t, exec i s = .next t := by
  rw [exec_eq_complete]
  by_cases hc : checkCode i s.params.memBytes s.latch.ops = .ok
  · cases hw : (footprint i s.latch.ops).coversWindow s.params
    · exact .inr ⟨_, complete_of_ok hc hw⟩
    · exact .inl (complete_eq_refused_iff.2 ⟨hc, hw⟩)
  · exact .inr ⟨_, complete_of_error hc⟩

/-- The engine's turn ends the running command, legal word or not, or refuses it for the window (R56, R82, R223). -/
theorem engineTurn_completes {s : State} (hb : s.status.busy = true) (hr : s.resetHeld = false) :
    engineTurn s = .refused .regionCoversWindow ∨
      ∃ t, engineTurn s = .next t ∧ t.status.busy = false ∧ t.status.done = true := by
  cases hd : decodeWord s.latch.cmd with
  | ok i =>
    rw [engineTurn_of_running hb hr hd]
    refine (exec_refused_or_next i s).imp_right fun ⟨t, ht⟩ => ?_
    obtain ⟨hbusy, hdone, -⟩ := exec_flags ht
    exact ⟨t, ht, hbusy, hdone⟩
  | error e => exact .inr ⟨_, engineTurn_of_illegal hb hr hd, rfl, rfl⟩

/-- Settles O8: the step is the engine's turn, which ends a running command or refuses it. -/
theorem runningCommandCompletes : Obligations.RunningCommandCompletes := by
  intro s hb hr hn
  obtain ⟨rest, hs⟩ := step_of_engineNext hn
  rw [hs]
  exact engineTurn_completes (s := { s with agenda := rest }) hb hr

/-! ### The abandoned command -/

/-- The write region of a running command is that of the command its latched word decodes to (R81). -/
theorem decodeWord_of_mem_runningFootprint_write {s : State} {q : Region} (h : q ∈ (runningFootprint s).write) :
    ∃ i, decodeWord s.latch.cmd = .ok i ∧ q ∈ (footprint i s.latch.ops).write := by
  obtain hn | ⟨i, -, hi, -, hf⟩ := runningFootprint_cases s
  · rw [hn] at h
    exact absurd h (Option.not_mem_none q)
  · exact ⟨i, hi, hf ▸ h⟩

/-- Reset changes no byte outside the write region of the command it abandons (R263). -/
theorem readByte_resetStep_outside {s : State} {a : Nat}
    (h : ∀ i, decodeWord s.latch.cmd = .ok i → ∀ q ∈ (footprint i s.latch.ops).write, q.covers a = false) (level : Bool) :
    readByte (resetStep s level).mem a = readByte s.mem a := by
  refine readByte_writeCells_other _ fun c hc he => ?_
  obtain ⟨-, q, hq, hcov⟩ := freeCells_inside hc
  obtain ⟨i, hi, hq⟩ := decodeWord_of_mem_runningFootprint_write hq
  rw [he, h i hi q hq] at hcov
  cases hcov

/-- Asserting reset is a reset of the block, whatever level the input had (R260). -/
theorem hostStep_reset_asserted (s : State) : hostStep (.reset true) s = .next (resetStep s true) :=
  congrArg Host.Outcome.next ((resetInput_eq_ite s true).trans (if_pos (.inl rfl)))

/-- Settles O22: the flags and registers are those of every reset, and only a legal word has a write region. -/
theorem resetAbandonsTheRunningCommand : Obligations.ResetAbandonsTheRunningCommand := by
  intro s _
  refine ⟨resetStep s true, hostStep_reset_asserted s, rfl, rfl, rfl, rfl, rfl,
    fun i a hi hout => readByte_resetStep_outside (fun j hj => ?legal) true, rfl,
    fun e a he => readByte_resetStep_outside (fun j hj => ?illegal) true⟩
  case legal =>
    cases hi.symm.trans hj
    exact hout
  case illegal => cases he.symm.trans hj

end Sys2Proof.Machine
end
